-- ==== Sys2Proof/Word.lean ====
section
/-! DEFINITION. The word types of the block (00_scope.md rule R9). -/

namespace Sys2Proof

/-- One data unit, 8 bits (00 R9, 20 R100). -/
abbrev Byte := BitVec 8

/-- A descriptor, register, flash-address or window word, 32 bits (00 R9). -/
abbrev Word := BitVec 32

end Sys2Proof
end

