-- ==== Sys2Proof/Config.lean ====
section
/-! DEFINITION. The implementation parameters of 00_scope.md rule R6, and the free values. -/

namespace Sys2Proof

/-- One class of erase sectors of the Geometry Table (00 R2, R6). -/
structure SectorClass where
  count : Nat
  size : Nat
  deriving DecidableEq, Repr

/-- `PAGE_SIZE` (00 R6, 42 R248). -/
def Config.pageSize : Nat := 256

/-- `CAPACITY`, 8 MiB (00 R6). -/
def Config.capacity : Nat := 8388608

/-- `GEOMETRY`, in ascending address order (00 R6, 20 R103). -/
def Config.geometry : List SectorClass :=
  [⟨8, 4096⟩, ⟨1, 32768⟩, ⟨63, 65536⟩, ⟨64, 65536⟩]

/-- The block size of `SE4K` (42 R251). -/
def Config.eraseBlock : Nat := 4096

/-- `FSIZE`: the chip holds 2^(FSIZE+1) bytes (00 R6, 10 R42). -/
def Config.fsize : Nat := 22

/-- The DR FIFO's depth (10 R50). No rule depends on it but the field `SR.FLEVEL`. -/
def Config.fifoDepth : Nat := 32

/-- The erased value of a byte (20 R112, 42 R251). -/
def Config.erased : Byte := 0xFF

/-- `MM_ALT`, the continuous-read mode byte (00 R6). -/
def Config.mmAlt : Byte := 0xA0

/-- `BUSY_BIT` of status register 1 (00 R6, 10 R61). -/
def Config.busyBit : Nat := 0

/-- `WEL_BIT` of status register 1 (00 R6, 10 R61). -/
def Config.welBit : Nat := 1

/-- `QE_BIT` of status register 2 (00 R6, 10 R62). -/
def Config.qeBit : Nat := 1

/-- The value `init` writes into status register 2: `1 << QE_BIT` (10 R62, 41 R212). -/
def Config.qeValue : Byte := 0x02

/-- `MFR_ID`, OPEN (00 R6, 10 R68): a free constant (log 10). -/
opaque Config.mfrId : Byte

/-- `DEV_ID`, OPEN (00 R6, 10 R68): a free constant (log 10). -/
opaque Config.devId : Byte

/-- `T_WAKE_US`, OPEN (00 R6, 41 R213): a free constant (log 10). -/
opaque Config.tWakeUs : Nat

/-- Free value: whether CHIP takes its completion step at its n-th opportunity, once the state's
`schedule` is used up. The step is not assumed fair (43 R307, 60 R330; log 6). -/
opaque Config.chipMoves : Nat → Bool

/-- Free value: byte `i` of the `n`-th transaction whose data the rules call a draw
(00 R11, 40 R177, 43 R295 step 5; log 12). -/
opaque Config.drawByte : Nat → Nat → Byte

/-- The parameters a run of the block takes as arguments (00 R6, 92 "Open parameters"). They stand
in the state, no step changes them, and a claim about every state holds for each value (log 30).
`PRESCALER`, `FIFO_THRESHOLD`, `CS_HIGH_TIME` and `CLOCK_MODE` are operands of `bus_bringup`;
`MFR_ID` and `DEV_ID` stand in the chip's state (10 R68). -/
structure Params where
  /-- `ERASE_WREN` (42 R255). -/
  eraseWren : Bool
  /-- `MM_BASE` (20 R104). -/
  mmBase : Word
  /-- `QSPI_REG_BASE` (10 R40). -/
  regBase : Word
  /-- `T_WAKE_US` (41 R213). -/
  tWakeUs : Nat
  deriving DecidableEq, Repr

/-- The defaults of 00_scope.md rule R6; `T_WAKE_US` has none and is the free constant. -/
def Config.params : Params :=
  { eraseWren := true, mmBase := 0x90000000, regBase := 0xA0001000, tWakeUs := Config.tWakeUs }

end Sys2Proof
end

