-- ==== Sys2Proof/Descriptor.lean ====
section
/-! DEFINITION. The Transaction Descriptor's types and the bus-command table of 30_encoding.md
(rules R130 to R134, R145). -/

namespace Sys2Proof

/-- A phase's number of signal lines (30 R132). -/
inductive Width where
  | none
  | single
  | dual
  | quad
  deriving DecidableEq, Repr

/-- The functional mode (30 R134). -/
inductive FMode where
  | indirectWrite
  | indirectRead
  | autoPoll
  | memoryMapped
  deriving DecidableEq, Repr

/-- The fields of the descriptor word (30 R131). A size field holds the byte count minus one (R133). -/
structure Descriptor where
  instruction : Byte
  imode : Width
  admode : Width
  adsize : BitVec 2
  abmode : Width
  absize : BitVec 2
  dcyc : BitVec 5
  dmode : Width
  fmode : FMode
  sioo : Bool
  dhhc : Bool
  ddrm : Bool
  deriving DecidableEq, Repr

/-- The twelve bus commands (30 R145). -/
inductive BusCmd where
  | wren
  | vwren
  | rdpd
  | wrsr2
  | rdsr1
  | rdsr2
  | rdid
  | qread
  | qpp
  | se4k
  | ce
  | mmread
  deriving DecidableEq, Repr

/-- The table's rows, in its order (30 R145). -/
def BusCmd.all : List BusCmd :=
  [.wren, .vwren, .rdpd, .wrsr2, .rdsr1, .rdsr2, .rdid, .qread, .qpp, .se4k, .ce, .mmread]

end Sys2Proof
end

