-- ==== Sys2Proof/Syntax.lean ====
section
/-! DEFINITION. The instructions: the twelve bus commands SEQ emits and the fifteen operations HOST
issues (00_scope.md rule R5, 30_encoding.md rules R145 and R150). -/

namespace Sys2Proof

/-- One constructor for each row of spec/opcode_table.json. A bus command carries no operand: its
address, alternate bytes, length and data come from `AR`, `ABR`, `DLR` and `DR` (30 R138). Operands
of an operation are as wide as HOST's request carries them, so that an operand wider than its field
can be issued and refused (41 R210, R218). -/
inductive Instr where
  /-- Bus command 0x0000_0106, write enable (43 R298). -/
  | wren
  /-- Bus command 0x0000_0150, volatile status-register write enable (43 R299). -/
  | vwren
  /-- Bus command 0x0000_01AB, release from deep power-down (43 R305). -/
  | rdpd
  /-- Bus command 0x0100_0131, write status register 2 (43 R304). -/
  | wrsr2
  /-- Bus command 0x0500_0105, read status register 1 (43 R296). -/
  | rdsr1
  /-- Bus command 0x0500_0135, read status register 2 (43 R297). -/
  | rdsr2
  /-- Bus command 0x0500_2590, read manufacturer and device ID (43 R300). -/
  | rdid
  /-- Bus command 0x0718_2DEB, fast read quad I/O (43 R306). -/
  | qread
  /-- Bus command 0x0300_2532, quad page program (43 R301). -/
  | qpp
  /-- Bus command 0x0000_2520, 4K block erase (43 R302). -/
  | se4k
  /-- Bus command 0x0000_01C7, chip erase (43 R303). -/
  | ce
  /-- Bus command 0x1F10_EDEB, memory-mapped quad read (41 R217, 43 R306). -/
  | mmread
  /-- Request 0x0 (41 R210). -/
  | busBringup (prescaler fifoThreshold csHighTime clockMode : Word)
  /-- Request 0x1 (41 R212). Its operand, the delay source, has no encoding. -/
  | init
  /-- Request 0x2 (41 R215). -/
  | intoMemoryMapped
  /-- Request 0x3 (42 R240). A length is an unbounded natural at the interface (00 R9). -/
  | readBytes (address : Word) (n : Nat)
  /-- Request 0x4 (42 R245). -/
  | programPage (address : Word) (data : List Byte)
  /-- Request 0x5 (42 R250). -/
  | blockErase4k (address : Word)
  /-- Request 0x6 (42 R253). -/
  | chipErase
  /-- Request 0x7 (43 R280). -/
  | readIds
  /-- Request 0x8 (43 R282). -/
  | readStatusRegister1
  /-- Request 0x9 (43 R284). -/
  | readStatusRegister2
  /-- Request 0xA (43 R286). -/
  | writeEnable
  /-- Request 0xB (43 R288). -/
  | writeDisable
  /-- Request 0xC (40 R185). -/
  | waitBusy
  /-- Request 0xD (41 R218). -/
  | mmLoad (a width : Word)
  /-- Request 0xE (41 R219). -/
  | mmStore (a width value : Word)
  deriving DecidableEq, Repr

/-- The backend's `read(address, length)` (30 R152). -/
abbrev Backend.read (address : Word) (length : Nat) : Instr := .readBytes address length

/-- The backend's `program(address, bytes)` (30 R152). -/
abbrev Backend.program (address : Word) (bytes : List Byte) : Instr := .programPage address bytes

/-- The backend's `erase_4k(address)` (30 R152). -/
abbrev Backend.erase4k (address : Word) : Instr := .blockErase4k address

/-- The backend's `erase_all()` (30 R152). -/
abbrev Backend.eraseAll : Instr := .chipErase

end Sys2Proof
end

