-- ==== Sys2Proof/WellFormed.lean ====
section
/-! DEFINITION. Which instructions have their operands in the ranges of 30_encoding.md rule R150. -/

namespace Sys2Proof

/-- The operands lie in the ranges that 30_encoding.md rule R150 gives: the four fields of `bus_bringup`,
a length of at least 1, and a window width of 1, 2 or 4. HOST can issue a request outside them, and the
block refuses it (60 R321). -/
def Instr.wellFormed : Instr → Bool
  | .busBringup p f cs ck =>
    decide (p.toNat < 2 ^ 8) && decide (f.toNat < 2 ^ 5) && decide (cs.toNat < 2 ^ 3) &&
      decide (ck.toNat < 2 ^ 1)
  | .readBytes _ n => decide (1 ≤ n)
  | .mmLoad _ w => w == 1 || w == 2 || w == 4
  | .wren | .vwren | .rdpd | .wrsr2 | .rdsr1 | .rdsr2 | .rdid | .qread | .qpp | .se4k | .ce
  | .mmread | .init | .intoMemoryMapped | .programPage .. | .blockErase4k _
  | .chipErase | .readIds | .readStatusRegister1 | .readStatusRegister2 | .writeEnable
  | .writeDisable | .waitBusy | .mmStore .. => true

end Sys2Proof
end

