-- ==== Sys2Proof/Decode.lean ====
section
/-! DEFINITION. Decoding and encoding: the descriptor word of a bus command (30_encoding.md sections
1 to 4) and HOST's request frame (section 5). -/

namespace Sys2Proof

/-- The four bytes of a word, least significant first. -/
def bytesLE (w : Word) : List Byte :=
  [w.extractLsb' 0 8, w.extractLsb' 8 8, w.extractLsb' 16 8, w.extractLsb' 24 8]

/-- The word whose bytes are given, least significant first. -/
def wordLE (b0 b1 b2 b3 : Byte) : Word := b3 ++ b2 ++ b1 ++ b0

/-! ### The descriptor word -/

/-- The code of a width field (30 R132). -/
def Width.code : Width → BitVec 2
  | .none => 0b00
  | .single => 0b01
  | .dual => 0b10
  | .quad => 0b11

/-- The width a code names (30 R132). -/
def Width.ofCode (c : BitVec 2) : Width :=
  if c = 0b00 then .none else if c = 0b01 then .single else if c = 0b10 then .dual else .quad

/-- The code of a functional mode (30 R134). -/
def FMode.code : FMode → BitVec 2
  | .indirectWrite => 0b00
  | .indirectRead => 0b01
  | .autoPoll => 0b10
  | .memoryMapped => 0b11

/-- The functional mode a code names (30 R134). -/
def FMode.ofCode (c : BitVec 2) : FMode :=
  if c = 0b00 then .indirectWrite else if c = 0b01 then .indirectRead
  else if c = 0b10 then .autoPoll else .memoryMapped

/-- The descriptor word of the fields, reserved bits 23 and 29 zero (30 R131, R137, R141). -/
def Descriptor.toWord (d : Descriptor) : Word :=
  BitVec.ofBool d.ddrm ++ BitVec.ofBool d.dhhc ++ (0 : BitVec 1) ++ BitVec.ofBool d.sioo
    ++ d.fmode.code ++ d.dmode.code ++ (0 : BitVec 1) ++ d.dcyc ++ d.absize ++ d.abmode.code
    ++ d.adsize ++ d.admode.code ++ d.imode.code ++ d.instruction

/-- The fields of a descriptor word (30 R131). -/
def Descriptor.ofWord (w : Word) : Descriptor where
  instruction := w.extractLsb' 0 8
  imode := .ofCode (w.extractLsb' 8 2)
  admode := .ofCode (w.extractLsb' 10 2)
  adsize := w.extractLsb' 12 2
  abmode := .ofCode (w.extractLsb' 14 2)
  absize := w.extractLsb' 16 2
  dcyc := w.extractLsb' 18 5
  dmode := .ofCode (w.extractLsb' 24 2)
  fmode := .ofCode (w.extractLsb' 26 2)
  sioo := w.getLsbD 28
  dhhc := w.getLsbD 30
  ddrm := w.getLsbD 31

/-- A reserved bit of the descriptor word is set (30 R131, R148). -/
def descriptorReserved (w : Word) : Bool := w.getLsbD 23 || w.getLsbD 29

/-- The `CCR` word of each row (30 R145). -/
def BusCmd.word : BusCmd → Word
  | .wren => 0x00000106
  | .vwren => 0x00000150
  | .rdpd => 0x000001AB
  | .wrsr2 => 0x01000131
  | .rdsr1 => 0x05000105
  | .rdsr2 => 0x05000135
  | .rdid => 0x05002590
  | .qread => 0x07182DEB
  | .qpp => 0x03002532
  | .se4k => 0x00002520
  | .ce => 0x000001C7
  | .mmread => 0x1F10EDEB

/-- The instruction byte of each row, the configuration `OPC` with `PP_OPCODE` (30 R145, R146). -/
def BusCmd.opcode : BusCmd → Byte
  | .wren => 0x06
  | .vwren => 0x50
  | .rdpd => 0xAB
  | .wrsr2 => 0x31
  | .rdsr1 => 0x05
  | .rdsr2 => 0x35
  | .rdid => 0x90
  | .qread => 0xEB
  | .qpp => 0x32
  | .se4k => 0x20
  | .ce => 0xC7
  | .mmread => 0xEB

/-- A row with only an instruction phase in single width, indirect-write (30 R145). -/
def Descriptor.bare (op : Byte) : Descriptor where
  instruction := op
  imode := .single
  admode := .none
  adsize := 0
  abmode := .none
  absize := 0
  dcyc := 0
  dmode := .none
  fmode := .indirectWrite
  sioo := false
  dhhc := false
  ddrm := false

/-- The fields of each row, as the table gives them (30 R145). -/
def BusCmd.descriptor (c : BusCmd) : Descriptor :=
  match c with
  | .wren | .vwren | .rdpd | .ce => .bare c.opcode
  | .wrsr2 => { Descriptor.bare c.opcode with dmode := .single }
  | .rdsr1 | .rdsr2 => { Descriptor.bare c.opcode with dmode := .single, fmode := .indirectRead }
  | .rdid =>
    { Descriptor.bare c.opcode with
      admode := .single, adsize := 2, dmode := .single, fmode := .indirectRead }
  | .qread =>
    { Descriptor.bare c.opcode with
      admode := .quad, adsize := 2, dcyc := 6, dmode := .quad, fmode := .indirectRead }
  | .qpp => { Descriptor.bare c.opcode with admode := .single, adsize := 2, dmode := .quad }
  | .se4k => { Descriptor.bare c.opcode with admode := .single, adsize := 2 }
  | .mmread =>
    { Descriptor.bare c.opcode with
      admode := .quad, adsize := 2, abmode := .quad, absize := 0, dcyc := 4, dmode := .quad,
      fmode := .memoryMapped, sioo := true }

/-- Why a descriptor word is no bus command (30 R148). -/
inductive DescError where
  | autopoll
  | dualDdr
  | reserved
  | unknownCmd
  | shape
  deriving DecidableEq, Repr

/-- A width field of the descriptor is dual, or `DDRM` is set (30 R148). -/
def descriptorDualDdr (d : Descriptor) : Bool :=
  d.imode == .dual || d.admode == .dual || d.abmode == .dual || d.dmode == .dual || d.ddrm

/-- The case of 30_encoding.md rule R148 that a word outside the table falls under, the cases tried in
the order the rule lists them (DEDUCED, log 18). -/
def descriptorError (w : Word) : DescError :=
  let d := Descriptor.ofWord w
  if d.fmode = .autoPoll then .autopoll
  else if descriptorDualDdr d then .dualDdr
  else if descriptorReserved w then .reserved
  else if ! BusCmd.all.any (fun c => c.opcode == d.instruction) then .unknownCmd
  else .shape

/-- A descriptor word is a bus command only when it equals one row's word exactly (30 R147). -/
def decodeDescriptor (w : Word) : Except DescError BusCmd :=
  match BusCmd.all.find? (fun c => c.word == w) with
  | some c => .ok c
  | none => .error (descriptorError w)

/-- The instruction of each bus command. -/
def BusCmd.instr : BusCmd → Instr
  | .wren => .wren
  | .vwren => .vwren
  | .rdpd => .rdpd
  | .wrsr2 => .wrsr2
  | .rdsr1 => .rdsr1
  | .rdsr2 => .rdsr2
  | .rdid => .rdid
  | .qread => .qread
  | .qpp => .qpp
  | .se4k => .se4k
  | .ce => .ce
  | .mmread => .mmread

/-! ### HOST's request frame

NWBS gives no binary request format and the spec gives only the 4-bit code (30 R150). The frame is the
model's own (DESIGN CHOICE, log 2): one byte holding `OPK` in bits 3:0 with bits 7:4 zero, four operand
words of 32 bits, least significant byte first, and then data bytes: those of `program_page`, and for
`read_bytes` the part of its length above 32 bits, least significant byte first with no zero byte at the
end, since a length is unbounded at HOST's interface (00 R9). Operand words and data an operation does not
have are zero and absent. -/

/-- Why a request frame is no operation. -/
inductive RequestError where
  /-- Request code 0xF (30 R150). -/
  | unknownOp
  /-- The frame is too short, or holds a bit its operation has no place for (log 2). -/
  | malformed
  deriving DecidableEq, Repr

/-- A decoded frame: the request code, the four operand words and the data. -/
structure Frame where
  opk : BitVec 4
  op0 : Word
  op1 : Word
  op2 : Word
  op3 : Word
  data : List Byte
  deriving DecidableEq, Repr

/-- The bytes of a frame. -/
def Frame.bytes (f : Frame) : List Byte :=
  ((0 : BitVec 4) ++ f.opk) ::
    (bytesLE f.op0 ++ bytesLE f.op1 ++ bytesLE f.op2 ++ bytesLE f.op3 ++ f.data)

/-- The frame that bytes hold. -/
def Frame.ofBytes : List Byte → Option Frame
  | k :: a0 :: a1 :: a2 :: a3 :: b0 :: b1 :: b2 :: b3 :: c0 :: c1 :: c2 :: c3 ::
      d0 :: d1 :: d2 :: d3 :: data =>
    if k.extractLsb' 4 4 = (0 : BitVec 4) then
      some ⟨k.extractLsb' 0 4, wordLE a0 a1 a2 a3, wordLE b0 b1 b2 b3, wordLE c0 c1 c2 c3,
        wordLE d0 d1 d2 d3, data⟩
    else none
  | _ => none

/-- The bytes of a number, least significant first, none of them a zero at the end. The first argument
bounds their count; the number itself is enough. -/
def natBytes : Nat → Nat → List Byte
  | 0, _ => []
  | fuel + 1, m => if m = 0 then [] else BitVec.ofNat 8 m :: natBytes fuel (m / 256)

/-- The number whose bytes are given, least significant first. -/
def bytesNat : List Byte → Nat
  | [] => 0
  | b :: bs => b.toNat + 256 * bytesNat bs

/-- The operation a frame asks for (30 R150). The `used` words may hold anything; the others are zero. -/
def Frame.instr (f : Frame) : Except RequestError Instr :=
  let only (i : Instr) (rest : List Word) (data : List Byte) : Except RequestError Instr :=
    if rest.all (fun w => w == 0) && data.isEmpty then .ok i else .error .malformed
  match f.opk.toNat with
  | 0x0 => only (.busBringup f.op0 f.op1 f.op2 f.op3) [] f.data
  | 0x1 => only .init [f.op0, f.op1, f.op2, f.op3] f.data
  | 0x2 => only .intoMemoryMapped [f.op0, f.op1, f.op2, f.op3] f.data
  | 0x3 =>
    if f.data.getLast? = some 0 then .error .malformed
    else only (.readBytes f.op0 (f.op1.toNat + 2 ^ 32 * bytesNat f.data)) [f.op2, f.op3] []
  | 0x4 => only (.programPage f.op0 f.data) [f.op1, f.op2, f.op3] []
  | 0x5 => only (.blockErase4k f.op0) [f.op1, f.op2, f.op3] f.data
  | 0x6 => only .chipErase [f.op0, f.op1, f.op2, f.op3] f.data
  | 0x7 => only .readIds [f.op0, f.op1, f.op2, f.op3] f.data
  | 0x8 => only .readStatusRegister1 [f.op0, f.op1, f.op2, f.op3] f.data
  | 0x9 => only .readStatusRegister2 [f.op0, f.op1, f.op2, f.op3] f.data
  | 0xA => only .writeEnable [f.op0, f.op1, f.op2, f.op3] f.data
  | 0xB => only .writeDisable [f.op0, f.op1, f.op2, f.op3] f.data
  | 0xC => only .waitBusy [f.op0, f.op1, f.op2, f.op3] f.data
  | 0xD => only (.mmLoad f.op0 f.op1) [f.op2, f.op3] f.data
  | 0xE => only (.mmStore f.op0 f.op1 f.op2) [f.op3] f.data
  | _ => .error .unknownOp

/-- The operation that a request's bytes ask for (30 R150). -/
def decodeRequest (bytes : List Byte) : Except RequestError Instr :=
  match Frame.ofBytes bytes with
  | some f => f.instr
  | none => .error .malformed

/-! ### Both levels -/

/-- How an instruction stands in the machine: a descriptor word in `CCR`, or a request of HOST's. -/
inductive Encoding where
  | descriptor (w : Word)
  | request (bytes : List Byte)
  deriving DecidableEq, Repr

/-- Why an encoding is no instruction. -/
inductive DecodeError where
  | descriptor (e : DescError)
  | request (e : RequestError)
  deriving DecidableEq, Repr

/-- Decoding, total on any word and any bytes, rejecting by name. -/
def decode : Encoding → Except DecodeError Instr
  | .descriptor w =>
    match decodeDescriptor w with
    | .ok c => .ok c.instr
    | .error e => .error (.descriptor e)
  | .request bytes =>
    match decodeRequest bytes with
    | .ok i => .ok i
    | .error e => .error (.request e)

/-- The encoding of an instruction: the row's `CCR` word (30 R145), or the request frame
with the operation's code (30 R150) and operands. -/
def encode (i : Instr) : Encoding :=
  let req (opk : BitVec 4) (o0 o1 o2 o3 : Word) (data : List Byte) : Encoding :=
    .request (Frame.bytes ⟨opk, o0, o1, o2, o3, data⟩)
  match i with
  | .wren => .descriptor BusCmd.wren.descriptor.toWord
  | .vwren => .descriptor BusCmd.vwren.descriptor.toWord
  | .rdpd => .descriptor BusCmd.rdpd.descriptor.toWord
  | .wrsr2 => .descriptor BusCmd.wrsr2.descriptor.toWord
  | .rdsr1 => .descriptor BusCmd.rdsr1.descriptor.toWord
  | .rdsr2 => .descriptor BusCmd.rdsr2.descriptor.toWord
  | .rdid => .descriptor BusCmd.rdid.descriptor.toWord
  | .qread => .descriptor BusCmd.qread.descriptor.toWord
  | .qpp => .descriptor BusCmd.qpp.descriptor.toWord
  | .se4k => .descriptor BusCmd.se4k.descriptor.toWord
  | .ce => .descriptor BusCmd.ce.descriptor.toWord
  | .mmread => .descriptor BusCmd.mmread.descriptor.toWord
  | .busBringup p f cs ck => req 0x0 p f cs ck []
  | .init => req 0x1 0 0 0 0 []
  | .intoMemoryMapped => req 0x2 0 0 0 0 []
  | .readBytes a n => req 0x3 a (BitVec.ofNat 32 n) 0 0 (natBytes (n / 2 ^ 32) (n / 2 ^ 32))
  | .programPage a d => req 0x4 a 0 0 0 d
  | .blockErase4k a => req 0x5 a 0 0 0 []
  | .chipErase => req 0x6 0 0 0 0 []
  | .readIds => req 0x7 0 0 0 0 []
  | .readStatusRegister1 => req 0x8 0 0 0 0 []
  | .readStatusRegister2 => req 0x9 0 0 0 0 []
  | .writeEnable => req 0xA 0 0 0 0 []
  | .writeDisable => req 0xB 0 0 0 0 []
  | .waitBusy => req 0xC 0 0 0 0 []
  | .mmLoad a w => req 0xD a w 0 0 []
  | .mmStore a w v => req 0xE a w v 0 []

/-- The frame whose first byte is `w` and whose operand words are zero. -/
def bareFrame (w : Nat) : List Byte := BitVec.ofNat 8 w :: List.replicate 16 0

/-- The encoding that a row of spec/opcode_table.json stands for: a 32-bit row is a descriptor word, a
row of at most one byte a request whose operand words are zero. -/
def tableEncoding (nbits w : Nat) : Option Encoding :=
  if nbits = 32 then (if w < 2 ^ 32 then some (.descriptor (BitVec.ofNat 32 w)) else none)
  else if nbits ≤ 8 then (if w < 2 ^ 8 then some (.request (bareFrame w)) else none)
  else none

/-- The instruction the decoder reads from an instruction whose bits are `w`. -/
def decodeTableWord (nbits w : Nat) : Option Instr :=
  match tableEncoding nbits w with
  | none => none
  | some e =>
    match decode e with
    | .ok i => some i
    | .error _ => none

end Sys2Proof
end

