-- ==== Sys2Proof/Machine/State.lean ====
section
/-! DEFINITION. The machine's state as plain data: everything 10_state.md gives the block and the chip,
what a run observes, and the reasons a step can stop. -/

namespace Sys2Proof.Machine

/-- The lifecycle state `L` (10 R30). -/
inductive Lifecycle where
  | uninit
  | busReady
  | indirect
  | memMapped
  deriving DecidableEq, Repr

/-- The chip's power state `Chip.PWR` (10 R63). -/
inductive Power where
  | active
  | deepPd
  deriving DecidableEq, Repr

/-- The chip's internal operation in progress, `Chip.PENDING` (10 R67). -/
inductive Pending where
  | none
  | program (a : Nat) (bytes : List Byte)
  | erase (a n : Nat)
  | wrsr2 (v : Byte) (isVolatile : Bool)
  deriving DecidableEq, Repr

/-- A run of addresses: `n` bytes from `base`. -/
structure Range where
  base : Nat
  n : Nat
  deriving DecidableEq, Repr

/-- The flash array as the bytes that are not erased: addresses strictly rising, no entry equal to the
erased value. What an unlisted address reads as is `Memory.read`'s one default (log 9). -/
abbrev Memory := List Host.Cell

/-- The flash chip (10 section 4). -/
structure Chip where
  /-- `Chip.ARRAY` (10 R60). -/
  array : Memory
  /-- `Chip.SR1`: BUSY at `BUSY_BIT`, WEL at `WEL_BIT` (10 R61). -/
  sr1 : Byte
  /-- `Chip.SR2`: QE at `QE_BIT` (10 R62). -/
  sr2 : Byte
  /-- The non-volatile value of status register 2, which `SR2` has again after a power-cycle
  (10 R80, 60 R345). -/
  nvSr2 : Byte
  /-- `Chip.PWR` (10 R63). -/
  pwr : Power
  /-- `Chip.VWE`, the one-command volatile write enable (10 R64). -/
  vwe : Bool
  /-- `Chip.CRM`, continuous-read mode (10 R65). -/
  crm : Bool
  /-- `Chip.PROT`, the protected ranges (10 R66; log 33). -/
  prot : List Range
  /-- `Chip.PENDING` (10 R67). -/
  pending : Pending
  /-- `Chip.MFR_ID` (10 R68). -/
  mfrId : Byte
  /-- `Chip.DEV_ID` (10 R68). -/
  devId : Byte
  deriving DecidableEq, Repr

/-- The flags of `SR` that are stored (10 R43). `FTF` and `FLEVEL` are read off the FIFO
(`Regs.readSr`, log 21). -/
structure SrFlags where
  tef : Bool
  tcf : Bool
  smf : Bool
  tof : Bool
  busy : Bool
  deriving DecidableEq, Repr

/-- The peripheral registers (10 section 3). `FCR` is write-only, reads as 0 and holds nothing (R44). -/
structure Regs where
  /-- `CR` (10 R41). -/
  cr : Word
  /-- `DCR` (10 R42). -/
  dcr : Word
  /-- `SR` (10 R43). -/
  sr : SrFlags
  /-- `DLR` (10 R45). -/
  dlr : Word
  /-- `CCR` (10 R47). -/
  ccr : Word
  /-- `AR` (10 R48). -/
  ar : Word
  /-- `ABR` (10 R49). -/
  abr : Word
  /-- The bytes in the data FIFO behind `DR`, the oldest first (10 R50). -/
  fifo : List Byte
  /-- `PSMKR`, `PSMAR`, `PIR`, `LPTR`: never written (10 R51). -/
  psmkr : Word
  psmar : Word
  pir : Word
  lptr : Word
  /-- A transaction has been sent since `CCR` was last written, so that `SIOO` leaves the instruction
  phase out of the next one (30 R136, 41 R217; log 11). -/
  siooSent : Bool
  deriving DecidableEq, Repr

/-- The instruction phase of a transaction (30 R130). -/
structure InstrPhase where
  byte : Byte
  width : Width
  deriving DecidableEq, Repr

/-- The address or alternate phase of a transaction (30 R130). -/
structure BytesPhase where
  value : Word
  nbytes : Nat
  width : Width
  deriving DecidableEq, Repr

/-- Which way a data phase moves bytes. -/
inductive Dir where
  | outward
  | inward
  deriving DecidableEq, Repr

/-- The data phase of a transaction (30 R130). -/
structure DataPhase where
  dir : Dir
  width : Width
  bytes : List Byte
  deriving DecidableEq, Repr

/-- One emitted bus transaction (30 R130). -/
structure BusTxn where
  fmode : FMode
  instr : Option InstrPhase
  addr : Option BytesPhase
  alt : Option BytesPhase
  dummy : Nat
  data : Option DataPhase
  sshift : Bool
  deriving DecidableEq, Repr

/-- What `PollChipBusy` goes on to when the chip's busy bit reads 0 (40 R188, 10 R36). -/
inductive PollCont where
  /-- `init`: `L <- INDIRECT` and return (41 R212). -/
  | init
  /-- `program_page`: the chunks still to be programmed, address and bytes (42 R245). -/
  | program (rest : List (Nat × List Byte))
  /-- The erases and `wait_busy`: return (42 R250, R253, 40 R185). -/
  | done
  deriving DecidableEq, Repr

/-- The sequencer's position (10 R36). -/
inductive Seq where
  /-- No operation is in progress. -/
  | idle
  /-- A descriptor stands in `CCR` and starts with the next step (log 3). -/
  | launch
  /-- `PollChipBusy` is running and its last read showed BUSY = 1 (40 R183). -/
  | polling (k : PollCont)
  deriving DecidableEq, Repr

/-- A CPU access presented at the memory-mapped window (41 R217; log 25). -/
structure WindowAccess where
  offset : Word
  width : Nat
  deriving DecidableEq, Repr

/-- The data an operation returns (30 R150). -/
inductive OpResult where
  | unit
  | bytes (data : List Byte)
  | word (value : Word)
  deriving DecidableEq, Repr

/-- One operation's return, with its request. -/
structure OpReturn where
  request : Option Instr
  result : OpResult
  deriving DecidableEq, Repr

/-- The fault codes of 60_exceptions.md rule R321. -/
inductive FaultCode where
  | busDown
  | periphBusyWrite
  | shape
  | chipBusy
  | quadDisabled
  | pageCross
  | crm
  | mmRange
  | mmStore
  deriving DecidableEq, Repr

/-- The refusal codes of 60_exceptions.md rule R321, and the model's own three. -/
inductive RefCode where
  | lifecycle
  | unknownOp
  | operand
  | zeroLength
  | range
  | misaligned
  | protection
  | autopoll
  | dualDdr
  | reserved
  | unknownCmd
  /-- The model's own: a request while an operation is in progress (log 17). -/
  | overlap
  /-- The model's own: a frame no request is encoded as (log 2). -/
  | malformed
  /-- The model's own: a placed indirect-write descriptor whose bytes are not queued (log 15). -/
  | dataNotQueued
  deriving DecidableEq, Repr

/-- What a stop records of HOST's request: its code and operands (60 R321). -/
inductive Request where
  | op (i : Instr)
  /-- A request that is no operation, as its frame's bytes, the code in the first (log 2). -/
  | frame (bytes : List Byte)
  deriving DecidableEq, Repr

/-- A refusal mark, kept for the whole run (00 R11, 60 R321, R325). -/
structure Mark where
  code : RefCode
  request : Option Request
  txn : Option Nat
  deriving DecidableEq, Repr

/-- The state of the block, the chip and the run. Plain data. -/
structure State where
  /-- `L` (10 R30). -/
  life : Lifecycle
  /-- `CLK_EN` (10 R53). -/
  clkEn : Bool
  /-- `PINS_AF` (10 R53). -/
  pinsAf : Bool
  /-- The peripheral registers (10 R40). -/
  regs : Regs
  /-- The flash chip (10 section 4). -/
  chip : Chip
  /-- The sequencer's position (10 R36). -/
  seq : Seq
  /-- The operation in progress (10 R36). -/
  current : Option Instr
  /-- The bytes SEQ has read from `DR`, or the window has answered, in the last transaction (40 R170). -/
  rx : List Byte
  /-- The window access the CPU presents (log 25). -/
  window : Option WindowAccess
  /-- HOST's remaining requests, each a frame (00 R4; log 3). -/
  host : List (List Byte)
  /-- What each operation returned, the oldest first (00 R4). -/
  results : List OpReturn
  /-- The bus transactions emitted, the oldest first (00 R10, 30 R130). -/
  trace : List BusTxn
  /-- The window's transactions, not part of the observation (41 R217). -/
  windowTrace : List BusTxn
  /-- The waits asked of HOST's delay source, in microseconds (41 R212; log 28). -/
  delays : List Nat
  /-- The refusal marks (60 R325). -/
  marks : List Mark
  /-- Whether CHIP completes at each coming opportunity (43 R307; log 6). -/
  schedule : List Bool
  /-- How many opportunities CHIP has had (log 6). -/
  chances : Nat
  /-- How many transactions have drawn free bytes (log 12). -/
  draws : Nat
  /-- The implementation parameters, constant (00 R6; log 30). -/
  cfg : Params
  deriving DecidableEq, Repr

/-- What a stop records (60 R321, R325): the request in progress, the index in the trace of the
transaction being issued, and the state it leaves, in which the effects of the earlier transactions
stand (60 R324; log 5). -/
structure Stopped where
  request : Option Request
  txn : Option Nat
  state : State
  deriving DecidableEq, Repr

/-- The faults of 60_exceptions.md rule R321. Each ends the run: the faulted state has no further step. -/
inductive Fault where
  /-- `F_BUS_DOWN`: a transaction while `CLK_EN` or `PINS_AF` is 0 (10 R53). Raised by every
  transaction's start. Safe: the spec gives no other outcome. -/
  | busDown (at_ : Stopped)
  /-- `F_PERIPH_BUSY_WRITE`: a descriptor register written while `SR.BUSY` = 1 (10 R52). Raised by every
  transaction's start and `into_memory_mapped`. Safe: the spec gives no other outcome. -/
  | periphBusyWrite (at_ : Stopped)
  /-- `F_SHAPE`: a descriptor that is not its instruction's row (30 R140, 43 R295 step 4). Raised by the
  chip. Safe: the spec gives no other outcome. -/
  | shape (at_ : Stopped)
  /-- `F_CHIP_BUSY`: a command other than a status read while the chip is busy (43 R295 step 6). Raised
  by the chip. Safe: a real chip ignores the command, the spec faults. -/
  | chipBusy (at_ : Stopped)
  /-- `F_QUAD_DISABLED`: a quad phase while QE = 0 (43 R295 step 7). Raised by the chip. Safe. -/
  | quadDisabled (at_ : Stopped)
  /-- `F_PAGE_CROSS`: a program transaction that crosses a page (43 R301). Raised by `QPP`. Safe: a real
  chip wraps, the spec faults. -/
  | pageCross (at_ : Stopped)
  /-- `F_CRM`: an instruction phase in continuous-read mode (43 R295 step 1). Raised by the chip. Safe. -/
  | crm (at_ : Stopped)
  /-- `F_MM_RANGE`: a window access past `CAPACITY` (20 R99). Raised by `mm_load` and by a placed
  `MMREAD`. Safe. -/
  | mmRange (at_ : Stopped)
  /-- `F_MM_STORE`: a CPU store to the window (41 R219). Raised by `mm_store`. Safe. -/
  | mmStore (at_ : Stopped)
  deriving DecidableEq, Repr

/-- The refusals of 60_exceptions.md rule R321, the model's own three, and an instruction without a
meaning. `step` records a refusal as a mark and goes on with the next request (log 4). -/
inductive Refusal where
  /-- `REF_LIFECYCLE` (10 R32). Raised by every operation. Safe: the spec gives the request no meaning. -/
  | lifecycle (at_ : Stopped)
  /-- `REF_UNKNOWN_OP` (30 R150). Raised by the fetch of a request with code 0xF. Safe. -/
  | unknownOp (at_ : Stopped)
  /-- `REF_OPERAND` (41 R210, R218). Raised by `bus_bringup` and `mm_load`. Safe. -/
  | operand (at_ : Stopped)
  /-- `REF_ZERO_LENGTH` (42 R240). Raised by `read_bytes`. Safe. -/
  | zeroLength (at_ : Stopped)
  /-- `REF_RANGE` (42 R241, 93 U1). Raised by the operations that take a flash address, and by a placed
  `QPP` or `SE4K` that would be accepted at an address past `CAPACITY` (log 14). Safe. -/
  | range (at_ : Stopped)
  /-- `REF_MISALIGNED` (20 R99). Raised by `mm_load`. Safe. -/
  | misaligned (at_ : Stopped)
  /-- `REF_PROTECTION` (10 R66). Raised by `QPP`, `SE4K` and `CE`. Safe. -/
  | protection (at_ : Stopped)
  /-- `REF_AUTOPOLL` (30 R148). Raised by the fetch of a descriptor. Safe. -/
  | autopoll (at_ : Stopped)
  /-- `REF_DUAL_DDR` (30 R148). Raised by the fetch of a descriptor. Safe. -/
  | dualDdr (at_ : Stopped)
  /-- `REF_RESERVED` (30 R148). Raised by the fetch of a descriptor. Safe. -/
  | reserved (at_ : Stopped)
  /-- `REF_UNKNOWN_CMD` (30 R148, 43 R295 step 3). Raised by the fetch of a descriptor and by the chip. Safe. -/
  | unknownCmd (at_ : Stopped)
  /-- The model's own: a request while another operation is in progress (10 R33, 93 U28; log 17). Raised
  by every operation. Safe. -/
  | overlap (at_ : Stopped)
  /-- The model's own: a frame no request is encoded as (log 2). Raised by the fetch of a request. Safe. -/
  | malformed (at_ : Stopped)
  /-- The model's own: a placed indirect-write descriptor whose data bytes are not queued in `DR`
  (log 15). Raised by `WRSR2` and `QPP`. Safe. -/
  | dataNotQueued (at_ : Stopped)
  /-- An instruction that has no meaning yet. Raised by no arm. Safe. -/
  | notModelled (mnemonic : String)
  deriving DecidableEq, Repr

/-- The fault of a code. -/
def faultOf : FaultCode → Stopped → Fault
  | .busDown => .busDown
  | .periphBusyWrite => .periphBusyWrite
  | .shape => .shape
  | .chipBusy => .chipBusy
  | .quadDisabled => .quadDisabled
  | .pageCross => .pageCross
  | .crm => .crm
  | .mmRange => .mmRange
  | .mmStore => .mmStore

/-- What a fault records: its code and its stop. -/
def faultStop : Fault → FaultCode × Stopped
  | .busDown t => (.busDown, t)
  | .periphBusyWrite t => (.periphBusyWrite, t)
  | .shape t => (.shape, t)
  | .chipBusy t => (.chipBusy, t)
  | .quadDisabled t => (.quadDisabled, t)
  | .pageCross t => (.pageCross, t)
  | .crm t => (.crm, t)
  | .mmRange t => (.mmRange, t)
  | .mmStore t => (.mmStore, t)

/-- The refusal of a code. -/
def refusalOf : RefCode → Stopped → Refusal
  | .lifecycle => .lifecycle
  | .unknownOp => .unknownOp
  | .operand => .operand
  | .zeroLength => .zeroLength
  | .range => .range
  | .misaligned => .misaligned
  | .protection => .protection
  | .autopoll => .autopoll
  | .dualDdr => .dualDdr
  | .reserved => .reserved
  | .unknownCmd => .unknownCmd
  | .overlap => .overlap
  | .malformed => .malformed
  | .dataNotQueued => .dataNotQueued

/-- What a refusal records: its code and its stop. -/
def stopOf : Refusal → Option (RefCode × Stopped)
  | .lifecycle t => some (.lifecycle, t)
  | .unknownOp t => some (.unknownOp, t)
  | .operand t => some (.operand, t)
  | .zeroLength t => some (.zeroLength, t)
  | .range t => some (.range, t)
  | .misaligned t => some (.misaligned, t)
  | .protection t => some (.protection, t)
  | .autopoll t => some (.autopoll, t)
  | .dualDdr t => some (.dualDdr, t)
  | .reserved t => some (.reserved, t)
  | .unknownCmd t => some (.unknownCmd, t)
  | .overlap t => some (.overlap, t)
  | .malformed t => some (.malformed, t)
  | .dataNotQueued t => some (.dataNotQueued, t)
  | .notModelled _ => none

/-- The outcome of a meaning. -/
abbrev Result := Host.Outcome State Fault Refusal

/-- The peripheral registers after a reset: all 0, FIFO empty (10 R80). -/
def Regs.reset : Regs where
  cr := 0
  dcr := 0
  sr := ⟨false, false, false, false, false⟩
  dlr := 0
  ccr := 0
  ar := 0
  abr := 0
  fifo := []
  psmkr := 0
  psmar := 0
  pir := 0
  lptr := 0
  siooSent := false

/-- The chip's launch draws (10 R80, 70 R364): what a launch of the block finds in the chip. -/
structure Launch where
  array : Memory
  sr1 : Byte
  sr2 : Byte
  pwr : Power
  prot : List Range
  mfrId : Byte
  devId : Byte
  schedule : List Bool
  cfg : Params
  deriving DecidableEq, Repr

/-- A launch after a power-cycle under any draws: the reset values of 10_state.md rule R80, BUSY and WEL
of SR1 being 0 there and SR2 holding its non-volatile value. -/
def State.launch (d : Launch) : State where
  life := .uninit
  clkEn := false
  pinsAf := false
  regs := .reset
  chip :=
    { array := d.array, sr1 := d.sr1 &&& 0xFC, sr2 := d.sr2, pwr := d.pwr, vwe := false,
      nvSr2 := d.sr2, crm := false, prot := d.prot, pending := .none, mfrId := d.mfrId, devId := d.devId }
  seq := .idle
  current := none
  rx := []
  window := none
  host := []
  results := []
  trace := []
  windowTrace := []
  delays := []
  marks := []
  schedule := d.schedule
  chances := 0
  draws := 0
  cfg := d.cfg

/-- The draws `State.reset` names (DESIGN CHOICE, unsafe: log 8, log 9, log 10): an erased array, SR1 and
SR2 0, the chip asleep, no protection, no scheduled completion, and the parameters' defaults. -/
def Launch.named : Launch where
  array := []
  sr1 := 0
  sr2 := 0
  pwr := .deepPd
  prot := []
  mfrId := Config.mfrId
  devId := Config.devId
  schedule := []
  cfg := Config.params

/-- The machine right after reset (10 R80). -/
def State.reset : State := .launch .named

end Sys2Proof.Machine
end

