-- ==== Sys2Proof/Machine/Memory.lean ====
section
/-! DEFINITION. The operations on the flash array (00_scope.md rule R10, 42_array_operations.md rules
R249 and R251). -/

namespace Sys2Proof.Machine

/-- `Chip.ARRAY[a]`: an unlisted byte is erased (20 R112; log 9). -/
def Memory.read : Memory → Nat → Byte
  | [], _ => Config.erased
  | (b, v) :: m, a => if a = b then v else Memory.read m a

/-- `Chip.ARRAY[a] <- v`, keeping the canonical form. -/
def Memory.set : Memory → Nat → Byte → Memory
  | [], a, v => if v = Config.erased then [] else [(a, v)]
  | (b, w) :: m, a, v =>
    if a < b then (if v = Config.erased then (b, w) :: m else (a, v) :: (b, w) :: m)
    else if a = b then (if v = Config.erased then m else (a, v) :: m)
    else (b, w) :: Memory.set m a v

/-- `MemRead(a, n)`, in ascending address order (00 R10). -/
def Memory.readRange (m : Memory) (a n : Nat) : List Byte :=
  (List.range n).map fun i => m.read (a + i)

/-- `MemProgram(a, bytes)`: each byte is ANDed into the array (00 R10, 42 R249). -/
def Memory.program : Memory → Nat → List Byte → Memory
  | m, _, [] => m
  | m, a, b :: bs => Memory.program (m.set a (m.read a &&& b)) (a + 1) bs

/-- `MemErase(a, n)`: the bytes from `a` to `a+n-1` become 0xFF (00 R10, 42 R251). -/
def Memory.erase (m : Memory) (a n : Nat) : Memory :=
  m.filter fun c => decide (c.1 < a) || decide (a + n ≤ c.1)

/-- The bytes from `a` on become those given: what an interrupted program or erase leaves (20 R101). -/
def Memory.fill : Memory → Nat → List Byte → Memory
  | m, _, [] => m
  | m, a, b :: bs => Memory.fill (m.set a b) (a + 1) bs

/-- The canonical form from address `lo` on: addresses at least `lo`, strictly rising and below
`CAPACITY`, no entry equal to the erased value. -/
def Memory.wfFrom : Nat → Memory → Bool
  | _, [] => true
  | lo, (a, v) :: m =>
    decide (lo ≤ a) && decide (a < Config.capacity) && (v != Config.erased) &&
      Memory.wfFrom (a + 1) m

/-- The canonical form of an array. -/
def Memory.wf (m : Memory) : Bool := Memory.wfFrom 0 m

end Sys2Proof.Machine
end

