-- ==== Sys2Proof/Machine/Flags.lean ====
section
/-! DEFINITION. Every flag and bit field of the peripheral and chip registers (10_state.md rules R41 to
R46, R61, R62, R70). -/

namespace Sys2Proof.Machine

/-- `w` with bit `i` set or cleared. -/
def withBit {n : Nat} (w : BitVec n) (i : Nat) (b : Bool) : BitVec n :=
  if b then w ||| (BitVec.twoPow n i) else w &&& ~~~(BitVec.twoPow n i)

/-! ### Status register 1 and 2 of the chip -/

/-- `SR1[BUSY_BIT]` (10 R61). -/
def sr1Busy (v : Byte) : Bool := v.getLsbD Config.busyBit

/-- `SR1[WEL_BIT]` (10 R61). -/
def sr1Wel (v : Byte) : Bool := v.getLsbD Config.welBit

/-- `SR2[QE_BIT]` (10 R62). -/
def sr2Qe (v : Byte) : Bool := v.getLsbD Config.qeBit

/-- SR1 with BUSY set or cleared. -/
def sr1WithBusy (v : Byte) (b : Bool) : Byte := withBit v Config.busyBit b

/-- SR1 with WEL set or cleared. -/
def sr1WithWel (v : Byte) (b : Bool) : Byte := withBit v Config.welBit b

/-! ### `CR` and `DCR` -/

/-- `CR.EN` (10 R41). -/
def crEn (w : Word) : Bool := w.getLsbD 0
/-- `CR.ABORT` (10 R41). -/
def crAbort (w : Word) : Bool := w.getLsbD 1
/-- `CR.DMAEN` (10 R41). -/
def crDmaen (w : Word) : Bool := w.getLsbD 2
/-- `CR.TCEN` (10 R41). -/
def crTcen (w : Word) : Bool := w.getLsbD 3
/-- `CR.SSHIFT`, the late-sample toggle (10 R46). -/
def crSshift (w : Word) : Bool := w.getLsbD 4
/-- `CR.DFM` (10 R41). -/
def crDfm (w : Word) : Bool := w.getLsbD 6
/-- `CR.FSEL` (10 R41). -/
def crFsel (w : Word) : Bool := w.getLsbD 7
/-- `CR.FTHRES` (10 R41). -/
def crFthres (w : Word) : BitVec 5 := w.extractLsb' 8 5
/-- The interrupt enables `TEIE`, `TCIE`, `FTIE`, `SMIE`, `TOIE` (10 R41, 60 R323). -/
def crInterruptEnables (w : Word) : BitVec 5 := w.extractLsb' 16 5
/-- `CR.APMS` (10 R41). -/
def crApms (w : Word) : Bool := w.getLsbD 22
/-- `CR.PMM` (10 R41). -/
def crPmm (w : Word) : Bool := w.getLsbD 23
/-- `CR.PRESCALER` (10 R41). -/
def crPrescaler (w : Word) : BitVec 8 := w.extractLsb' 24 8

/-- The bits of `CR` that are not reserved: all but 5, 15:13 and 21 (10 R41). -/
def crMask : Word := 0xFFDF1FDF

/-- `CR` with `SSHIFT` written (10 R46). -/
def crWithSshift (w : Word) (b : Bool) : Word := withBit w 4 b

/-- `DCR.CKMODE` (10 R42). -/
def dcrCkmode (w : Word) : Bool := w.getLsbD 0
/-- `DCR.CSHT` (10 R42). -/
def dcrCsht (w : Word) : BitVec 3 := w.extractLsb' 8 3
/-- `DCR.FSIZE` (10 R42). -/
def dcrFsize (w : Word) : BitVec 5 := w.extractLsb' 16 5

/-- The bits of `DCR` that are not reserved: 0, 10:8 and 20:16 (10 R42). -/
def dcrMask : Word := 0x001F0701

/-- The `DCR` word `bus_bringup` writes (41 R210). -/
def bringupDcr (csHighTime clockMode : Word) : Word :=
  ((BitVec.ofNat 32 Config.fsize) <<< 16) ||| (csHighTime <<< 8) ||| clockMode

/-- The `CR` word `bus_bringup` writes (41 R210). -/
def bringupCr (prescaler fifoThreshold : Word) : Word :=
  (prescaler <<< 24) ||| (fifoThreshold <<< 8) ||| 0x1

/-! ### `SR` and `FCR` -/

/-- `SR.FLEVEL`: the number of bytes in the FIFO, 0 to 32 (10 R43). -/
def srFlevel (r : Regs) : BitVec 6 := BitVec.ofNat 6 (min r.fifo.length Config.fifoDepth)

/-- `SR.FTF`: the FIFO holds more than `FTHRES` bytes (10 R43; the comparison PRESUMED, log 21). -/
def srFtf (r : Regs) : Bool := decide ((crFthres r.cr).toNat < min r.fifo.length Config.fifoDepth)

/-- What a read of `SR` gives (10 R43). -/
def readSr (r : Regs) : Word :=
  (0 : BitVec 18) ++ srFlevel r ++ (0 : BitVec 2) ++ BitVec.ofBool r.sr.busy ++ BitVec.ofBool r.sr.tof
    ++ BitVec.ofBool r.sr.smf ++ BitVec.ofBool (srFtf r) ++ BitVec.ofBool r.sr.tcf
    ++ BitVec.ofBool r.sr.tef

/-- A write to `FCR`: each 1 clears its flag, each 0 leaves it (10 R44). -/
def fcrClear (f : SrFlags) (v : Word) : SrFlags :=
  { f with
    tef := f.tef && ! v.getLsbD 0
    tcf := f.tcf && ! v.getLsbD 1
    smf := f.smf && ! v.getLsbD 3
    tof := f.tof && ! v.getLsbD 4 }

/-- The address is out of the range `FSIZE` gives the chip, which sets `SR.TEF` (10 R42, R43). -/
def outOfFsize (dcr ar : Word) : Bool := decide (2 ^ ((dcrFsize dcr).toNat + 1) ≤ ar.toNat)

end Sys2Proof.Machine
end

