-- ==== Sys2Proof/Machine/Operands.lean ====
section
/-! DEFINITION. How a transaction's phases are assembled from the descriptor and the peripheral
registers (30_encoding.md rules R130, R133, R138). -/

namespace Sys2Proof.Machine

/-- The low `8*k` bits of a register (30 R138). -/
def lowBytes (k : Nat) (w : Word) : Word := w &&& BitVec.ofNat 32 (2 ^ (8 * k) - 1)

/-- A size field's byte count (30 R133). -/
def sizeBytes (c : BitVec 2) : Nat := c.toNat + 1

/-- An address or alternate phase, absent when its width is none (30 R138). -/
def bytesPhase (width : Width) (size : BitVec 2) (reg : Word) : Option BytesPhase :=
  if width = .none then none else some ⟨lowBytes (sizeBytes size) reg, sizeBytes size, width⟩

/-- The instruction phase, absent when its width is none. -/
def instrPhase (d : Descriptor) : Option InstrPhase :=
  if d.imode = .none then none else some ⟨d.instruction, d.imode⟩

/-- The data phase, absent when its width is none: outward in indirect-write mode, inward otherwise. -/
def dataPhase (d : Descriptor) (bytes : List Byte) : Option DataPhase :=
  if d.dmode = .none then none
  else some ⟨if d.fmode = .indirectWrite then .outward else .inward, d.dmode, bytes⟩

/-- The number of data bytes of an indirect transaction: `DLR + 1` when it has a data phase (30 R138,
10 R45). -/
def dataLength (d : Descriptor) (dlr : Word) : Nat := if d.dmode = .none then 0 else dlr.toNat + 1

/-- The transaction record built at a transaction's start (40 R171). -/
def buildTxn (d : Descriptor) (addr abr : Word) (sendInstr sshift : Bool) (bytes : List Byte) :
    BusTxn where
  fmode := d.fmode
  instr := if sendInstr then instrPhase d else none
  addr := bytesPhase d.admode d.adsize addr
  alt := bytesPhase d.abmode d.absize abr
  dummy := d.dcyc.toNat
  data := dataPhase d bytes
  sshift := sshift

/-- The record with the bytes that the data phase moved. -/
def BusTxn.withBytes (t : BusTxn) (bytes : List Byte) : BusTxn :=
  { t with data := t.data.map fun p => { p with bytes := bytes } }

/-- What the chip compares of a transaction: the functional mode, every width and size, and the dummy
count (43 R295 step 4). -/
structure TxnShape where
  fmode : FMode
  instr : Option Width
  addr : Option (Nat × Width)
  alt : Option (Nat × Width)
  dummy : Nat
  data : Option (Dir × Width)
  deriving DecidableEq, Repr

/-- The shape of a transaction. -/
def BusTxn.shape (t : BusTxn) : TxnShape where
  fmode := t.fmode
  instr := t.instr.map (·.width)
  addr := t.addr.map fun p => (p.nbytes, p.width)
  alt := t.alt.map fun p => (p.nbytes, p.width)
  dummy := t.dummy
  data := t.data.map fun p => (p.dir, p.width)

/-- The shape of a row's transaction (30 R145), with or without the instruction phase (30 R149). -/
def cmdShape (c : BusCmd) (sendInstr : Bool) : TxnShape :=
  (buildTxn c.descriptor 0 0 sendInstr false []).shape

/-- A quad phase is present (43 R295 step 7). -/
def BusTxn.hasQuad (t : BusTxn) : Bool :=
  t.instr.any (·.width == .quad) || t.addr.any (·.width == .quad) || t.alt.any (·.width == .quad)
    || t.data.any (·.width == .quad)

/-- The address sent, 0 when there is no address phase. -/
def BusTxn.address (t : BusTxn) : Nat := (t.addr.map fun p => p.value.toNat).getD 0

/-- The alternate value sent, none when there is no alternate phase. -/
def BusTxn.alternate (t : BusTxn) : Option Word := t.alt.map (·.value)

/-- The bytes of the data phase. -/
def BusTxn.bytes (t : BusTxn) : List Byte := (t.data.map (·.bytes)).getD []

/-- The window's answer from its bytes: the byte at the lowest address is the least significant
(20 R95, 41 R218). -/
def leValue : List Byte → Word
  | [] => 0
  | b :: bs => (b.setWidth 32) ||| (leValue bs <<< 8)

end Sys2Proof.Machine
end

