-- ==== Sys2Proof/Machine/Chip.lean ====
section
/-! DEFINITION. The CHIP agent: how it answers each bus command and its completion step
(43_register_operations.md rules R295 to R309). A rule sees the transaction `t`, the number `n` of its
data bytes, and the chip. -/

namespace Sys2Proof.Machine

/-- The chip's answer to a transaction. -/
inductive ChipReply where
  /-- The chip acts, and drives these bytes in an inward data phase. -/
  | answer (k : Chip) (bytes : List Byte)
  /-- The chip ignores the transaction: every inward byte is a draw (43 R295 step 5). -/
  | ignored
  | fault (c : FaultCode)
  | refuse (c : RefCode)
  deriving DecidableEq, Repr

/-- `Chip.PROT` covers any of the `n` bytes from `a`: a protected range shares an address with them, so
that an empty range covers nothing (10 R66, 43 R301; log 33). -/
def protects (k : Chip) (a n : Nat) : Bool :=
  k.prot.any fun r => decide (max a r.base < min (a + n) (r.base + r.n))

/-- The bytes of a read of the array that lie below `CAPACITY`, in address order (43 R306). The spec says
that no read passes it; of one that does, the further bytes are a draw (`receiveIndirect`; log 14). -/
def arrayBytes (k : Chip) (a n : Nat) : List Byte := k.array.readRange a (min n (Config.capacity - a))

/-- The aligned 4096-byte block that holds `a` starts here (42 R251). -/
def blockBase (a : Nat) : Nat := a - a % Config.eraseBlock

/-- An internal operation starts: `PENDING` is set and BUSY shows it (10 R67). -/
def chipStart (p : Pending) (k : Chip) : Chip :=
  { k with pending := p, sr1 := sr1WithBusy k.sr1 true }

/-- `WREN` (43 R298). -/
def chipWren (k : Chip) : ChipReply := .answer { k with sr1 := sr1WithWel k.sr1 true } []

/-- `VWREN` (43 R299). -/
def chipVwren (k : Chip) : ChipReply := .answer { k with vwe := true } []

/-- `RDPD` (43 R305). -/
def chipRdpd (k : Chip) : ChipReply := .answer { k with pwr := .active } []

/-- `WRSR2` (43 R304). -/
def chipWrsr2 (t : BusTxn) (k : Chip) : ChipReply :=
  let v := t.bytes.headD 0
  if k.vwe then .answer (chipStart (.wrsr2 v true) k) []
  else if sr1Wel k.sr1 then .answer (chipStart (.wrsr2 v false) k) []
  else .answer k []

/-- `RDSR1`, every byte clocked being SR1 (43 R296). -/
def chipRdsr1 (n : Nat) (k : Chip) : ChipReply := .answer k (List.replicate n k.sr1)

/-- `RDSR2`, every byte clocked being SR2 (43 R297). -/
def chipRdsr2 (n : Nat) (k : Chip) : ChipReply := .answer k (List.replicate n k.sr2)

/-- `RDID`: the manufacturer and device bytes, repeating (43 R300). -/
def chipRdid (n : Nat) (k : Chip) : ChipReply :=
  .answer k ((List.range n).map fun i => if i % 2 = 0 then k.mfrId else k.devId)

/-- `QREAD` (43 R306). -/
def chipQread (t : BusTxn) (n : Nat) (k : Chip) : ChipReply := .answer k (arrayBytes k t.address n)

/-- `QPP` (43 R301). A program that would be accepted at an address past `CAPACITY` has no meaning
(42 R241; log 14). -/
def chipQpp (t : BusTxn) (k : Chip) : ChipReply :=
  let a := t.address
  let d := t.bytes
  if protects k a d.length then .refuse .protection
  else if ! sr1Wel k.sr1 then .answer k []
  else if Config.pageSize < a % Config.pageSize + d.length then .fault .pageCross
  else if Config.capacity ≤ a then .refuse .range
  else .answer (chipStart (.program a d) k) []

/-- `SE4K` (43 R302). An erase that would be accepted at an address past `CAPACITY` has no meaning
(42 R241; log 14). -/
def chipSe4k (t : BusTxn) (k : Chip) : ChipReply :=
  let b := blockBase t.address
  if protects k b Config.eraseBlock then .refuse .protection
  else if ! sr1Wel k.sr1 then .answer k []
  else if Config.capacity ≤ t.address then .refuse .range
  else .answer (chipStart (.erase b Config.eraseBlock) k) []

/-- `CE` (43 R303). -/
def chipCe (k : Chip) : ChipReply :=
  if protects k 0 Config.capacity then .refuse .protection
  else if ! sr1Wel k.sr1 then .answer k []
  else .answer (chipStart (.erase 0 Config.capacity) k) []

/-- `MMREAD`: the read sets continuous-read mode (43 R306). -/
def chipMmread (t : BusTxn) (n : Nat) (k : Chip) : ChipReply :=
  .answer { k with crm := true } (arrayBytes k t.address n)

/-- A continuation read: a memory-mapped quad read without its instruction phase (43 R295 step 2, R306,
30 R149). Another shape or alternate value has no meaning (DEDUCED, log 20). -/
def chipContinuation (t : BusTxn) (n : Nat) (k : Chip) : ChipReply :=
  if t.shape = cmdShape .mmread false ∧ t.alternate = some (Config.mmAlt.setWidth 32) then
    .answer { k with vwe := false } (arrayBytes k t.address n)
  else .fault .shape

/-- The rule of a command (43 R295 step 8). -/
def chipRule (c : BusCmd) (t : BusTxn) (n : Nat) (k : Chip) : ChipReply :=
  match c with
  | .wren => chipWren k
  | .vwren => chipVwren k
  | .rdpd => chipRdpd k
  | .wrsr2 => chipWrsr2 t k
  | .rdsr1 => chipRdsr1 n k
  | .rdsr2 => chipRdsr2 n k
  | .rdid => chipRdid n k
  | .qread => chipQread t n k
  | .qpp => chipQpp t k
  | .se4k => chipSe4k t k
  | .ce => chipCe k
  | .mmread => chipMmread t n k

/-- The data length and fixed operand values of a command's row (30 R145). A status or ID read of more
bytes than the row's is answered, as rules R296, R297 and R300 say (DEDUCED, log 13). -/
def operandsFit (c : BusCmd) (t : BusTxn) (n : Nat) : Bool :=
  match c with
  | .wren | .vwren | .rdpd | .se4k | .ce => n == 0
  | .wrsr2 => n == 1
  | .rdsr1 | .rdsr2 | .qread => decide (1 ≤ n)
  | .rdid => decide (2 ≤ n) && t.address == 0
  | .qpp => decide (1 ≤ n) && decide (n ≤ 256)
  | .mmread =>
    (n == 1 || n == 2 || n == 4) && t.alternate == some (Config.mmAlt.setWidth 32)

/-- After a command's rule `VWE` is cleared, unless the command was `VWREN` (43 R295, R309). A command
that the chip refuses leaves it as it was, and the run goes on with it (DESIGN CHOICE, log 4). -/
def afterRule (c : BusCmd) : ChipReply → ChipReply
  | .answer k bytes => .answer (if c = .vwren then k else { k with vwe := false }) bytes
  | r => r

/-- The chip takes a transaction: the checks of 43_register_operations.md rule R295, in order, then the
command's rule. A transaction without an instruction phase that meets CRM = 0 (a second window read after
a first one that a sleeping chip ignored) falls under no step: it is refused with REF_UNKNOWN_CMD
(DESIGN CHOICE, log 20). -/
def chipTake (c : BusCmd) (t : BusTxn) (n : Nat) (k : Chip) : ChipReply :=
  if k.crm then (if t.instr.isSome then .fault .crm else chipContinuation t n k)
  else if t.instr.isNone then .refuse .unknownCmd
  else if ! (decide (t.shape = cmdShape c true) && operandsFit c t n) then .fault .shape
  else if k.pwr = .deepPd ∧ c ≠ .rdpd then .ignored
  else if k.pending ≠ .none ∧ c ≠ .rdsr1 ∧ c ≠ .rdsr2 then .fault .chipBusy
  else if t.hasQuad && ! sr2Qe k.sr2 then .fault .quadDisabled
  else afterRule c (chipRule c t n k)

/-- The chip after an internal operation: nothing pending, BUSY clear (43 R307). -/
def chipSettle (k : Chip) : Chip :=
  { k with pending := .none, sr1 := sr1WithBusy k.sr1 false }

/-- CHIP's completion step (43 R307). It is enabled only while an operation is pending. A non-volatile
status write also becomes the register's non-volatile value (60 R345). -/
def chipComplete (k : Chip) : Chip :=
  match k.pending with
  | .none => k
  | .program a d =>
    chipSettle { k with array := k.array.program a d, sr1 := sr1WithWel k.sr1 false }
  | .erase a n =>
    chipSettle { k with array := k.array.erase a n, sr1 := sr1WithWel k.sr1 false }
  | .wrsr2 v true => chipSettle { k with sr2 := v }
  | .wrsr2 v false => chipSettle { k with sr2 := v, nvSr2 := v, sr1 := sr1WithWel k.sr1 false }

end Sys2Proof.Machine
end

