-- ==== Sys2Proof/Machine/Ops.lean ====
section
/-! DEFINITION. The named operations over the state: stops, register accesses, the transaction's start,
the PERIPH step, CHIP's opportunity, and an operation's beginning and return. -/

namespace Sys2Proof.Machine

/-! ### Outcomes -/

/-- Go on from a next state; a stop stays a stop. -/
def andThen (o : Result) (k : State → Result) : Result :=
  match o with
  | .next s => k s
  | .fault f => .fault f
  | .refused r => .refused r

/-- `raise Fault(code)`: the fault records the request in progress, the transaction's index and the
state, and saves or transfers nothing else (60 R321, R325). -/
def raiseFault (c : FaultCode) (txn : Option Nat) (s : State) : Result :=
  .fault (faultOf c ⟨s.current.map .op, txn, s⟩)

/-- `refuse(reason)` (60 R321). -/
def refuse (c : RefCode) (txn : Option Nat) (s : State) : Result :=
  .refused (refusalOf c ⟨s.current.map .op, txn, s⟩)

/-- A refusal's record as the run's mark: the request is given up, the mark stays (60 R325; log 4). -/
def markRefusal (c : RefCode) (t : Stopped) : State :=
  { t.state with
    marks := t.state.marks ++ [⟨c, t.request, t.txn⟩]
    current := none
    seq := .idle
    window := none }

/-- A run's step from a meaning's outcome: a refusal leaves its mark and the run goes on (00 R11,
60 R325, 95 P3; log 4). -/
def settle (o : Result) : Result :=
  match o with
  | .next s => .next s
  | .fault f => .fault f
  | .refused r =>
    match stopOf r with
    | some (c, t) => .next (markRefusal c t)
    | none => .refused r

/-! ### Registers -/

/-- `R[CR] <- v`; reserved bits stay 0 (10 R41). -/
def writeCr (v : Word) (s : State) : State := { s with regs := { s.regs with cr := v &&& crMask } }

/-- `R[DCR] <- v`; reserved bits stay 0 (10 R42). -/
def writeDcr (v : Word) (s : State) : State := { s with regs := { s.regs with dcr := v &&& dcrMask } }

/-- `R[CR.SSHIFT] <- b` (10 R46). -/
def writeSshift (b : Bool) (s : State) : State := writeCr (crWithSshift s.regs.cr b) s

/-- `R[FCR] <- v` (10 R44). -/
def writeFcr (v : Word) (s : State) : State :=
  { s with regs := { s.regs with sr := fcrClear s.regs.sr v } }

/-- `R[DLR] <- v` (10 R45). -/
def writeDlr (v : Word) (s : State) : State := { s with regs := { s.regs with dlr := v } }

/-- `R[ABR] <- v` (10 R49). -/
def writeAbr (v : Word) (s : State) : State := { s with regs := { s.regs with abr := v } }

/-- `R[AR] <- v` (10 R48). -/
def writeAr (v : Word) (s : State) : State := { s with regs := { s.regs with ar := v } }

/-- `R[CCR] <- v`: the next transaction sends its instruction phase again (10 R47, 30 R136). -/
def writeCcr (v : Word) (s : State) : State :=
  { s with regs := { s.regs with ccr := v, siooSent := false } }

/-- Bytes written to `DR`, one by one, in order (10 R50). -/
def pushDr (bytes : List Byte) (s : State) : State :=
  { s with regs := { s.regs with fifo := s.regs.fifo ++ bytes } }

/-- `n` byte reads of `DR`: the oldest bytes leave the FIFO for SEQ's buffer, in order (10 R50, 40 R174). -/
def drainDr (n : Nat) (s : State) : State :=
  { s with rx := s.regs.fifo.take n, regs := { s.regs with fifo := s.regs.fifo.drop n } }

/-! ### The bus -/

/-- The bus is brought up (10 R53). -/
def busUp (s : State) : Bool := s.clkEn && s.pinsAf

/-- The late-sample toggle is for the transactions of `read_ids`, the one operation in
`LATE_SAMPLE_SET`, and `RDID` is the command that only `read_ids` issues (00 R6, 30 R145, 40 R177;
DEDUCED, log 34). -/
def lateSampled (c : BusCmd) : Bool := c == .rdid

/-- The bytes of the `d`-th draw, `n` of them. -/
def drawBytes (d n : Nat) : List Byte := (List.range n).map (Config.drawByte d)

/-- Byte 0 with its bit 7 drawn: the first sampled read bit (40 R177). -/
def drawFirstBit (d : Nat) : List Byte → List Byte
  | [] => []
  | b :: bs => withBit b 7 ((Config.drawByte d 0).getLsbD 7) :: bs

/-- The bytes the peripheral samples from those the chip drove, and whether a draw was made (40 R177). -/
def sampleIn (c : BusCmd) (sshift : Bool) (d : Nat) (bytes : List Byte) : List Byte × Bool :=
  if lateSampled c && ! sshift then (drawFirstBit d bytes, true)
  else if ! lateSampled c && sshift then (drawBytes d bytes.length, true)
  else (bytes, false)

/-- `Emit(t)` (00 R10). -/
def emit (t : BusTxn) (s : State) : State := { s with trace := s.trace ++ [t] }

/-- PERIPH's step for the transaction in flight: `SR.BUSY <- 0`, and `SR.TCF <- 1` at the end of an
indirect transaction (40 R172, 10 R70; log 26). Which kind it ends is read from the word in `CCR` at this
moment, which a descriptor placed during the transaction has overwritten (DESIGN CHOICE, log 26). -/
def periphEnd (s : State) : State :=
  if s.regs.sr.busy then
    { s with
      regs :=
        { s.regs with
          sr :=
            { s.regs.sr with
              busy := false
              tcf := s.regs.sr.tcf || decide ((Descriptor.ofWord s.regs.ccr).fmode ≠ .memoryMapped) } } }
  else s

/-- `WaitPeriph()`: the reads of `SR` that show BUSY = 1 change nothing (20 R102), and PERIPH's step is
fair, so the loop ends with that step taken (40 R172, R180; log 7). -/
def waitPeriph (s : State) : State := periphEnd s

/-- Whether CHIP moves at its next opportunity (43 R307; log 6). -/
def chipMoves (s : State) : Bool :=
  match s.schedule with
  | b :: _ => b
  | [] => Config.chipMoves s.chances

/-- CHIP's opportunity to take its completion step. It uses one entry of the schedule, only while an
operation is pending (43 R307; log 6). -/
def chipChance (s : State) : State :=
  if s.chip.pending = .none then s
  else
    { s with
      chip := if chipMoves s then chipComplete s.chip else s.chip
      schedule := s.schedule.tail
      chances := s.chances + 1 }

/-- The start of an indirect transaction, in one step: `SR.BUSY <- 1`, `SR.TEF` by the address's range,
and the queued bytes of an outward data phase leave the FIFO (40 R171, 10 R43). -/
def beginTxn (d : Descriptor) (n : Nat) (s : State) : State :=
  { s with
    regs :=
      { s.regs with
        sr :=
          { s.regs.sr with
            busy := true
            tef := s.regs.sr.tef || (decide (d.admode ≠ .none) && outOfFsize s.regs.dcr s.regs.ar) }
        fifo := if d.fmode = .indirectWrite then s.regs.fifo.drop n else s.regs.fifo } }

/-- Those of the `n` bytes of a read that the chip does not drive, because they lie past `CAPACITY`: each
is a draw (log 14). -/
def openBytes (d n : Nat) (bytes : List Byte) : List Byte :=
  if bytes.length < n then (drawBytes d n).drop bytes.length else []

/-- The chip answered: the `n` sampled bytes enter the FIFO and the trace (40 R171, R174, R177; log 27). -/
def receiveIndirect (c : BusCmd) (t : BusTxn) (n : Nat) (k : Chip) (bytes : List Byte) (s : State) :
    State :=
  if c.descriptor.fmode = .indirectRead then
    let rest := openBytes s.draws n bytes
    let got := sampleIn c t.sshift s.draws (bytes ++ rest)
    { s with
      chip := k
      draws := if got.2 || ! rest.isEmpty then s.draws + 1 else s.draws
      regs := { s.regs with fifo := s.regs.fifo ++ got.1 }
      trace := s.trace ++ [t.withBytes got.1] }
  else { s with chip := k, trace := s.trace ++ [t] }

/-- The chip ignored the transaction: each inward byte is a draw (43 R295 step 5). -/
def receiveIgnored (c : BusCmd) (t : BusTxn) (n : Nat) (s : State) : State :=
  if c.descriptor.fmode = .indirectRead then
    let got := drawBytes s.draws n
    { s with
      draws := s.draws + 1
      regs := { s.regs with fifo := s.regs.fifo ++ got }
      trace := s.trace ++ [t.withBytes got] }
  else { s with trace := s.trace ++ [t] }

/-- The start of an indirect bus command from the peripheral registers: the descriptor in `CCR`, the
record, its emission and the chip's answer (40 R171, 43 R295). A stop at the chip records the
transaction as emitted, and so does one for want of queued bytes, which comes before the chip takes the
transaction and so before each of its checks (DESIGN CHOICE, log 15). The lifecycle state is not
looked at: what a raw command does in MEMMAPPED the spec leaves open (41 R216, 70 R376; DESIGN CHOICE,
log 3). -/
def startIndirect (c : BusCmd) (s : State) : Result :=
  let idx := some s.trace.length
  if ! busUp s then raiseFault .busDown idx s
  else if s.regs.sr.busy then raiseFault .periphBusyWrite idx s
  else
    let d := c.descriptor
    let s1 := writeCcr c.word s
    let n := dataLength d s1.regs.dlr
    let out := if d.fmode = .indirectWrite then s1.regs.fifo.take n else []
    let t := buildTxn d s1.regs.ar s1.regs.abr true (crSshift s1.regs.cr) out
    let s2 := beginTxn d n s1
    if d.fmode = .indirectWrite ∧ s1.regs.fifo.length < n then refuse .dataNotQueued idx (emit t s2)
    else
      match chipTake c t n s2.chip with
      | .answer k bytes => .next (receiveIndirect c t n k bytes s2)
      | .ignored => .next (receiveIgnored c t n s2)
      | .fault f => raiseFault f idx (emit t s2)
      | .refuse r => refuse r idx (emit t s2)

/-- A bus transaction whose descriptor, in `CCR`, is no row's: it starts as any other (40 R171), and the
chip, which receives it, stops it by steps 1 to 4 of 43 R295 (30 R140, R148). In continuous-read mode an
indirect transaction without an instruction phase is no continuation read, so F_SHAPE (log 20). -/
def startUnlisted (e : DescError) (s : State) : Result :=
  let idx := some s.trace.length
  if ! busUp s then raiseFault .busDown idx s
  else if s.regs.sr.busy then raiseFault .periphBusyWrite idx s
  else
    let d := Descriptor.ofWord s.regs.ccr
    let n := dataLength d s.regs.dlr
    let out := if d.fmode = .indirectWrite then s.regs.fifo.take n else []
    let t := buildTxn d s.regs.ar s.regs.abr true (crSshift s.regs.cr) out
    let s1 := emit t (beginTxn d n s)
    if s.chip.crm && t.instr.isSome then raiseFault .crm idx s1
    else if ! s.chip.crm && decide (e = .unknownCmd) then refuse .unknownCmd idx s1
    else raiseFault .shape idx s1

/-- The refusal of a word outside the table for which no transaction is built when a window access meets it
in `CCR`: the first four cases of 30 R148. -/
def descriptorRefusal (w : Word) : Option RefCode :=
  match decodeDescriptor w with
  | .ok _ => none
  | .error .autopoll => some .autopoll
  | .error .dualDdr => some .dualDdr
  | .error .reserved => some .reserved
  | .error .unknownCmd => some .unknownCmd
  | .error .shape => none

/-- The window read that the peripheral issues for a CPU access: an access past `CAPACITY` faults
(20 R99); `SR.BUSY` rises, the instruction phase is sent only once, and the bytes go to the CPU
(41 R217, R218). An access that meets a word outside the table in `CCR` is refused or F_SHAPE by its case
(30 R148), and one that meets another row's word, of which no rule speaks, is F_SHAPE (DESIGN CHOICE,
log 25). Both stops come before any transaction is built, the refusals before F_BUS_DOWN (DESIGN CHOICE,
logs 18 and 25). The alignment half of 20 R99 is checked by
`mm_load` (41 R218) and not here, so that a misaligned access beside a placed `MMREAD` is answered (DESIGN
CHOICE, log 25). A stop at the chip records the transaction. -/
def startWindow (acc : WindowAccess) (s : State) : Result :=
  if Config.capacity < acc.offset.toNat + acc.width then raiseFault .mmRange none s
  else
    match descriptorRefusal s.regs.ccr with
    | some r => refuse r none s
    | none =>
      if ! busUp s then raiseFault .busDown none s
      else if s.regs.sr.busy then raiseFault .periphBusyWrite none s
      else if s.regs.ccr ≠ BusCmd.mmread.word then raiseFault .shape none s
      else
        let t := buildTxn BusCmd.mmread.descriptor acc.offset s.regs.abr (! s.regs.siooSent)
          (crSshift s.regs.cr) []
        let s1 := { s with
          regs := { s.regs with siooSent := true, sr := { s.regs.sr with busy := true } } }
        match chipTake .mmread t acc.width s1.chip with
        | .answer k bytes =>
          .next { s1 with chip := k, rx := bytes, windowTrace := s1.windowTrace ++ [t.withBytes bytes] }
        | .ignored =>
          let got := drawBytes s1.draws acc.width
          .next
            { s1 with
              draws := s1.draws + 1, rx := got, windowTrace := s1.windowTrace ++ [t.withBytes got] }
        | .fault f => raiseFault f none { s1 with windowTrace := s1.windowTrace ++ [t] }
        | .refuse r => refuse r none { s1 with windowTrace := s1.windowTrace ++ [t] }

/-! ### An operation's beginning and return -/

/-- The admission table (10 R32). A bus command is no request of HOST's. -/
def admitted (i : Instr) (l : Lifecycle) : Bool :=
  match i with
  | .busBringup .. => l == .uninit
  | .init => l == .busReady
  | .mmLoad .. | .mmStore .. => l == .memMapped
  | .intoMemoryMapped | .readBytes .. | .programPage .. | .blockErase4k _ | .chipErase | .readIds
  | .readStatusRegister1 | .readStatusRegister2 | .writeEnable | .writeDisable | .waitBusy =>
    l == .indirect
  | .wren | .vwren | .rdpd | .wrsr2 | .rdsr1 | .rdsr2 | .rdid | .qread | .qpp | .se4k | .ce
  | .mmread => false

/-- `refuse` of a request before its first transaction: no state changes (60 R324). -/
def refuseRequest (c : RefCode) (i : Instr) (s : State) : Result :=
  .refused (refusalOf c ⟨some (.op i), none, s⟩)

/-- `raise Fault` of a request before its first transaction: no state changes (60 R324). -/
def faultRequest (c : FaultCode) (i : Instr) (s : State) : Result :=
  .fault (faultOf c ⟨some (.op i), none, s⟩)

/-- A request begins: none overlaps another (10 R33, 93 U28; log 17), and the lifecycle admits it
(10 R32). The body then runs with the request recorded. -/
def request (i : Instr) (body : State → Result) (s : State) : Result :=
  if s.seq ≠ .idle then refuseRequest .overlap i s
  else if ! admitted i s.life then refuseRequest .lifecycle i s
  else body { s with current := some i }

/-- An operation returns to HOST with its result (10 R37). -/
def finish (r : OpResult) (s : State) : State :=
  { s with results := s.results ++ [⟨s.current, r⟩], current := none, seq := .idle }

end Sys2Proof.Machine
end

