-- ==== Sys2Proof/Machine/BusCommands.lean ====
section
/-! DEFINITION. The meanings of the twelve bus commands: each is one transaction started from the
peripheral registers (40_encoder_and_pollers.md rule R171), which the chip answers by the command's rule
in 43_register_operations.md. The PERIPH step that ends it is a step of its own. -/

namespace Sys2Proof.Machine

/-- `WREN`: the chip sets WEL (43 R298). -/
def execWren (s : State) : Result := startIndirect .wren s

/-- `VWREN`: the chip sets VWE (43 R299). -/
def execVwren (s : State) : Result := startIndirect .vwren s

/-- `RDPD`: the chip becomes active (43 R305). -/
def execRdpd (s : State) : Result := startIndirect .rdpd s

/-- `WRSR2`: the byte queued in `DR` goes to status register 2, at the completion step (43 R304). -/
def execWrsr2 (s : State) : Result := startIndirect .wrsr2 s

/-- `RDSR1`: status register 1 enters the FIFO (43 R296). -/
def execRdsr1 (s : State) : Result := startIndirect .rdsr1 s

/-- `RDSR2`: status register 2 enters the FIFO (43 R297). -/
def execRdsr2 (s : State) : Result := startIndirect .rdsr2 s

/-- `RDID`: the manufacturer and device bytes enter the FIFO (43 R300). -/
def execRdid (s : State) : Result := startIndirect .rdid s

/-- `QREAD`: `DLR + 1` bytes of the array from `AR` enter the FIFO (43 R306). -/
def execQread (s : State) : Result := startIndirect .qread s

/-- `QPP`: the bytes queued in `DR` are to be programmed at `AR`, at the completion step (43 R301). -/
def execQpp (s : State) : Result := startIndirect .qpp s

/-- `SE4K`: the block of `AR` is to be erased, at the completion step (43 R302). -/
def execSe4k (s : State) : Result := startIndirect .se4k s

/-- `CE`: the whole array is to be erased, at the completion step (43 R303). -/
def execCe (s : State) : Result := startIndirect .ce s

/-- `MMREAD`. With no CPU access at the window, the descriptor is written to `CCR` and starts no
transaction (41 R215). With one, the peripheral issues the window read (41 R217, 43 R306; log 25). -/
def execMmread (s : State) : Result :=
  match s.window with
  | none =>
    if s.regs.sr.busy then raiseFault .periphBusyWrite none s
    else .next (writeCcr BusCmd.mmread.word s)
  | some acc =>
    if s.regs.ccr = BusCmd.mmread.word then startWindow acc s
    else if s.regs.sr.busy then raiseFault .periphBusyWrite none s
    else startWindow acc (writeCcr BusCmd.mmread.word s)

/-- The meaning of a bus command. -/
def execBus (c : BusCmd) (s : State) : Result :=
  match c with
  | .wren => execWren s
  | .vwren => execVwren s
  | .rdpd => execRdpd s
  | .wrsr2 => execWrsr2 s
  | .rdsr1 => execRdsr1 s
  | .rdsr2 => execRdsr2 s
  | .rdid => execRdid s
  | .qread => execQread s
  | .qpp => execQpp s
  | .se4k => execSe4k s
  | .ce => execCe s
  | .mmread => execMmread s

/-- A descriptor in `CCR` that is no bus command (30 R148). The first three cases are refused before any
transaction is built, and so before F_BUS_DOWN, F_PERIPH_BUSY_WRITE and F_CRM (DESIGN CHOICE: 60 R324
lists no place for them; log 18). The last two are the chip's, after those three (60 R324, 43 R295). In
memory-mapped mode the write starts no transaction (41 R215), so an unknown byte is refused where it is
met and another mismatch reaches the chip only with a window access (DEDUCED, log 18). Neither is
F_PERIPH_BUSY_WRITE where the word was placed while `SR.BUSY` = 1 (10 R52; DESIGN CHOICE, log 18). A word
refused before any transaction starts records the trace's length as its index (60 R321; DESIGN CHOICE,
log 5). -/
def rejectDescriptor (e : DescError) (s : State) : Result :=
  let idx := some s.trace.length
  let mapped := decide ((Descriptor.ofWord s.regs.ccr).fmode = .memoryMapped)
  match e with
  | .autopoll => refuse .autopoll idx s
  | .dualDdr => refuse .dualDdr idx s
  | .reserved => refuse .reserved idx s
  | .unknownCmd => if mapped then refuse .unknownCmd idx s else startUnlisted e s
  | .shape =>
    if mapped then
      match s.window with
      | none => .next s
      | some acc => startWindow acc s
    else startUnlisted e s

end Sys2Proof.Machine
end

