-- ==== Sys2Proof/Machine/Sequencer.lean ====
section
/-! DEFINITION. The encoder primitive `Txn` and the chip busy poller (40_encoder_and_pollers.md), and
the fetch of what the next step runs. -/

namespace Sys2Proof.Machine

/-- The operands of `Txn(c, addr, alt, out, n)` (40 R170). -/
structure TxnArgs where
  addr : BitVec 24 := 0
  alt : Word := 0
  out : List Byte := []
  n : Nat := 0
  deriving DecidableEq, Repr

/-- The register writes of a transaction, in the order `DLR`, `ABR`, `CCR`, `AR`, `DR`
(40 R170, 70 R379). With a data phase and n = 0 `DLR` would hold 0xFFFF_FFFF, as the rule says. -/
def stageTxn (c : BusCmd) (x : TxnArgs) (s : State) : State :=
  let d := c.descriptor
  let s1 := if d.dmode ≠ .none then writeDlr (BitVec.ofNat 32 x.n - 1) s else s
  let s2 := if d.abmode ≠ .none then writeAbr x.alt s1 else s1
  let s3 := writeCcr c.word s2
  let s4 := if d.admode ≠ .none then writeAr (x.addr.setWidth 32) s3 else s3
  if d.fmode = .indirectWrite then pushDr (x.out.take x.n) s4 else s4

/-- The end of `Txn`: the received bytes are read from `DR`, the wait, the write of `FCR.CTCF`
(40 R170), and then CHIP's opportunity, which falls between any two transactions (43 R307). -/
def endTxn (n : Nat) (s : State) : State :=
  chipChance (writeFcr 0x2 (waitPeriph (drainDr n s)))

/-- `Txn(c, addr, alt, out, n)`: one indirect transaction (40 R170). -/
def txn (c : BusCmd) (x : TxnArgs) (s : State) : Result :=
  if ! busUp s then raiseFault .busDown (some s.trace.length) s
  else if s.regs.sr.busy then raiseFault .periphBusyWrite (some s.trace.length) s
  else
    andThen (execBus c (stageTxn c x s)) fun s1 =>
      .next (endTxn (if c.descriptor.fmode = .indirectRead then x.n else 0) s1)

/-- A transaction with no address and no data. -/
def txnBare (c : BusCmd) (s : State) : Result := txn c {} s

/-- A single-byte register read. -/
def txnRead1 (c : BusCmd) (s : State) : Result := txn c { n := 1 } s

/-- One iteration of `PollChipBusy`: an `RDSR1`, of which only `BUSY_BIT` is tested (40 R183, R187).
BUSY = 0 goes on with `k`; BUSY = 1 leaves SEQ polling, with `w` to go on to, and the next step is the
next iteration. Nothing bounds them (40 R184). -/
def pollThen (w : PollCont) (k : State → Result) (s : State) : Result :=
  andThen (txnRead1 .rdsr1 s) fun s1 =>
    if sr1Busy (s1.rx.headD 0) then .next { s1 with seq := .polling w } else k s1

/-- An operation that ends with its poll returns nothing. -/
def pollDone (s : State) : Result := pollThen .done (fun s1 => .next (finish .unit s1)) s

/-- The end of `init` (41 R212). -/
def finishInit (s : State) : Result := .next (finish .unit { s with life := .indirect })

/-! ### Page splitting -/

/-- The loop of `program_page` as a list: address, the data left, and the length of the next chunk. The
first argument bounds the iterations by the data's length, which no run of the loop exceeds (42 R245). -/
def chunkLoop : Nat → Nat → List Byte → Nat → List (Nat × List Byte)
  | 0, _, _, _ => []
  | fuel + 1, a, data, chunk =>
    if data.length = 0 then []
    else
      let rest := data.drop chunk
      (a, data.take chunk) :: chunkLoop fuel (a + chunk) rest (min Config.pageSize rest.length)

/-- The chunk list of `program_page(address, data)` (42 R245, R246). -/
def pageChunks (a : Nat) (data : List Byte) : List (Nat × List Byte) :=
  chunkLoop data.length a data (min (Config.pageSize - a % Config.pageSize) data.length)

/-- `WREN` and then `QPP` for one chunk (42 R245, R247). -/
def programChunk (a : Nat) (bytes : List Byte) (s : State) : Result :=
  andThen (txnBare .wren s) fun s1 =>
    txn .qpp { addr := BitVec.ofNat 24 a, out := bytes, n := bytes.length } s1

/-- The chunks of `program_page`, each with its write-enable, its program transaction and its poll
(42 R245, R247). -/
def programChunks : List (Nat × List Byte) → State → Result
  | [], s => .next (finish .unit s)
  | (a, bytes) :: rest, s =>
    andThen (programChunk a bytes s) fun s1 => pollThen (.program rest) (programChunks rest) s1

/-- The next iteration of the poll that is running, and what it goes on to (10 R36). -/
def pollStep (w : PollCont) (s : State) : Result :=
  match w with
  | .init => pollThen .init finishInit s
  | .program rest => pollThen (.program rest) (programChunks rest) s
  | .done => pollDone s

/-! ### The fetch -/

/-- HOST's next request is taken from its list. -/
def takeRequest (s : State) : State := { s with host := s.host.tail }

/-- The fetch of a request that is no operation: the refusal records the frame (60 R321, R324 step 1). -/
def rejectRequest (e : RequestError) (frame : List Byte) (s : State) : Result :=
  match e with
  | .unknownOp => .refused (.unknownOp ⟨some (.frame frame), none, s⟩)
  | .malformed => .refused (.malformed ⟨some (.frame frame), none, s⟩)

/-- The descriptor in `CCR` is taken to be started (log 3). -/
def takeLaunch (s : State) : State := { s with seq := .idle }

/-- With no operation in progress: PERIPH ends the transaction in flight, if there is one, and CHIP has
its opportunity (40 R172, 43 R307; log 29). The bytes that a raw read received and nobody has read from
`DR` stay in the FIFO, and the next transaction finds them there first (DESIGN CHOICE, log 22). A raw
write refused for want of queued bytes is ended here too, although its bytes never moved (40 R172; DESIGN
CHOICE, log 15). -/
def quiesce (s : State) : State := chipChance (periphEnd s)

/-- A request's frame stands where the next step fetches: first in HOST's list, with no operation in
progress. A transaction in flight stays in flight, for PERIPH's step to end (40 R172; log 3). -/
def placeRequest (frame : List Byte) (s : State) : State :=
  { s with seq := .idle, current := none, host := frame :: s.host }

/-- A descriptor stands where the next step fetches: in `CCR`, about to start, for no request of HOST's
(log 3). -/
def placeDescriptor (w : Word) (s : State) : State :=
  { writeCcr w s with seq := .launch, current := none }

end Sys2Proof.Machine
end

