-- ==== Sys2Proof/Machine/ArrayOps.lean ====
section
/-! DEFINITION. The operations that read, program and erase the flash array
(42_array_operations.md). -/

namespace Sys2Proof.Machine

/-- The range check of every operation that takes a flash address, without wrap-around (42 R241). -/
def outOfRange (address : Word) (m : Nat) : Bool := decide (Config.capacity < address.toNat + m)

/-- `read_bytes(address, n)` (42 R240). -/
def execReadBytes (address : Word) (n : Nat) (s : State) : Result :=
  request (.readBytes address n)
    (fun s1 =>
      if n = 0 then refuseRequest .zeroLength (.readBytes address n) s
      else if outOfRange address n then refuseRequest .range (.readBytes address n) s
      else
        andThen (txn .qread { addr := address.setWidth 24, n := n } s1) fun s2 =>
          .next (finish (.bytes s2.rx) s2))
    s

/-- `program_page(address, data)` (42 R245). -/
def execProgramPage (address : Word) (data : List Byte) (s : State) : Result :=
  request (.programPage address data)
    (fun s1 =>
      if outOfRange address data.length then
        refuseRequest .range (.programPage address data) s
      else programChunks (pageChunks address.toNat data) s1)
    s

/-- An erase's own write-enable, when `ERASE_WREN` (42 R255). -/
def eraseWren (s : State) : Result := if s.cfg.eraseWren then txnBare .wren s else .next s

/-- `block_erase_4k(address)` (42 R250). -/
def execBlockErase4k (address : Word) (s : State) : Result :=
  request (.blockErase4k address)
    (fun s1 =>
      if outOfRange address 1 then refuseRequest .range (.blockErase4k address) s
      else
        andThen (eraseWren s1) fun s2 =>
        andThen (txn .se4k { addr := address.setWidth 24 } s2) fun s3 => pollDone s3)
    s

/-- `chip_erase()` (42 R253). -/
def execChipErase (s : State) : Result :=
  request .chipErase
    (fun s1 =>
      andThen (eraseWren s1) fun s2 => andThen (txnBare .ce s2) fun s3 => pollDone s3)
    s

end Sys2Proof.Machine
end

