-- ==== Sys2Proof/Machine/Lifecycle.lean ====
section
/-! DEFINITION. The operations that move the lifecycle state, and the CPU's accesses to the window
(41_lifecycle.md). -/

namespace Sys2Proof.Machine

/-- The operand values `bus_bringup` admits: 8, 5, 3 and 1 bits (41 R210). -/
def bringupFits (p f cs ck : Word) : Bool :=
  decide (p.toNat < 2 ^ 8) && decide (f.toNat < 2 ^ 5) && decide (cs.toNat < 2 ^ 3) &&
    decide (ck.toNat < 2 ^ 1)

/-- `bus_bringup(prescaler, fifo_threshold, cs_high_time, clock_mode)` (41 R210). -/
def execBusBringup (p f cs ck : Word) (s : State) : Result :=
  request (.busBringup p f cs ck)
    (fun s1 =>
      if ! bringupFits p f cs ck then refuseRequest .operand (.busBringup p f cs ck) s
      else
        let s2 := { s1 with clkEn := true, pinsAf := true }
        .next (finish .unit { writeCr (bringupCr p f) (writeDcr (bringupDcr cs ck) s2) with
          life := .busReady }))
    s

/-- `delay(T_WAKE_US)`: one untimed step of HOST's delay source (41 R213, 60 R341; log 28). -/
def delayWake (s : State) : State := { s with delays := s.delays ++ [s.cfg.tWakeUs] }

/-- `init(delay)` (41 R212). -/
def execInit (s : State) : Result :=
  request .init
    (fun s1 =>
      andThen (txnBare .rdpd s1) fun s2 =>
      andThen (txnBare .vwren (delayWake s2)) fun s3 =>
      andThen (txn .wrsr2 { out := [Config.qeValue], n := 1 } s3) fun s4 =>
      pollThen .init finishInit s4)
    s

/-- `into_memory_mapped()` (41 R215). -/
def execIntoMemoryMapped (s : State) : Result :=
  request .intoMemoryMapped
    (fun s1 =>
      if s1.regs.sr.busy then raiseFault .periphBusyWrite none s1
      else
        .next (finish .unit { writeCcr BusCmd.mmread.word (writeAbr (Config.mmAlt.setWidth 32) s1) with
          life := .memMapped }))
    s

/-- `mm_load(a, w)`: the peripheral reads the window for the CPU (41 R217, R218). -/
def execMmLoad (a w : Word) (s : State) : Result :=
  request (.mmLoad a w)
    (fun s1 =>
      if ! (w == 1 || w == 2 || w == 4) then refuseRequest .operand (.mmLoad a w) s
      else if a.toNat % w.toNat ≠ 0 then refuseRequest .misaligned (.mmLoad a w) s
      else if Config.capacity < a.toNat + w.toNat then faultRequest .mmRange (.mmLoad a w) s
      else
        andThen (startWindow ⟨a, w.toNat⟩ { s1 with window := some ⟨a, w.toNat⟩ }) fun s2 =>
          .next (finish (.word (leValue s2.rx)) { periphEnd s2 with window := none }))
    s

/-- `mm_store(a, w, v)`: a fault in MEMMAPPED, and no state changes (41 R219, 20 R104; log 16). -/
def execMmStore (a w v : Word) (s : State) : Result :=
  request (.mmStore a w v) (fun _ => faultRequest .mmStore (.mmStore a w v) s) s

end Sys2Proof.Machine
end

