-- ==== Sys2Proof/Machine/RegisterOps.lean ====
section
/-! DEFINITION. The register operations (43_register_operations.md section 1) and `wait_busy`
(40_encoder_and_pollers.md rule R185). -/

namespace Sys2Proof.Machine

/-- `read_ids()`: the late-sample toggle is on for the transaction alone (43 R280, 10 R46). -/
def execReadIds (s : State) : Result :=
  request .readIds
    (fun s1 =>
      andThen (txn .rdid { n := 2 } (writeSshift true s1)) fun s2 =>
        .next (finish (.bytes s2.rx) (writeSshift false s2)))
    s

/-- `read_status_register1()` (43 R282). -/
def execReadStatusRegister1 (s : State) : Result :=
  request .readStatusRegister1
    (fun s1 => andThen (txnRead1 .rdsr1 s1) fun s2 => .next (finish (.bytes s2.rx) s2)) s

/-- `read_status_register2()` (43 R284). -/
def execReadStatusRegister2 (s : State) : Result :=
  request .readStatusRegister2
    (fun s1 => andThen (txnRead1 .rdsr2 s1) fun s2 => .next (finish (.bytes s2.rx) s2)) s

/-- `write_enable()` (43 R286). -/
def execWriteEnable (s : State) : Result :=
  request .writeEnable (fun s1 => andThen (txnBare .wren s1) fun s2 => .next (finish .unit s2)) s

/-- `write_disable()` issues the write-enable instruction, as observed (43 R288, 90 C2). -/
def execWriteDisable (s : State) : Result :=
  request .writeDisable (fun s1 => andThen (txnBare .wren s1) fun s2 => .next (finish .unit s2)) s

/-- `wait_busy()`: `PollChipBusy` alone (40 R185). -/
def execWaitBusy (s : State) : Result := request .waitBusy (fun s1 => pollDone s1) s

end Sys2Proof.Machine
end

