-- ==== Sys2Proof/Machine/Dispatch.lean ====
section
/-! DEFINITION. The dispatch of an instruction to its meaning. -/

namespace Sys2Proof.Machine

def exec (i : Instr) (s : State) : Host.Outcome State Fault Refusal :=
  match i with
  | .wren => Sys2Proof.Machine.execWren s
  | .vwren => Sys2Proof.Machine.execVwren s
  | .rdpd => Sys2Proof.Machine.execRdpd s
  | .wrsr2 => Sys2Proof.Machine.execWrsr2 s
  | .rdsr1 => Sys2Proof.Machine.execRdsr1 s
  | .rdsr2 => Sys2Proof.Machine.execRdsr2 s
  | .rdid => Sys2Proof.Machine.execRdid s
  | .qread => Sys2Proof.Machine.execQread s
  | .qpp => Sys2Proof.Machine.execQpp s
  | .se4k => Sys2Proof.Machine.execSe4k s
  | .ce => Sys2Proof.Machine.execCe s
  | .mmread => Sys2Proof.Machine.execMmread s
  | .busBringup p f cs ck => Sys2Proof.Machine.execBusBringup p f cs ck s
  | .init => Sys2Proof.Machine.execInit s
  | .intoMemoryMapped => Sys2Proof.Machine.execIntoMemoryMapped s
  | .readBytes a n => Sys2Proof.Machine.execReadBytes a n s
  | .programPage a d => Sys2Proof.Machine.execProgramPage a d s
  | .blockErase4k a => Sys2Proof.Machine.execBlockErase4k a s
  | .chipErase => Sys2Proof.Machine.execChipErase s
  | .readIds => Sys2Proof.Machine.execReadIds s
  | .readStatusRegister1 => Sys2Proof.Machine.execReadStatusRegister1 s
  | .readStatusRegister2 => Sys2Proof.Machine.execReadStatusRegister2 s
  | .writeEnable => Sys2Proof.Machine.execWriteEnable s
  | .writeDisable => Sys2Proof.Machine.execWriteDisable s
  | .waitBusy => Sys2Proof.Machine.execWaitBusy s
  | .mmLoad a w => Sys2Proof.Machine.execMmLoad a w s
  | .mmStore a w v => Sys2Proof.Machine.execMmStore a w v s

end Sys2Proof.Machine
end

