-- ==== Sys2Proof/Machine/Step.lean ====
section
/-! DEFINITION. One step of the machine: the agent that moves, and what it runs (00_scope.md rule R4). -/

namespace Sys2Proof.Machine

/-- One step. A running poll takes its next iteration (40 R183); a placed descriptor starts (log 3); with
no operation in progress PERIPH and CHIP may move and then HOST's next request, if there is one, is
fetched and run (00 R4). A refusal leaves its mark and the run goes on (60 R325; log 4). -/
def step (s : State) : Host.Outcome State Fault Refusal :=
  match s.seq with
  | .polling w => settle (pollStep w s)
  | .launch =>
    match decode (.descriptor s.regs.ccr) with
    | .ok i => settle (exec i (takeLaunch s))
    | .error (.descriptor e) => settle (rejectDescriptor e (takeLaunch s))
    | .error (.request e) => settle (rejectRequest e [] (takeLaunch s))
  | .idle =>
    match (quiesce s).host with
    | [] => .next (quiesce s)
    | frame :: _ =>
      match decode (.request frame) with
      | .ok i => settle (exec i (takeRequest (quiesce s)))
      | .error (.request e) => settle (rejectRequest e frame (takeRequest (quiesce s)))
      | .error (.descriptor e) => settle (rejectDescriptor e (takeRequest (quiesce s)))

/-- An instruction of spec/opcode_table.json placed where the next step fetches: a request's frame before
HOST's other requests, or a descriptor in `CCR` about to start (log 3). -/
def State.withFetchWord (s : State) (nbits w : Nat) : State :=
  match tableEncoding nbits w with
  | some (.request frame) => placeRequest frame s
  | some (.descriptor d) => placeDescriptor d s
  | none => s

end Sys2Proof.Machine
end

