-- ==== Sys2Proof/Machine/AddressMap.lean ====
section
/-! DEFINITION. The address spaces: the peripheral register map, the memory-mapped window and the sector
classes (10_state.md rule R40, 20_memory.md rules R90, R103, R104). -/

namespace Sys2Proof.Machine

/-- The peripheral registers (10 R40). -/
inductive Reg where
  | cr
  | dcr
  | sr
  | fcr
  | dlr
  | ccr
  | ar
  | abr
  | dr
  | psmkr
  | psmar
  | pir
  | lptr
  deriving DecidableEq, Repr

/-- The registers in the order of their offsets. -/
def Reg.all : List Reg :=
  [.cr, .dcr, .sr, .fcr, .dlr, .ccr, .ar, .abr, .dr, .psmkr, .psmar, .pir, .lptr]

/-- A register's offset from `QSPI_REG_BASE` (10 R40). -/
def Reg.offset : Reg → Nat
  | .cr => 0x00
  | .dcr => 0x04
  | .sr => 0x08
  | .fcr => 0x0C
  | .dlr => 0x10
  | .ccr => 0x14
  | .ar => 0x18
  | .abr => 0x1C
  | .dr => 0x20
  | .psmkr => 0x24
  | .psmar => 0x28
  | .pir => 0x2C
  | .lptr => 0x30

/-- What a read of a register gives. `FCR` reads as 0 (10 R44). `DR` gives the oldest byte of the FIFO,
which the read removes (`drainDr`, 10 R50), and 0 while it is empty, when no read of SEQ's is made. -/
def regValue (r : Regs) : Reg → Word
  | .cr => r.cr
  | .dcr => r.dcr
  | .sr => readSr r
  | .fcr => 0
  | .dlr => r.dlr
  | .ccr => r.ccr
  | .ar => r.ar
  | .abr => r.abr
  | .dr => (r.fifo.headD 0).setWidth 32
  | .psmkr => r.psmkr
  | .psmar => r.psmar
  | .pir => r.pir
  | .lptr => r.lptr

/-- The register at a CPU address, aligned to its word (10 R40, 20 R90). -/
def regAt (cfg : Params) (addr : Word) : Option Reg :=
  Reg.all.find? fun r => cfg.regBase.toNat + r.offset == addr.toNat

/-- The window offset of a CPU address, none outside the window (20 R90, R104, R107). -/
def windowOffset (cfg : Params) (addr : Word) : Option Word :=
  if cfg.mmBase.toNat ≤ addr.toNat ∧ addr.toNat < cfg.mmBase.toNat + Config.capacity then
    some (addr - cfg.mmBase)
  else none

/-- The request that a CPU load of `w` bytes at an address of the window is (20 R104, 41 R218). -/
def cpuLoad (cfg : Params) (addr w : Word) : Option Instr :=
  (windowOffset cfg addr).map fun a => .mmLoad a w

/-- The request that a CPU store to an address of the window is (20 R104, 41 R219). -/
def cpuStore (cfg : Params) (addr w v : Word) : Option Instr :=
  (windowOffset cfg addr).map fun a => .mmStore a w v

/-- The total size of sector classes (00 R7). -/
def geometrySize : List SectorClass → Nat
  | [] => 0
  | c :: cs => c.count * c.size + geometrySize cs

/-- The first and last address of each sector class, in ascending order from `base` (20 R103). -/
def sectorRanges : Nat → List SectorClass → List (Nat × Nat)
  | _, [] => []
  | base, c :: cs =>
    (base, base + c.count * c.size - 1) :: sectorRanges (base + c.count * c.size) cs

end Sys2Proof.Machine
end

