-- ==== Sys2Proof/Machine/Assembler.lean ====
section
/-! DEFINITION. The assembler syntax of an operation (30_encoding.md rule R151). -/

namespace Sys2Proof.Machine

/-- A number in hexadecimal, with its prefix. -/
def hex (n : Nat) : String := "0x" ++ String.ofList (Nat.toDigits 16 n)

/-- Items separated by commas. -/
def commas : List String → String
  | [] => ""
  | [x] => x
  | x :: xs => x ++ ", " ++ commas xs

/-- A byte list, a repeated one as `[v; n]` (30 R151). -/
def byteList (bytes : List Byte) : String :=
  match bytes with
  | [] => "[]"
  | b :: bs =>
    if bs ≠ [] ∧ bs.all (fun c => c == b) then
      "[" ++ hex b.toNat ++ "; " ++ toString bytes.length ++ "]"
    else "[" ++ commas (bytes.map fun c => hex c.toNat) ++ "]"

/-- An operation in assembler syntax; a bus command by its name in the table (30 R145, R151). -/
def asm : Instr → String
  | .wren => "WREN"
  | .vwren => "VWREN"
  | .rdpd => "RDPD"
  | .wrsr2 => "WRSR2"
  | .rdsr1 => "RDSR1"
  | .rdsr2 => "RDSR2"
  | .rdid => "RDID"
  | .qread => "QREAD"
  | .qpp => "QPP"
  | .se4k => "SE4K"
  | .ce => "CE"
  | .mmread => "MMREAD"
  | .busBringup p f cs ck =>
    "bus_bringup " ++ commas [hex p.toNat, hex f.toNat, hex cs.toNat, toString ck.toNat]
  | .init => "init delay"
  | .intoMemoryMapped => "into_memory_mapped"
  | .readBytes a n => "read_bytes " ++ commas [hex a.toNat, toString n]
  | .programPage a d => "program_page " ++ commas [hex a.toNat, byteList d]
  | .blockErase4k a => "block_erase_4k " ++ hex a.toNat
  | .chipErase => "chip_erase"
  | .readIds => "read_ids"
  | .readStatusRegister1 => "read_status_register1"
  | .readStatusRegister2 => "read_status_register2"
  | .writeEnable => "write_enable"
  | .writeDisable => "write_disable"
  | .waitBusy => "wait_busy"
  | .mmLoad a w => "mm_load " ++ commas [hex a.toNat, toString w.toNat]
  | .mmStore a w v => "mm_store " ++ commas [hex a.toNat, toString w.toNat, hex v.toNat]

end Sys2Proof.Machine
end

