-- ==== Sys2Proof/Machine/Reset.lean ====
section
/-! DEFINITION. The two resets of the board, which come from outside the block and are no step of it
(70_reset_and_hazards.md rules R360 to R363, 10_state.md rule R80; log 23). -/

namespace Sys2Proof.Machine

/-- What a reset leaves open (10 R80, 20 R101): the chip's power state, the byte at each address of a
range whose program or erase the reset interrupted, and status register 2 after a power-cycle inside a
non-volatile write of it (log 24). -/
structure ResetDraws where
  sr2 : Byte
  pwr : Power
  interrupted : Nat → Byte

/-- The range a reset inside an internal operation leaves as a draw: the page of a program, the block of
an erase (20 R101; log 24). -/
def interruptedRange : Pending → Range
  | .program a _ => ⟨a - a % Config.pageSize, Config.pageSize⟩
  | .erase a n => ⟨a, n⟩
  | .none | .wrsr2 _ _ => ⟨0, 0⟩

/-- The array after a reset: the interrupted range is a draw and the rest is unchanged (20 R101). -/
def interruptArray (f : Nat → Byte) (k : Chip) : Memory :=
  let r := interruptedRange k.pending
  k.array.fill r.base ((List.range r.n).map fun i => f (r.base + i))

/-- The block's part of a reset (70 R360, 10 R80): `L`, the bring-up flags, the registers and the
sequencer. What the run has recorded, and the parameters, stay. -/
def resetBlock (s : State) : State :=
  { s with
    life := .uninit, clkEn := false, pinsAf := false, regs := .reset, seq := .idle
    current := none, rx := [], window := none }

/-- The non-volatile value of status register 2 after a power-cycle: it survives (10 R80, 60 R345), and a
draw takes its place when the power-cycle falls inside a non-volatile write of it (log 24). -/
def survivingSr2 (d : ResetDraws) (k : Chip) : Byte :=
  match k.pending with
  | .wrsr2 _ false => d.sr2
  | .none | .program _ _ | .erase _ _ | .wrsr2 _ true => k.nvSr2

/-- A system reset: the chip is not reset, an internal operation goes on, continuous-read mode stays, and
so do SR2, BUSY and WEL (70 R362, R363, 10 R80). SR1[7:2] holds the chip's non-volatile values, which the
block never writes, and stays; `Chip.PROT`, for which 10 R80 has no row, stands for such bits and stays
(DEDUCED, log 23). -/
def systemReset (d : ResetDraws) (s : State) : State :=
  { resetBlock s with
    chip :=
      { s.chip with
        array := interruptArray d.interrupted s.chip
        pwr := d.pwr
        vwe := false } }

/-- A power-cycle: the array's contents stay but for an interrupted range, and so do SR1[7:2], `Chip.PROT`
(DEDUCED, log 23) and the non-volatile value of SR2; the volatile status values are lost
(10 R80, 60 R345). -/
def powerCycle (d : ResetDraws) (s : State) : State :=
  { resetBlock s with
    chip :=
      { s.chip with
        array := interruptArray d.interrupted s.chip
        sr1 := s.chip.sr1 &&& 0xFC
        sr2 := survivingSr2 d s.chip
        nvSr2 := survivingSr2 d s.chip
        pwr := d.pwr
        vwe := false
        crm := false
        pending := .none } }

end Sys2Proof.Machine
end

