-- ==== Sys2Proof/Machine/Wire.lean ====
section
/-! DEFINITION. A transaction on the wire and its length in clock cycles (20_memory.md rules R92 and R93,
30_encoding.md rule R139). No rule of the machine depends on a cycle count (70 R377). -/

namespace Sys2Proof.Machine

/-- The number of signal lines of a width (30 R139). -/
def lines : Width → Nat
  | .none => 0
  | .single => 1
  | .dual => 2
  | .quad => 4

/-- The clocks of `b` bytes over a width: `ph(m, b)` of 30_encoding.md rule R139. -/
def phaseCycles (w : Width) (b : Nat) : Nat := if w = .none then 0 else 8 * b / lines w

/-- The length in clocks of a transaction with `n` data bytes. `first` says that the instruction phase is
sent (30 R139). -/
def cycles (d : Descriptor) (n : Nat) (first : Bool) : Nat :=
  (if first then phaseCycles d.imode 1 else 0) + phaseCycles d.admode (sizeBytes d.adsize)
    + phaseCycles d.abmode (sizeBytes d.absize) + d.dcyc.toNat + phaseCycles d.dmode n

/-- The bits of a byte on the lanes, one list a clock, the highest lane first: the most significant bit
first, in quad width the high nibble first with its top bit on IO3 (20 R92). -/
def byteClocks (w : Width) (b : Byte) : List (List Bool) :=
  let bit := fun i => b.getLsbD i
  match w with
  | .none => []
  | .single => [[bit 7], [bit 6], [bit 5], [bit 4], [bit 3], [bit 2], [bit 1], [bit 0]]
  | .dual => [[bit 7, bit 6], [bit 5, bit 4], [bit 3, bit 2], [bit 1, bit 0]]
  | .quad => [[bit 7, bit 6, bit 5, bit 4], [bit 3, bit 2, bit 1, bit 0]]

/-- The low `k` bytes of a value, most significant first (20 R92). -/
def bytesMsbFirst : Nat → Word → List Byte
  | 0, _ => []
  | k + 1, v => v.extractLsb' (8 * k) 8 :: bytesMsbFirst k v

/-- The clocks of a list of bytes, in order (40 R173). -/
def bytesClocks (w : Width) (bytes : List Byte) : List (List Bool) := bytes.flatMap (byteClocks w)

/-- The clocks of a transaction, phase by phase (30 R130). A dummy cycle moves no data. -/
def txnClocks (t : BusTxn) : List (List Bool) :=
  (match t.instr with | some p => byteClocks p.width p.byte | none => [])
    ++ (match t.addr with | some p => bytesClocks p.width (bytesMsbFirst p.nbytes p.value) | none => [])
    ++ (match t.alt with | some p => bytesClocks p.width (bytesMsbFirst p.nbytes p.value) | none => [])
    ++ List.replicate t.dummy []
    ++ (match t.data with | some p => bytesClocks p.width p.bytes | none => [])

end Sys2Proof.Machine
end

