-- ==== Sys2Proof/Safety.lean ====
section
/-! DEFINITION. What claims are stated in: the launch premises, the observation and end of a run, the
conditions under which a transaction is answered, and the invariants. -/

namespace Sys2Proof.Machine

/-! ### The launch premises (70_reset_and_hazards.md rule R364) -/

/-- `LaunchUninit`: `L = UNINIT` and the registers at their reset values (10 R80). -/
abbrev LaunchUninit (s : State) : Prop :=
  s.life = .uninit ∧ s.clkEn = false ∧ s.pinsAf = false ∧ s.regs = .reset ∧ s.seq = .idle

/-- `NoProtection`: no chip write protection covers any address (10 R66). -/
abbrev NoProtection (s : State) : Prop := s.chip.prot = []

/-- `NoContinuousRead` (70 R363). -/
abbrev NoContinuousRead (s : State) : Prop := s.chip.crm = false

/-- `ChipIdle` (70 R362). -/
abbrev ChipIdle (s : State) : Prop := s.chip.pending = .none

/-- Whether CHIP takes its completion step at the `m`-th opportunity it has from `s` on (43 R307; log 6). -/
def chipMoveAt (s : State) (m : Nat) : Bool :=
  match s.schedule[m]? with
  | some b => b
  | none => Config.chipMoves (s.chances + m)

/-- `ChipCompletes`: whenever an operation is pending at the chip in the run from `s`, the completion step
is taken at some later opportunity (60 R331). -/
def ChipCompletes (s : State) : Prop :=
  ∀ (n : Nat) (t : State), Host.Core.run Sys2Proof.core n s = .next t → t.chip.pending ≠ .none →
    ∃ m, chipMoveAt t m = true

/-! ### A run -/

/-- What is observed of a fault: its code, the request and the index of its transaction (60 R321). -/
structure FaultRecord where
  code : FaultCode
  request : Option Request
  txn : Option Nat
  deriving DecidableEq, Repr

/-- The observation of a run (00 R4, 60 R333): the bus trace, what the operations returned, `L`, the
peripheral registers, the chip, and any refusal and fault. -/
structure Observation where
  trace : List BusTxn
  results : List OpReturn
  life : Lifecycle
  regs : Regs
  chip : Chip
  marks : List Mark
  fault : Option FaultRecord
  deriving DecidableEq, Repr

/-- What is observed of a state that no fault has ended. -/
def observe (s : State) : Observation :=
  ⟨s.trace, s.results, s.life, s.regs, s.chip, s.marks, none⟩

/-- What is observed of a run's outcome, `Host.Core.run` of the core: of its state, or of the state in
which it stopped and the stop. -/
def observeRun (o : Result) : Option Observation :=
  match o with
  | .next s => some (observe s)
  | .fault f =>
    let (c, t) := faultStop f
    some { observe t.state with fault := some ⟨c, t.request, t.txn⟩ }
  | .refused r => (stopOf r).map fun p => observe (markRefusal p.1 p.2)

/-- A run has ended successfully in `s` (60 R333): every request of HOST's has returned, nothing is in
flight at PERIPH or CHIP, and no refusal mark is recorded. A faulted run has no such state. -/
abbrev EndedWell (s : State) : Prop :=
  s.host = [] ∧ s.seq = .idle ∧ s.regs.sr.busy = false ∧ s.chip.pending = .none ∧ s.marks = []

/-! ### When a transaction is answered -/

/-- The bus is up and no transaction is in flight, so that `Txn` raises neither of its two faults
(40 R170), and no byte is left over in the FIFO. -/
abbrev BusIdle (s : State) : Prop :=
  busUp s = true ∧ s.regs.sr.busy = false ∧ s.regs.fifo = []

/-- The chip is awake, idle and not in continuous-read mode, so that the checks 1, 2, 5 and 6 of
43_register_operations.md rule R295 pass. -/
abbrev ChipReady (k : Chip) : Prop := k.crm = false ∧ k.pwr = .active ∧ k.pending = .none

/-- The control registers as `bus_bringup` leaves them outside a transaction: the chip's size in `FSIZE`,
the late-sample toggle off, the reserved bits of `CR` 0 (41 R210, 10 R41, R42, R46). -/
abbrev Configured (s : State) : Prop :=
  dcrFsize s.regs.dcr = BitVec.ofNat 5 Config.fsize ∧ crSshift s.regs.cr = false ∧
    s.regs.cr &&& crMask = s.regs.cr

/-- The conditions under which an operation of INDIRECT runs to its end or its first busy poll. -/
abbrev IndirectReady (s : State) : Prop :=
  s.seq = .idle ∧ s.life = .indirect ∧ BusIdle s ∧ ChipReady s.chip ∧ Configured s

/-- The peripheral is ready to serve a window access: the bus up, no transaction in flight, the
memory-mapped descriptor in `CCR` and the mode byte in `ABR` (41 R215, R217). -/
abbrev WindowReady (s : State) : Prop :=
  busUp s = true ∧ s.regs.sr.busy = false ∧ s.regs.ccr = BusCmd.mmread.word ∧
    s.regs.abr = Config.mmAlt.setWidth 32

/-- The chip answers a window read: its continuous-read mode agrees with whether the peripheral has sent
the instruction phase, and outside that mode the checks of 43 R295 pass. -/
abbrev WindowChip (s : State) : Prop :=
  s.chip.crm = s.regs.siooSent ∧
    (s.chip.crm = false → s.chip.pwr = .active ∧ s.chip.pending = .none ∧ sr2Qe s.chip.sr2 = true)

/-! ### The bus commands as trace records (30_encoding.md rules R130 and R145) -/

/-- A command with only its instruction phase: `WREN`, `VWREN`, `RDPD`, `CE`. -/
def bareTxn (op : Byte) (sshift : Bool) : BusTxn :=
  ⟨.indirectWrite, some ⟨op, .single⟩, none, none, 0, none, sshift⟩

/-- A status read, `RDSR1` or `RDSR2`, and the bytes read in. -/
def statusTxn (op : Byte) (bytes : List Byte) (sshift : Bool) : BusTxn :=
  ⟨.indirectRead, some ⟨op, .single⟩, none, none, 0, some ⟨.inward, .single, bytes⟩, sshift⟩

/-- `WRSR2` and the byte sent. -/
def wrsr2Txn (v : Byte) (sshift : Bool) : BusTxn :=
  ⟨.indirectWrite, some ⟨0x31, .single⟩, none, none, 0, some ⟨.outward, .single, [v]⟩, sshift⟩

/-- `RDID` at address 0, and the bytes read in. -/
def rdidTxn (bytes : List Byte) (sshift : Bool) : BusTxn :=
  ⟨.indirectRead, some ⟨0x90, .single⟩, some ⟨0, 3, .single⟩, none, 0,
    some ⟨.inward, .single, bytes⟩, sshift⟩

/-- `QREAD` at an address, and the bytes read in. -/
def qreadTxn (a : Word) (bytes : List Byte) (sshift : Bool) : BusTxn :=
  ⟨.indirectRead, some ⟨0xEB, .single⟩, some ⟨a, 3, .quad⟩, none, 6,
    some ⟨.inward, .quad, bytes⟩, sshift⟩

/-- `QPP` at an address, and the bytes sent. -/
def qppTxn (a : Word) (bytes : List Byte) (sshift : Bool) : BusTxn :=
  ⟨.indirectWrite, some ⟨0x32, .single⟩, some ⟨a, 3, .single⟩, none, 0,
    some ⟨.outward, .quad, bytes⟩, sshift⟩

/-- `SE4K` at an address. -/
def se4kTxn (a : Word) (sshift : Bool) : BusTxn :=
  ⟨.indirectWrite, some ⟨0x20, .single⟩, some ⟨a, 3, .single⟩, none, 0, none, sshift⟩

/-- `MMREAD` at a window offset, with its instruction phase or without, and the bytes read in. -/
def mmreadTxn (first : Bool) (a : Word) (bytes : List Byte) (sshift : Bool) : BusTxn :=
  ⟨.memoryMapped, if first then some ⟨0xEB, .single⟩ else none, some ⟨a, 3, .quad⟩,
    some ⟨0xA0, 1, .quad⟩, 4, some ⟨.inward, .quad, bytes⟩, sshift⟩

/-- The write-enable an erase issues first, when `ERASE_WREN` (42 R255). -/
def eraseWrenTrace (cfg : Params) : List BusTxn := if cfg.eraseWren then [bareTxn 0x06 false] else []

/-- The transactions of the chunks of `program_page` when each poll reads `v` at once (42 R245). -/
def chunkTrace (v : Byte) (chunks : List (Nat × List Byte)) : List BusTxn :=
  chunks.flatMap fun c =>
    [bareTxn 0x06 false, qppTxn (BitVec.ofNat 32 c.1) c.2 false, statusTxn 0x05 [v] false]

/-! ### What a command needs of the registers -/

/-- The registers right after an indirect command with descriptor word `w` has started: the word in `CCR`
and `SR.BUSY` = 1 (40 R171). -/
def inFlight (w : Word) (r : Regs) : Regs :=
  { r with ccr := w, siooSent := false, sr := { r.sr with busy := true } }

/-- The registers after an indirect command of `Txn` has ended and its flag is cleared (40 R170). -/
def afterTxn (w : Word) (r : Regs) : Regs :=
  { r with ccr := w, siooSent := false, sr := { r.sr with tcf := false } }

/-- A command can start: the bus is up, no transaction is in flight, and the bytes that a command sends
are queued in `DR` (10 R50, R52, R53). -/
abbrev CanStart (c : BusCmd) (s : State) : Prop :=
  busUp s = true ∧ s.regs.sr.busy = false ∧
    (c.descriptor.fmode = .indirectWrite → c.descriptor.dmode ≠ .none →
      s.regs.dlr.toNat + 1 ≤ s.regs.fifo.length)

/-- The data length and the fixed address of a command's row (30 R145), as the registers hold them. -/
def rowOperands (c : BusCmd) (r : Regs) : Bool :=
  match c with
  | .wrsr2 => r.dlr == 0
  | .rdid => decide (1 ≤ r.dlr.toNat) && (r.ar &&& 0x00FFFFFF) == 0
  | .qpp => decide (r.dlr.toNat < 256)
  | .wren | .vwren | .rdpd | .rdsr1 | .rdsr2 | .qread | .se4k | .ce | .mmread => true

/-- What a stop of a command at the chip records: the request in progress, the transaction's index, and
the chip as it stood (60 R321, R325). -/
abbrev StopRecord (s : State) (t : Stopped) : Prop :=
  t.request = s.current.map .op ∧ t.txn = some s.trace.length ∧ t.state.chip = s.chip

/-! ### Invariants -/

/-- A pending program stays inside the array (43 R301, 42 R246). -/
def pendingInRange : Pending → Bool
  | .program a d => decide (a + d.length ≤ Config.capacity)
  | .none | .erase _ _ | .wrsr2 _ _ => true

/-- What every step keeps, from any state: the array in canonical form, BUSY showing exactly a pending
operation (10 R67), only `EN`, `SSHIFT`, `FTHRES` and `PRESCALER` of `CR` ever 1 (10 R41, 60 R323), the
reserved bits of `DCR` 0 (10 R42), and the registers the block never writes at 0 (10 R51). -/
abbrev CoreInv (s : State) : Prop :=
  s.chip.array.wf = true ∧ pendingInRange s.chip.pending = true ∧
    sr1Busy s.chip.sr1 = decide (s.chip.pending ≠ .none) ∧
    s.regs.cr &&& 0xFF001F11 = s.regs.cr ∧ s.regs.dcr &&& dcrMask = s.regs.dcr ∧
    s.regs.psmkr = 0 ∧ s.regs.psmar = 0 ∧ s.regs.pir = 0 ∧ s.regs.lptr = 0

/-- The sequencer's position agrees with the lifecycle: `init` polls in BUS_READY after its status write,
the other polls run in INDIRECT, and no descriptor is placed (40 R188, 41 R212). -/
def seqFits (s : State) : Bool :=
  match s.seq with
  | .idle => s.current == none
  | .launch => false
  | .polling .init =>
    s.life == .busReady && s.current == some .init && s.chip.pwr == .active &&
      (s.chip.pending == .wrsr2 Config.qeValue true ||
        (s.chip.pending == .none && sr2Qe s.chip.sr2))
  | .polling (.program rest) =>
    s.life == .indirect &&
      rest.all fun c =>
        decide (1 ≤ c.2.length) && decide (c.1 % Config.pageSize + c.2.length ≤ Config.pageSize) &&
          decide (c.1 < Config.capacity)
  | .polling .done => s.life == .indirect

/-- The chip agrees with the lifecycle: from INDIRECT on it is awake with QE set (41 R214), nothing is
pending while no poll runs (40 R188), no status write is pending in INDIRECT, and continuous-read mode is
that of the window (10 R65). -/
def chipFits (s : State) : Bool :=
  (match s.life with
    | .uninit | .busReady => s.chip.crm == false
    | .indirect =>
      s.chip.crm == false && s.chip.pwr == .active && sr2Qe s.chip.sr2 &&
        (match s.chip.pending with | .wrsr2 _ _ => false | _ => true)
    | .memMapped =>
      s.chip.crm == s.regs.siooSent && s.chip.pwr == .active && sr2Qe s.chip.sr2 &&
        s.regs.ccr == BusCmd.mmread.word && s.regs.abr == Config.mmAlt.setWidth 32)
  && (match s.seq with | .idle => s.chip.pending == .none | _ => true)

/-- What every state of a run of the block has, under the launch premises (70 R364): the bus is up from
BUS_READY on (60 R340), no transaction is in flight between steps (40 R181), the toggle is off (10 R46),
no protection, and the sequencer and chip agree with the lifecycle. -/
abbrev BlockInv (s : State) : Prop :=
  CoreInv s ∧ s.regs.sr.busy = false ∧ s.regs.fifo = [] ∧ s.window = none ∧ s.chip.prot = [] ∧
    crSshift s.regs.cr = false ∧
    (s.life ≠ .uninit → busUp s = true ∧ dcrFsize s.regs.dcr = BitVec.ofNat 5 Config.fsize) ∧
    seqFits s = true ∧ chipFits s = true

/-- The faults that a run of the block can reach (60 R321, last column): the two HOST brings about. -/
def hostFault : Fault → Bool
  | .mmRange _ | .mmStore _ => true
  | .busDown _ | .periphBusyWrite _ | .shape _ | .chipBusy _ | .quadDisabled _ | .pageCross _
  | .crm _ => false

/-- The edges of the lifecycle (10 R31), and staying. -/
def lifeEdge : Lifecycle → Lifecycle → Bool
  | .uninit, .busReady => true
  | .busReady, .indirect => true
  | .indirect, .memMapped => true
  | a, b => a == b

end Sys2Proof.Machine
end

