-- ==== Sys2Proof/Certificates/Slice0/Obligations.lean ====
section
/-! DEFINITION. The statements for the provers, in the order of spec/: encoding, the step, the bus
commands, the pollers, the operations, faults and refusals, the invariants, and the resets. -/

open Sys2Proof Sys2Proof.Machine

/-! ### Encoding (30_encoding.md) -/

/-- Decoding an encoded instruction gives it back, with every operand at every value, ill-formed
instructions too (the frame of a request is the model's choice, log 2). -/
def Obligations.DecodeEncodeAgree : Prop :=
  ∀ i : Instr, decode (encode i) = .ok i

/-- The descriptor word and its fields are the same thing: every combination of fields has a word, and
every word without a reserved bit is the word of its fields (R131 to R135, R141). -/
def Obligations.DescriptorFieldsRoundTrip : Prop :=
  (∀ d : Descriptor,
    Descriptor.ofWord d.toWord = d ∧ descriptorReserved d.toWord = false) ∧
  (∀ w : Word, descriptorReserved w = false → (Descriptor.ofWord w).toWord = w)

/-- A word decodes to a bus command only if it equals one row's word exactly; no two rows share a word;
byte 0xEB is QREAD in indirect-read mode and MMREAD in memory-mapped mode (R147). -/
def Obligations.ExactWordDecode : Prop :=
  (∀ (w : Word) (c : BusCmd), decodeDescriptor w = .ok c ↔ w = c.word) ∧
  (∀ c c' : BusCmd, c.word = c'.word → c = c') ∧
  (∀ (w : Word) (c : BusCmd), decodeDescriptor w = .ok c →
    (Descriptor.ofWord w).instruction = 0xEB →
    ((Descriptor.ofWord w).fmode = .indirectRead → c = .qread) ∧
    ((Descriptor.ofWord w).fmode = .memoryMapped → c = .mmread))

/-- The words of spec/opcode_table.json, written out, decode to their instructions, and each request code
of R150 to its operation (with operand words of zeros). -/
def Obligations.SampleWordsDecode : Prop :=
  decodeTableWord 32 0x00000106 = some .wren ∧ decodeTableWord 32 0x0000_0150 = some .vwren ∧
  decodeTableWord 32 0x000001AB = some .rdpd ∧ decodeTableWord 32 0x01000131 = some .wrsr2 ∧
  decodeTableWord 32 0x05000105 = some .rdsr1 ∧ decodeTableWord 32 0x05000135 = some .rdsr2 ∧
  decodeTableWord 32 0x05002590 = some .rdid ∧ decodeTableWord 32 0x07182DEB = some .qread ∧
  decodeTableWord 32 0x03002532 = some .qpp ∧ decodeTableWord 32 0x00002520 = some .se4k ∧
  decodeTableWord 32 0x000001C7 = some .ce ∧ decodeTableWord 32 0x1F10EDEB = some .mmread ∧
  decodeTableWord 4 0x0 = some (.busBringup 0 0 0 0) ∧ decodeTableWord 4 0x1 = some .init ∧
  decodeTableWord 4 0x2 = some .intoMemoryMapped ∧ decodeTableWord 4 0x3 = some (.readBytes 0 0) ∧
  decodeTableWord 4 0x4 = some (.programPage 0 []) ∧
  decodeTableWord 4 0x5 = some (.blockErase4k 0) ∧ decodeTableWord 4 0x6 = some .chipErase ∧
  decodeTableWord 4 0x7 = some .readIds ∧ decodeTableWord 4 0x8 = some .readStatusRegister1 ∧
  decodeTableWord 4 0x9 = some .readStatusRegister2 ∧ decodeTableWord 4 0xA = some .writeEnable ∧
  decodeTableWord 4 0xB = some .writeDisable ∧ decodeTableWord 4 0xC = some .waitBusy ∧
  decodeTableWord 4 0xD = some (.mmLoad 0 0) ∧ decodeTableWord 4 0xE = some (.mmStore 0 0 0) ∧
  decodeTableWord 4 0xF = none

/-- The bus of a transaction in clock cycles: the clocks of its phases number what R139's sum says. -/
def Obligations.WireClocksAreTheCycleSum : Prop :=
  ∀ (d : Descriptor) (ar abr : Word) (first sshift : Bool) (bytes : List Byte),
    let n := if d.dmode = .none then 0 else bytes.length
    (txnClocks (buildTxn d ar abr first sshift bytes)).length = cycles d n first ∧
    cycles d n first =
      (if first = true ∧ d.imode ≠ .none then 8 / lines d.imode else 0) +
      (if d.admode ≠ .none then 8 * (d.adsize.toNat + 1) / lines d.admode else 0) +
      (if d.abmode ≠ .none then 8 * (d.absize.toNat + 1) / lines d.abmode else 0) +
      d.dcyc.toNat + (if d.dmode ≠ .none then 8 * n / lines d.dmode else 0)

/-- The order of bits on the lanes: most significant byte and bit first, one, two or four bits a clock,
the highest lane first (R92). -/
def Obligations.BitsGoMostSignificantFirst : Prop :=
  ∀ a : Word,
    bytesClocks .single (bytesMsbFirst 3 a) =
      (List.range 24).map (fun i => [a.getLsbD (23 - i)]) ∧
    bytesClocks .dual (bytesMsbFirst 3 a) =
      (List.range 12).map (fun i => [a.getLsbD (23 - 2 * i), a.getLsbD (22 - 2 * i)]) ∧
    bytesClocks .quad (bytesMsbFirst 3 a) =
      (List.range 6).map (fun i =>
        [a.getLsbD (23 - 4 * i), a.getLsbD (22 - 4 * i), a.getLsbD (21 - 4 * i), a.getLsbD (20 - 4 * i)])

/-! ### The parameters and the address spaces -/

/-- The sector classes add up to the capacity, and their address ranges are those of R103. -/
def Obligations.GeometryCoversTheChip : Prop :=
  geometrySize Config.geometry = Config.capacity ∧ Config.capacity = 8388608 ∧
  sectorRanges 0 Config.geometry =
    [(0x000000, 0x007FFF), (0x008000, 0x00FFFF), (0x010000, 0x3FFFFF), (0x400000, 0x7FFFFF)]

/-- A CPU access is a window access at offset `addr - MM_BASE` exactly when it lies in the window, whose
size is the capacity (R104); a register stands at each offset of R40 and nowhere else. -/
def Obligations.AddressMapOfWindowAndRegisters : Prop :=
  (∀ (cfg : Params) (addr w v : Word),
    (cfg.mmBase.toNat ≤ addr.toNat ∧ addr.toNat < cfg.mmBase.toNat + 8388608 →
      cpuLoad cfg addr w = some (.mmLoad (addr - cfg.mmBase) w) ∧
      cpuStore cfg addr w v = some (.mmStore (addr - cfg.mmBase) w v)) ∧
    (¬ (cfg.mmBase.toNat ≤ addr.toNat ∧ addr.toNat < cfg.mmBase.toNat + 8388608) →
      cpuLoad cfg addr w = none ∧ cpuStore cfg addr w v = none)) ∧
  (∀ (cfg : Params) (addr : Word) (r : Reg),
    regAt cfg addr = some r ↔ addr.toNat = cfg.regBase.toNat + r.offset)

/-! ### The step (00_scope.md rule R4, 60_exceptions.md rules R324 and R325) -/

/-- A request of HOST's that decodes to an operation is run by the next step: `exec` of it, after PERIPH
and CHIP had their turn; with nothing in flight at either, at this very state without the request. A
descriptor placed in `CCR` that decodes to a bus command is started by the next step (log 3). -/
def Obligations.StepRunsTheDecodedInstruction : Prop :=
  (∀ (s : State) (frame : List Byte) (rest : List (List Byte)) (i : Instr),
    s.seq = .idle → s.host = frame :: rest → decode (.request frame) = .ok i →
    step s = settle (exec i (takeRequest (quiesce s))) ∧
    (s.regs.sr.busy = false → s.chip.pending = .none →
      step s = settle (exec i { s with host := rest }))) ∧
  (∀ (s : State) (i : Instr),
    s.seq = .launch → decode (.descriptor s.regs.ccr) = .ok i →
    step s = settle (exec i { s with seq := .idle }))

/-- A request with code 0xF is refused, and so is a request that `exec` refuses before its first
transaction: the refusal leaves only its mark, and the next request is then served (R150, R324, R325;
that the run goes on is the model's reading, log 4). -/
def Obligations.RefusedRequestLeavesOnlyItsMark : Prop :=
  ∀ (s : State) (frame : List Byte) (rest : List (List Byte)),
    s.seq = .idle → s.regs.sr.busy = false → s.chip.pending = .none → s.current = none →
    s.window = none → s.host = frame :: rest →
    (∀ f : Frame, frame = f.bytes → f.opk = 0xF →
      step s = .next { s with
        host := rest, marks := s.marks ++ [⟨.unknownOp, some (.frame frame), none⟩] }) ∧
    (∀ (i : Instr) (c : RefCode), decode (.request frame) = .ok i →
      exec i { s with host := rest } =
        .refused (refusalOf c ⟨some (.op i), none, { s with host := rest }⟩) →
      step s = .next { s with host := rest, marks := s.marks ++ [⟨c, some (.op i), none⟩] })

/-- What a run has recorded stays: every step only appends to the trace, the results, the marks and the
delays, and changes no parameter and no ID byte (R68, R325). -/
def Obligations.RecordsAreOnlyAppended : Prop :=
  ∀ s t : State, step s = .next t →
    s.trace <+: t.trace ∧ s.results <+: t.results ∧ s.marks <+: t.marks ∧ s.delays <+: t.delays ∧
    s.windowTrace <+: t.windowTrace ∧ t.cfg = s.cfg ∧ t.chip.mfrId = s.chip.mfrId ∧
    t.chip.devId = s.chip.devId ∧ t.chip.prot = s.chip.prot

/-- A placed descriptor word that is no row's is treated by the first case of R148 that fits, in the rule's
order. Auto-polling, dual or DDR, and a reserved bit are refused before any transaction is built. In
memory-mapped mode an unknown byte is refused and another mismatch starts no transaction, since writing
`CCR` starts none (41 R215), also where the word was placed while `SR.BUSY` = 1 (log 18). Otherwise
F_BUS_DOWN and F_PERIPH_BUSY_WRITE come first; then the transaction starts and is recorded, and the chip
stops it by steps 1 to 4 of R295. The model's choices: the order of the cases and the place of the first
three (log 18), that a word is placed at all (log 3), that the mark stays and the run goes on with a next
state (log 4), the index in the mark (log 5), and F_SHAPE for an indirect transaction without an instruction
phase in continuous-read mode (log 20). -/
def Obligations.PlacedDescriptorOutsideTheTable : Prop :=
  ∀ s : State, s.seq = .launch → (∀ c : BusCmd, s.regs.ccr ≠ c.word) →
    let w := s.regs.ccr
    let d := Descriptor.ofWord w
    let isDual := d.imode = .dual ∨ d.admode = .dual ∨ d.abmode = .dual ∨ d.dmode = .dual
    let unknown := ∀ c ∈ BusCmd.all, c.opcode ≠ d.instruction
    let idle : State := { s with seq := .idle }
    let at_ (t : State) : Stopped := ⟨s.current.map .op, some s.trace.length, t⟩
    let marked (c : RefCode) (t : State) : Prop := step s = .next { t with
      seq := .idle
      marks := s.marks ++ [⟨c, s.current.map .op, some s.trace.length⟩]
      current := none
      window := none }
    let n := if d.dmode = .none then 0 else s.regs.dlr.toNat + 1
    let out := if d.fmode = .indirectWrite then s.regs.fifo.take n else []
    let sent : State := emit (buildTxn d s.regs.ar s.regs.abr true (crSshift s.regs.cr) out)
      (beginTxn d n idle)
    if d.fmode = .autoPoll then marked .autopoll s
    else if isDual ∨ d.ddrm = true then marked .dualDdr s
    else if w.getLsbD 23 = true ∨ w.getLsbD 29 = true then marked .reserved s
    else if d.fmode = .memoryMapped then
      (unknown → marked .unknownCmd s) ∧ (¬ unknown → s.window = none → step s = .next idle)
    else
      (busUp s = false → step s = .fault (.busDown (at_ idle))) ∧
      (busUp s = true → s.regs.sr.busy = true → step s = .fault (.periphBusyWrite (at_ idle))) ∧
      (busUp s = true → s.regs.sr.busy = false →
        (s.chip.crm = true →
          (d.imode ≠ .none → step s = .fault (.crm (at_ sent))) ∧
          (d.imode = .none → step s = .fault (.shape (at_ sent)))) ∧
        (s.chip.crm = false →
          (unknown → marked .unknownCmd sent) ∧
          (¬ unknown → step s = .fault (.shape (at_ sent)))))

/-! ### The bus commands (40_encoder_and_pollers.md, 43_register_operations.md section 2) -/

/-- `WREN` sets WEL, `VWREN` sets VWE and leaves WEL, `RDPD` makes the chip active; each sends its
instruction byte alone and changes nothing else but the command's clearing of VWE (R298, R299, R305,
R309). -/
def Obligations.LatchAndWakeCommands : Prop :=
  ∀ s : State, busUp s = true → s.regs.sr.busy = false → s.chip.crm = false →
    s.chip.pending = .none →
    (s.chip.pwr = .active → exec .wren s = .next { s with
      regs := inFlight 0x00000106 s.regs
      chip := { s.chip with sr1 := s.chip.sr1 ||| 0x02, vwe := false }
      trace := s.trace ++ [bareTxn 0x06 (crSshift s.regs.cr)] }) ∧
    (s.chip.pwr = .active → exec .vwren s = .next { s with
      regs := inFlight 0x00000150 s.regs
      chip := { s.chip with vwe := true }
      trace := s.trace ++ [bareTxn 0x50 (crSshift s.regs.cr)] }) ∧
    exec .rdpd s = .next { s with
      regs := inFlight 0x000001AB s.regs
      chip := { s.chip with pwr := .active, vwe := false }
      trace := s.trace ++ [bareTxn 0xAB (crSshift s.regs.cr)] }

/-- `RDSR1` and `RDSR2` return the status register, once for each byte clocked, while the chip is busy
too, and change no state of the chip but VWE (R296, R297, R309). That more than one byte is answered, as
R296 and R297 say, and is not F_SHAPE by step 4 of R295, is the model's reading (DEDUCED, log 13). -/
def Obligations.StatusReadCommands : Prop :=
  ∀ s : State, BusIdle s → s.chip.crm = false → s.chip.pwr = .active →
    crSshift s.regs.cr = false →
    let n := s.regs.dlr.toNat + 1
    exec .rdsr1 s = .next { s with
      regs := { inFlight 0x05000105 s.regs with fifo := List.replicate n s.chip.sr1 }
      chip := { s.chip with vwe := false }
      trace := s.trace ++ [statusTxn 0x05 (List.replicate n s.chip.sr1) false] } ∧
    exec .rdsr2 s = .next { s with
      regs := { inFlight 0x05000135 s.regs with fifo := List.replicate n s.chip.sr2 }
      chip := { s.chip with vwe := false }
      trace := s.trace ++ [statusTxn 0x35 (List.replicate n s.chip.sr2) false] }

/-- `RDID` at address 0 returns the manufacturer and device bytes, the pair repeating, and at another
address is F_SHAPE (R300). The address is the 24 bits sent: bits 31:24 of `AR` only set `SR.TEF` (log 21).
That more than two bytes are answered, as R300 says, and are not F_SHAPE by step 4 of R295, is the model's
reading (DEDUCED, log 13). -/
def Obligations.ReadIdCommand : Prop :=
  ∀ s : State, BusIdle s → ChipReady s.chip →
    dcrFsize s.regs.dcr = BitVec.ofNat 5 Config.fsize → crSshift s.regs.cr = true →
    1 ≤ s.regs.dlr.toNat →
    (s.regs.ar &&& 0x00FFFFFF = 0 →
      let bytes := (List.range (s.regs.dlr.toNat + 1)).map
        (fun i => if i % 2 = 0 then s.chip.mfrId else s.chip.devId)
      exec .rdid s = .next { s with
        regs := { inFlight 0x05002590 s.regs with
          fifo := bytes
          sr := { s.regs.sr with
            busy := true, tef := s.regs.sr.tef || decide (8388608 ≤ s.regs.ar.toNat) } }
        chip := { s.chip with vwe := false }
        trace := s.trace ++ [rdidTxn bytes true] }) ∧
    (s.regs.ar &&& 0x00FFFFFF ≠ 0 →
      ∃ t, exec .rdid s = .fault (.shape t) ∧ StopRecord s t)

/-- `QREAD` returns the bytes of the array from the address on, in address order, and leaves the chip's
state but VWE (R306, 20 R94). R306 says that no read passes `CAPACITY`; that one which does completes, with
its bytes below `CAPACITY` the array's and the others open, is the model's choice (log 14). -/
def Obligations.QuadReadCommand : Prop :=
  ∀ s : State, BusIdle s → ChipReady s.chip → Configured s → sr2Qe s.chip.sr2 = true →
    (s.regs.ar.toNat + (s.regs.dlr.toNat + 1) ≤ Config.capacity →
      let bytes := (List.range (s.regs.dlr.toNat + 1)).map
        (fun i => s.chip.array.read (s.regs.ar.toNat + i))
      exec .qread s = .next { s with
        regs := { inFlight 0x07182DEB s.regs with fifo := bytes }
        chip := { s.chip with vwe := false }
        trace := s.trace ++ [qreadTxn s.regs.ar bytes false] }) ∧
    (let a := (s.regs.ar &&& 0x00FFFFFF).toNat
      ∃ t, exec .qread s = .next t ∧ t.chip = { s.chip with vwe := false } ∧
        t.regs.fifo.length = s.regs.dlr.toNat + 1 ∧
        ∀ i, i < s.regs.dlr.toNat + 1 → a + i < Config.capacity →
          t.regs.fifo[i]? = some (s.chip.array.read (a + i)))

/-- `WRSR2` right after `VWREN` is a volatile write, with WEL = 1 a non-volatile one, and otherwise has no
effect; the write is pending and BUSY shows it (R304). -/
def Obligations.WriteStatus2Command : Prop :=
  ∀ (s : State) (v : Byte), busUp s = true → s.regs.sr.busy = false → ChipReady s.chip →
    s.regs.dlr = 0 → s.regs.fifo = [v] →
    exec .wrsr2 s = .next { s with
      regs := { inFlight 0x01000131 s.regs with fifo := [] }
      chip :=
        if s.chip.vwe = true then
          { s.chip with pending := .wrsr2 v true, sr1 := s.chip.sr1 ||| 0x01, vwe := false }
        else if sr1Wel s.chip.sr1 = true then
          { s.chip with pending := .wrsr2 v false, sr1 := s.chip.sr1 ||| 0x01, vwe := false }
        else s.chip
      trace := s.trace ++ [wrsr2Txn v (crSshift s.regs.cr)] }

/-- `QPP`: protection of a byte to be programmed refuses it, without WEL it has no effect, a page crossing
faults, and otherwise the program is pending and BUSY shows it; no array byte changes yet (R301, 10 R67).
The model's choices: that protection is a list of ranges (log 33), that a program which would be accepted at
an address past `CAPACITY` is refused (log 14), and that a refused one leaves VWE as it was (log 4). Bits
31:23 of `AR` set `SR.TEF` (log 21). -/
def Obligations.QuadPageProgramCommand : Prop :=
  ∀ (s : State) (d : List Byte), busUp s = true → s.regs.sr.busy = false → ChipReady s.chip →
    dcrFsize s.regs.dcr = BitVec.ofNat 5 Config.fsize → sr2Qe s.chip.sr2 = true →
    1 ≤ d.length → d.length ≤ 256 → s.regs.dlr = BitVec.ofNat 32 (d.length - 1) →
    s.regs.fifo = d →
    let a := (s.regs.ar &&& 0x00FFFFFF).toNat
    let answered (k : Chip) : Prop := exec .qpp s = .next { s with
      regs := { inFlight 0x03002532 s.regs with
        fifo := []
        sr := { s.regs.sr with
          busy := true, tef := s.regs.sr.tef || decide (8388608 ≤ s.regs.ar.toNat) } }
      chip := k
      trace := s.trace ++ [qppTxn (s.regs.ar &&& 0x00FFFFFF) d (crSshift s.regs.cr)] }
    let covered := ∃ r ∈ s.chip.prot, ∃ x,
      r.base ≤ x ∧ x < r.base + r.n ∧ a ≤ x ∧ x < a + d.length
    (covered → ∃ t, exec .qpp s = .refused (.protection t) ∧ StopRecord s t) ∧
    (¬ covered → sr1Wel s.chip.sr1 = false → answered { s.chip with vwe := false }) ∧
    (¬ covered → sr1Wel s.chip.sr1 = true → 256 < a % 256 + d.length →
      ∃ t, exec .qpp s = .fault (.pageCross t) ∧ StopRecord s t) ∧
    (¬ covered → sr1Wel s.chip.sr1 = true → a % 256 + d.length ≤ 256 → 8388608 ≤ a →
      ∃ t, exec .qpp s = .refused (.range t) ∧ StopRecord s t) ∧
    (¬ covered → sr1Wel s.chip.sr1 = true → a % 256 + d.length ≤ 256 → a < 8388608 →
      answered { s.chip with pending := .program a d, sr1 := s.chip.sr1 ||| 0x01, vwe := false })

/-- `SE4K` and `CE`: protection of a byte to be erased refuses the command, without WEL it has no effect,
and otherwise the erase of the aligned 4096-byte block, or of the whole array, is pending and BUSY shows it
(R302, R303). The model's choices: that protection is a list of ranges (log 33), that a `SE4K` which would
be accepted at an address past `CAPACITY` is refused (log 14), and that a refused command leaves VWE as it
was (log 4). Bits 31:23 of `AR` set `SR.TEF` for `SE4K` (log 21). -/
def Obligations.EraseCommands : Prop :=
  ∀ s : State, busUp s = true → s.regs.sr.busy = false → ChipReady s.chip →
    (dcrFsize s.regs.dcr = BitVec.ofNat 5 Config.fsize →
      let a := (s.regs.ar &&& 0x00FFFFFF).toNat
      let b := a - a % 4096
      let answered (k : Chip) : Prop := exec .se4k s = .next { s with
        regs := { inFlight 0x00002520 s.regs with
          sr := { s.regs.sr with
            busy := true, tef := s.regs.sr.tef || decide (8388608 ≤ s.regs.ar.toNat) } }
        chip := k
        trace := s.trace ++ [se4kTxn (s.regs.ar &&& 0x00FFFFFF) (crSshift s.regs.cr)] }
      let covered := ∃ r ∈ s.chip.prot, ∃ x, r.base ≤ x ∧ x < r.base + r.n ∧ b ≤ x ∧ x < b + 4096
      (covered → ∃ t, exec .se4k s = .refused (.protection t) ∧ StopRecord s t) ∧
      (¬ covered → sr1Wel s.chip.sr1 = false → answered { s.chip with vwe := false }) ∧
      (¬ covered → sr1Wel s.chip.sr1 = true → 8388608 ≤ a →
        ∃ t, exec .se4k s = .refused (.range t) ∧ StopRecord s t) ∧
      (¬ covered → sr1Wel s.chip.sr1 = true → a < 8388608 → answered
        { s.chip with pending := .erase b 4096, sr1 := s.chip.sr1 ||| 0x01, vwe := false })) ∧
    (let answered (k : Chip) : Prop := exec .ce s = .next { s with
        regs := inFlight 0x000001C7 s.regs
        chip := k
        trace := s.trace ++ [bareTxn 0xC7 (crSshift s.regs.cr)] }
      let covered := ∃ r ∈ s.chip.prot, ∃ x, r.base ≤ x ∧ x < r.base + r.n ∧ x < 8388608
      (covered → ∃ t, exec .ce s = .refused (.protection t) ∧ StopRecord s t) ∧
      (¬ covered → sr1Wel s.chip.sr1 = false → answered { s.chip with vwe := false }) ∧
      (¬ covered → sr1Wel s.chip.sr1 = true → answered
        { s.chip with pending := .erase 0 8388608, sr1 := s.chip.sr1 ||| 0x01, vwe := false }))

/-- `MMREAD` with no CPU access at the window only writes `CCR` and starts no transaction (41 R215). With
one it reads the window for the CPU: the instruction phase goes out only once, the chip enters
continuous-read mode, and no array byte changes (41 R217, R306). An access past `CAPACITY` is F_MM_RANGE
(20 R99). The model's choices: that the access stands in the state beside a placed descriptor, with no
check of its alignment (log 25), and that a continuation read (CRM = 1) clears VWE as any other command
does (43 R295, R309; DEDUCED, log 20). -/
def Obligations.MemoryMappedReadCommand : Prop :=
  (∀ s : State, s.window = none → s.regs.sr.busy = false →
    exec .mmread s = .next { s with regs := { s.regs with ccr := 0x1F10EDEB, siooSent := false } }) ∧
  (∀ (s : State) (acc : WindowAccess), s.window = some acc → WindowReady s → WindowChip s →
    crSshift s.regs.cr = false →
    acc.width = 1 ∨ acc.width = 2 ∨ acc.width = 4 →
    acc.offset.toNat + acc.width ≤ Config.capacity →
    let bytes := (List.range acc.width).map (fun i => s.chip.array.read (acc.offset.toNat + i))
    exec .mmread s = .next { s with
      regs := { s.regs with siooSent := true, sr := { s.regs.sr with busy := true } }
      chip := { s.chip with crm := true, vwe := false }
      rx := bytes
      windowTrace := s.windowTrace ++ [mmreadTxn (! s.regs.siooSent) acc.offset bytes false] }) ∧
  (∀ (s : State) (acc : WindowAccess), s.window = some acc → s.regs.sr.busy = false →
    Config.capacity < acc.offset.toNat + acc.width →
    ∃ t, exec .mmread s = .fault (.mmRange t) ∧ t.request = s.current.map .op ∧ t.state.chip = s.chip)

/-- A transaction on a bus that is not brought up, or while another is in flight, faults before it starts,
and nothing changes (10 R52, R53). -/
def Obligations.BusFaultsComeFirst : Prop :=
  ∀ (c : BusCmd) (s : State), c ≠ .mmread →
    (busUp s = false →
      exec c.instr s = .fault (.busDown ⟨s.current.map .op, some s.trace.length, s⟩)) ∧
    (busUp s = true → s.regs.sr.busy = true →
      exec c.instr s = .fault (.periphBusyWrite ⟨s.current.map .op, some s.trace.length, s⟩))

/-- The chip's checks on an indirect command, in R295's order: continuous-read mode, the row's operands,
deep power-down, a pending operation, quad enable. The row's operands are taken to admit status reads of
any length and ID reads of more than two bytes, as R296, R297 and R300 say, against the data length that
step 4 of R295 compares: the model's reading (DEDUCED, log 13). -/
def Obligations.ChipChecksInOrder : Prop :=
  ∀ (c : BusCmd) (s : State), c ≠ .mmread → CanStart c s →
    (s.chip.crm = true → ∃ t, exec c.instr s = .fault (.crm t) ∧ StopRecord s t) ∧
    (s.chip.crm = false → rowOperands c s.regs = false →
      ∃ t, exec c.instr s = .fault (.shape t) ∧ StopRecord s t) ∧
    (s.chip.crm = false → rowOperands c s.regs = true → s.chip.pwr = .deepPd → c ≠ .rdpd →
      ∃ t, exec c.instr s = .next t ∧ t.chip = s.chip ∧
        (c.descriptor.fmode = .indirectRead →
          t.regs.fifo = s.regs.fifo ++ drawBytes s.draws (s.regs.dlr.toNat + 1))) ∧
    (s.chip.crm = false → rowOperands c s.regs = true → s.chip.pwr = .active →
      s.chip.pending ≠ .none → c ≠ .rdsr1 → c ≠ .rdsr2 →
      ∃ t, exec c.instr s = .fault (.chipBusy t) ∧ StopRecord s t) ∧
    (s.chip.crm = false → rowOperands c s.regs = true → s.chip.pwr = .active →
      s.chip.pending = .none → sr2Qe s.chip.sr2 = false → c = .qread ∨ c = .qpp →
      ∃ t, exec c.instr s = .fault (.quadDisabled t) ∧ StopRecord s t)

/-- Any command that the chip takes, other than `VWREN`, leaves VWE clear (R309). That a continuation read
does so too, as a command, is the model's reading (DEDUCED, log 20). -/
def Obligations.NextCommandConsumesVwe : Prop :=
  ∀ (c : BusCmd) (s t : State), c ≠ .vwren → s.chip.pwr = .active ∨ c = .rdpd →
    (c = .mmread → s.window ≠ none) → exec c.instr s = .next t → t.chip.vwe = false

/-- The late-sample erratum: without the toggle bit 7 of the first ID byte is a draw and the other bits
are the chip's; with the toggle every byte of another read, `QREAD`, `RDSR1` or `RDSR2`, is a draw (R177).
The model's readings: that `RDID` stands for `read_ids` (DEDUCED, log 34), and that a status read of more
than one byte is answered and is not F_SHAPE (DEDUCED, log 13). -/
def Obligations.LateSampleToggle : Prop :=
  (∀ s : State, BusIdle s → ChipReady s.chip → crSshift s.regs.cr = false →
    s.regs.dlr = 1 → s.regs.ar = 0 →
    ∃ t b0, exec .rdid s = .next t ∧ t.regs.fifo = [b0, s.chip.devId] ∧
      b0.extractLsb' 0 7 = s.chip.mfrId.extractLsb' 0 7 ∧
      b0.getLsbD 7 = (Config.drawByte s.draws 0).getLsbD 7) ∧
  (∀ s : State, BusIdle s → ChipReady s.chip → crSshift s.regs.cr = true →
    sr2Qe s.chip.sr2 = true → s.regs.ar.toNat + (s.regs.dlr.toNat + 1) ≤ Config.capacity →
    ∃ t, exec .qread s = .next t ∧ t.chip = { s.chip with vwe := false } ∧
      t.regs.fifo = drawBytes s.draws (s.regs.dlr.toNat + 1)) ∧
  (∀ (s : State) (i : Instr), BusIdle s → s.chip.crm = false → s.chip.pwr = .active →
    crSshift s.regs.cr = true → i = .rdsr1 ∨ i = .rdsr2 →
    ∃ t, exec i s = .next t ∧ t.chip = { s.chip with vwe := false } ∧
      t.regs.fifo = drawBytes s.draws (s.regs.dlr.toNat + 1))

/-- CHIP's completion step: the pending program or erase reaches the array and clears WEL; a volatile
status write reaches SR2 and leaves WEL, a non-volatile one clears it and is the value that SR2 has again
after a power-cycle (60 R345); nothing stays pending and BUSY is clear (R307). -/
def Obligations.CompletionStep : Prop :=
  ∀ (s : State) (rest : List Bool), s.schedule = true :: rest → s.chip.pending ≠ .none →
    chipChance s = { s with
      schedule := rest
      chances := s.chances + 1
      chip :=
        match s.chip.pending with
        | .none => s.chip
        | .program a d =>
          { s.chip with
            array := s.chip.array.program a d, pending := .none, sr1 := s.chip.sr1 &&& 0xFC }
        | .erase a n =>
          { s.chip with
            array := s.chip.array.erase a n, pending := .none, sr1 := s.chip.sr1 &&& 0xFC }
        | .wrsr2 v true =>
          { s.chip with sr2 := v, pending := .none, sr1 := s.chip.sr1 &&& 0xFE }
        | .wrsr2 v false =>
          { s.chip with sr2 := v, nvSr2 := v, pending := .none, sr1 := s.chip.sr1 &&& 0xFC } }

/-! ### The pollers (40_encoder_and_pollers.md sections 2 and 3) -/

/-- A chip that never completes: the poll goes on for as many steps as the schedule stays false, each step
one `RDSR1` that shows BUSY = 1, and neither a fault nor a return comes (R184, 60 R330). -/
def Obligations.StuckChipPollsForever : Prop :=
  ∀ (s : State) (w : PollCont) (n : Nat) (rest : List Bool),
    s.seq = .polling w → BusIdle s → Configured s → s.chip.crm = false → s.chip.pwr = .active →
    s.chip.pending ≠ .none → sr1Busy s.chip.sr1 = true →
    s.schedule = List.replicate n false ++ rest →
    ∃ t, Host.Core.run Sys2Proof.core n s = .next t ∧ t.seq = .polling w ∧
      t.trace = s.trace ++ List.replicate n (statusTxn 0x05 [s.chip.sr1] false) ∧
      t.chip.pending = s.chip.pending ∧ t.chip.array = s.chip.array ∧ t.results = s.results ∧
      t.life = s.life ∧ t.schedule = rest

/-- A chip that completes at its `k`-th opportunity of the poll: `k` reads show BUSY = 1, the next shows
BUSY = 0 and the operation returns, with the completion's effect in the chip (R183, R186). `init` on such a
chip polls in BUS_READY and then ends in INDIRECT (41 R212); `program_page` polls after each chunk and then
goes on to the next or returns (42 R245). Under `ChipCompletes` every poll ends and its operation returns
(60 R331). -/
def Obligations.PollEndsAtTheFirstIdleRead : Prop :=
  (∀ (s : State) (k : Nat) (rest : List Bool),
    s.seq = .polling .done → BusIdle s → Configured s → s.chip.crm = false → s.chip.pwr = .active →
    s.chip.pending ≠ .none → sr1Busy s.chip.sr1 = true → 1 ≤ k →
    s.schedule = List.replicate (k - 1) false ++ true :: rest →
    ∃ t, Host.Core.run Sys2Proof.core (k + 1) s = .next t ∧ t.seq = .idle ∧ t.current = none ∧
      t.results = s.results ++ [⟨s.current, .unit⟩] ∧
      t.chip = { chipComplete s.chip with vwe := false } ∧
      t.trace = s.trace ++ List.replicate k (statusTxn 0x05 [s.chip.sr1] false) ++
        [statusTxn 0x05 [(chipComplete s.chip).sr1] false] ∧
      t.life = s.life ∧ t.schedule = rest ∧ t.marks = s.marks ∧ t.host = s.host) ∧
  (∀ (s : State) (k : Nat) (rest : List Bool),
    s.seq = .idle → s.life = .busReady → BusIdle s → Configured s → s.chip.crm = false →
    s.chip.pending = .none →
    s.schedule = false :: false :: (List.replicate k false ++ true :: rest) →
    let busy := statusTxn 0x05 [s.chip.sr1 ||| 0x01] false
    ∃ t u, exec .init s = .next t ∧ t.seq = .polling .init ∧ t.life = .busReady ∧
      t.current = some .init ∧ t.regs.sr.busy = false ∧ t.chip.pending = .wrsr2 0x02 true ∧
      t.results = s.results ∧
      t.trace = s.trace ++ [bareTxn 0xAB false, bareTxn 0x50 false, wrsr2Txn 0x02 false, busy] ∧
      Host.Core.run Sys2Proof.core (k + 2) t = .next u ∧ u.seq = .idle ∧ u.life = .indirect ∧
      u.results = s.results ++ [⟨some .init, .unit⟩] ∧
      u.chip = { s.chip with
        pwr := .active, sr1 := s.chip.sr1 &&& 0xFE, sr2 := 0x02, vwe := false } ∧
      u.trace = t.trace ++ List.replicate (k + 1) busy ++
        [statusTxn 0x05 [s.chip.sr1 &&& 0xFE] false]) ∧
  (∀ (a : Word) (data : List Byte) (c : Nat × List Byte) (l : List (Nat × List Byte)) (s : State)
      (k : Nat) (rest : List Bool),
    IndirectReady s → sr2Qe s.chip.sr2 = true → s.chip.prot = [] → a.toNat + data.length ≤ 8388608 →
    pageChunks a.toNat data = c :: l →
    s.schedule = false :: false :: (List.replicate k false ++ true :: rest) →
    let busy := statusTxn 0x05 [s.chip.sr1 ||| 0x03] false
    let idle := statusTxn 0x05 [s.chip.sr1 &&& 0xFC] false
    ∃ t, exec (.programPage a data) s = .next t ∧ t.seq = .polling (.program l) ∧
      t.regs.sr.busy = false ∧ t.chip.pending = .program c.1 c.2 ∧ t.chip.array = s.chip.array ∧
      t.results = s.results ∧
      t.trace = s.trace ++ [bareTxn 0x06 false, qppTxn (BitVec.ofNat 32 c.1) c.2 false, busy] ∧
      (l = [] → ∃ u, Host.Core.run Sys2Proof.core (k + 2) t = .next u ∧ u.seq = .idle ∧
        u.results = s.results ++ [⟨some (.programPage a data), .unit⟩] ∧
        u.chip.array = s.chip.array.program c.1 c.2 ∧
        u.trace = t.trace ++ List.replicate (k + 1) busy ++ [idle]) ∧
      (∀ (c' : Nat × List Byte) (l' : List (Nat × List Byte)) (rest' : List Bool), l = c' :: l' →
        rest = false :: false :: rest' →
        ∃ u, Host.Core.run Sys2Proof.core (k + 2) t = .next u ∧ u.seq = .polling (.program l') ∧
          u.chip.pending = .program c'.1 c'.2 ∧ u.results = s.results ∧
          u.chip.array = s.chip.array.program c.1 c.2 ∧
          u.trace = t.trace ++ List.replicate (k + 1) busy ++
            [idle, bareTxn 0x06 false, qppTxn (BitVec.ofNat 32 c'.1) c'.2 false, busy])) ∧
  (∀ (s : State) (w : PollCont), BlockInv s → ChipCompletes s → s.seq = .polling w →
    ∃ n t, Host.Core.run Sys2Proof.core n s = .next t ∧ t.seq = .idle ∧
      t.results = s.results ++ [⟨s.current, .unit⟩] ∧ t.host = s.host ∧ t.marks = s.marks)

/-- `wait_busy` with nothing pending issues exactly one `RDSR1` and returns nothing; only BUSY is looked
at, whatever the other bits (R185, R187). -/
def Obligations.WaitBusyOnAnIdleChip : Prop :=
  ∀ s : State, IndirectReady s → sr1Busy s.chip.sr1 = false →
    exec .waitBusy s = .next { s with
      regs := { afterTxn 0x05000105 s.regs with dlr := 0 }
      chip := { s.chip with vwe := false }
      rx := [s.chip.sr1]
      trace := s.trace ++ [statusTxn 0x05 [s.chip.sr1] false]
      results := s.results ++ [⟨some .waitBusy, .unit⟩]
      current := none }

/-! ### The lifecycle operations (41_lifecycle.md) -/

/-- `bus_bringup` in UNINIT: an operand wider than its field is refused; otherwise the bus is up, `CR` and
`DCR` hold the operands, and `L` is BUS_READY (R210). -/
def Obligations.BusBringup : Prop :=
  ∀ (p f cs ck : Word) (s : State), s.seq = .idle → s.life = .uninit →
    if p.toNat < 256 ∧ f.toNat < 32 ∧ cs.toNat < 8 ∧ ck.toNat < 2 then
      exec (.busBringup p f cs ck) s = .next { s with
        clkEn := true
        pinsAf := true
        regs := { s.regs with
          dcr := (0 : BitVec 11) ++ (22 : BitVec 5) ++ (0 : BitVec 5) ++ cs.setWidth 3 ++
            (0 : BitVec 7) ++ ck.setWidth 1
          cr := p.setWidth 8 ++ (0 : BitVec 11) ++ f.setWidth 5 ++ (0x01 : BitVec 8) }
        life := .busReady
        results := s.results ++ [⟨some (.busBringup p f cs ck), .unit⟩]
        current := none }
    else
      exec (.busBringup p f cs ck) s =
        .refused (.operand ⟨some (.op (.busBringup p f cs ck)), none, s⟩)

/-- `init` whose status write completes before the first poll: `RDPD`, the delay, `VWREN`, `WRSR2` with
0x02 and one `RDSR1`; the chip is awake with SR2 = 0x02 and `L` is INDIRECT (R212). -/
def Obligations.InitCompletes : Prop :=
  ∀ (s : State) (rest : List Bool), s.seq = .idle → s.life = .busReady → BusIdle s → Configured s →
    s.chip.crm = false → s.chip.pending = .none → s.schedule = true :: rest →
    exec .init s = .next { s with
      life := .indirect
      regs := { afterTxn 0x05000105 s.regs with dlr := 0 }
      chip := { s.chip with pwr := .active, sr1 := s.chip.sr1 &&& 0xFE, sr2 := 0x02, vwe := false }
      rx := [s.chip.sr1 &&& 0xFE]
      trace := s.trace ++ [bareTxn 0xAB false, bareTxn 0x50 false, wrsr2Txn 0x02 false,
        statusTxn 0x05 [s.chip.sr1 &&& 0xFE] false]
      delays := s.delays ++ [s.cfg.tWakeUs]
      schedule := rest
      chances := s.chances + 1
      results := s.results ++ [⟨some .init, .unit⟩]
      current := none }

/-- `init` on a chip left busy by a reset faults at `RDPD` with F_CHIP_BUSY, and in continuous-read mode
with F_CRM (R212, 70 R362, R363). -/
def Obligations.InitFaultsAfterABadLaunch : Prop :=
  ∀ s : State, s.seq = .idle → s.life = .busReady → BusIdle s →
    (s.chip.crm = true →
      ∃ t, exec .init s = .fault (.crm t) ∧ t.request = some (.op .init) ∧ t.txn = some s.trace.length ∧
        t.state.chip = s.chip) ∧
    (s.chip.crm = false → s.chip.pending ≠ .none → s.chip.pwr = .active →
      ∃ t, exec .init s = .fault (.chipBusy t) ∧ t.request = some (.op .init) ∧
        t.txn = some s.trace.length ∧ t.state.chip = s.chip)

/-- When a step of a run takes `L` to INDIRECT, the chip is awake with QE = 1 and idle, VWE is clear, the
toggle is off and no transaction is in flight; no step of `init` changes WEL (R214). -/
def Obligations.AfterInit : Prop :=
  ∀ s t : State, BlockInv s → s.life = .busReady → step s = .next t →
    sr1Wel t.chip.sr1 = sr1Wel s.chip.sr1 ∧
    (t.life = .indirect →
      t.chip.pwr = .active ∧ sr2Qe t.chip.sr2 = true ∧ sr1Busy t.chip.sr1 = false ∧
      t.chip.vwe = false ∧ crSshift t.regs.cr = false ∧ t.regs.sr.busy = false)

/-- `into_memory_mapped`: `ABR` and `CCR` are written, no transaction starts, the chip is unchanged, and
`L` is MEMMAPPED (R215). -/
def Obligations.IntoMemoryMapped : Prop :=
  ∀ s : State, s.seq = .idle → s.life = .indirect →
    (s.regs.sr.busy = false →
      exec .intoMemoryMapped s = .next { s with
        regs := { s.regs with abr := 0x000000A0, ccr := 0x1F10EDEB, siooSent := false }
        life := .memMapped
        results := s.results ++ [⟨some .intoMemoryMapped, .unit⟩]
        current := none }) ∧
    (s.regs.sr.busy = true →
      ∃ t, exec .intoMemoryMapped s = .fault (.periphBusyWrite t) ∧ t.state.regs = s.regs ∧
        t.state.life = .indirect)

/-- `mm_load`: a width that is not 1, 2 or 4 is refused, then a misaligned offset, then an access past the
capacity faults; otherwise byte `i` of the value is the array's byte at `a + i`, and the chip is in
continuous-read mode (R218, 20 R95, R99). That the read's end leaves `SR.TCF` as it was, against 40 R172,
is the model's reading (DEDUCED, log 26), and so is that a continuation read clears VWE (log 20). -/
def Obligations.MmLoad : Prop :=
  ∀ (a w : Word) (s : State), s.seq = .idle → s.life = .memMapped → WindowReady s → WindowChip s →
    crSshift s.regs.cr = false →
    if ¬ (w.toNat = 1 ∨ w.toNat = 2 ∨ w.toNat = 4) then
      exec (.mmLoad a w) s = .refused (.operand ⟨some (.op (.mmLoad a w)), none, s⟩)
    else if a.toNat % w.toNat ≠ 0 then
      exec (.mmLoad a w) s = .refused (.misaligned ⟨some (.op (.mmLoad a w)), none, s⟩)
    else if 8388608 < a.toNat + w.toNat then
      exec (.mmLoad a w) s = .fault (.mmRange ⟨some (.op (.mmLoad a w)), none, s⟩)
    else
      let bytes := (List.range w.toNat).map (fun i => s.chip.array.read (a.toNat + i))
      ∃ v : Word,
        (∀ i, i < 4 → v.extractLsb' (8 * i) 8 =
          if i < w.toNat then s.chip.array.read (a.toNat + i) else 0) ∧
        exec (.mmLoad a w) s = .next { s with
          regs := { s.regs with siooSent := true }
          chip := { s.chip with crm := true, vwe := false }
          rx := bytes
          windowTrace := s.windowTrace ++ [mmreadTxn (! s.regs.siooSent) a bytes false]
          window := none
          results := s.results ++ [⟨some (.mmLoad a w), .word v⟩]
          current := none }

/-- `mm_store` in MEMMAPPED raises F_MM_STORE and changes no state, and elsewhere it is refused with
REF_LIFECYCLE (R219). That a store of a bad width, misaligned or past `CAPACITY` faults the same, against
the order of 60 R324, is the model's reading (DEDUCED, log 16). -/
def Obligations.MmStoreFaults : Prop :=
  ∀ (a w v : Word) (s : State), s.seq = .idle →
    (s.life = .memMapped →
      exec (.mmStore a w v) s = .fault (.mmStore ⟨some (.op (.mmStore a w v)), none, s⟩)) ∧
    (s.life ≠ .memMapped →
      exec (.mmStore a w v) s = .refused (.lifecycle ⟨some (.op (.mmStore a w v)), none, s⟩))

/-! ### The array operations (42_array_operations.md) -/

/-- `read_bytes` returns the `n` bytes of the array from the address on, in order, by one `QREAD`; the
registers hold its descriptor, length and address, and the array is unchanged (R240). -/
def Obligations.ReadBytes : Prop :=
  ∀ (a : Word) (n : Nat) (s : State), IndirectReady s → sr2Qe s.chip.sr2 = true → 1 ≤ n →
    a.toNat + n ≤ 8388608 →
    let bytes := (List.range n).map (fun i => s.chip.array.read (a.toNat + i))
    exec (.readBytes a n) s = .next { s with
      regs := { afterTxn 0x07182DEB s.regs with dlr := BitVec.ofNat 32 (n - 1), ar := a }
      chip := { s.chip with vwe := false }
      rx := bytes
      trace := s.trace ++ [qreadTxn a bytes false]
      results := s.results ++ [⟨some (.readBytes a n), .bytes bytes⟩]
      current := none }

/-- The length and range checks of the operations that take a flash address, in order and without
wrap-around; nothing changes (R240, R241, 60 R324). -/
def Obligations.RangeChecks : Prop :=
  ∀ s : State, s.seq = .idle → s.life = .indirect →
    (∀ a : Word,
      exec (.readBytes a 0) s = .refused (.zeroLength ⟨some (.op (.readBytes a 0)), none, s⟩)) ∧
    (∀ (a : Word) (n : Nat), 1 ≤ n → 8388608 < a.toNat + n →
      exec (.readBytes a n) s = .refused (.range ⟨some (.op (.readBytes a n)), none, s⟩)) ∧
    (∀ (a : Word) (d : List Byte), 8388608 < a.toNat + d.length →
      exec (.programPage a d) s = .refused (.range ⟨some (.op (.programPage a d)), none, s⟩)) ∧
    (∀ a : Word, 8388608 < a.toNat + 1 →
      exec (.blockErase4k a) s = .refused (.range ⟨some (.op (.blockErase4k a)), none, s⟩))

/-- The chunk list of `program_page` covers the data exactly, in contiguous rising chunks of 1 to 256
bytes, none across a page boundary, and has the number of chunks of R246. -/
def Obligations.PageChunksCoverTheData : Prop :=
  ∀ (a : Nat) (data : List Byte),
    let cs := pageChunks a data
    cs.flatMap (fun c => c.2) = data ∧
    (∀ c, cs.head? = some c → c.1 = a) ∧
    (∀ (i : Nat) (c d : Nat × List Byte), cs[i]? = some c → cs[i + 1]? = some d →
      d.1 = c.1 + c.2.length) ∧
    (∀ c ∈ cs, 1 ≤ c.2.length ∧ c.2.length ≤ 256 ∧
      c.1 / 256 = (c.1 + c.2.length - 1) / 256 ∧ a ≤ c.1 ∧
      c.2 = (data.drop (c.1 - a)).take c.2.length) ∧
    cs.length = if data = [] then 0 else (a + data.length - 1) / 256 - a / 256 + 1

/-- `program_page` whose chunks each complete before their poll: for each chunk a `WREN`, a `QPP` and one
`RDSR1`; each byte of the range is ANDed with the data, and no other byte of the array, no other register
and no other state of the chip changes (R245, R247, R249). -/
def Obligations.ProgramPageCompletes : Prop :=
  ∀ (a : Word) (data : List Byte) (s : State) (rest : List Bool), IndirectReady s →
    sr2Qe s.chip.sr2 = true → s.chip.prot = [] → s.chip.array.wf = true →
    a.toNat + data.length ≤ 8388608 →
    s.schedule = List.replicate (pageChunks a.toNat data).length true ++ rest →
    ∃ t, exec (.programPage a data) s = .next t ∧
      (∀ x, t.chip.array.read x =
        if a.toNat ≤ x ∧ x < a.toNat + data.length then
          s.chip.array.read x &&& data.getD (x - a.toNat) 0
        else s.chip.array.read x) ∧
      t.trace = s.trace ++ chunkTrace (s.chip.sr1 &&& 0xFC) (pageChunks a.toNat data) ∧
      (data ≠ [] →
        t.chip.sr1 = s.chip.sr1 &&& 0xFC ∧ t.chip.vwe = false ∧ t.regs.ccr = 0x05000105 ∧
        t.regs.dlr = 0 ∧ t.regs.sr.tcf = false) ∧
      (data = [] → t.chip = s.chip ∧ t.regs = s.regs) ∧
      t = { s with
        chip := { s.chip with array := t.chip.array, sr1 := t.chip.sr1, vwe := t.chip.vwe }
        regs := { s.regs with
          ccr := t.regs.ccr, dlr := t.regs.dlr, ar := t.regs.ar, siooSent := t.regs.siooSent
          sr := { s.regs.sr with tcf := t.regs.sr.tcf } }
        rx := t.rx
        trace := t.trace
        schedule := rest
        chances := t.chances
        results := s.results ++ [⟨some (.programPage a data), .unit⟩]
        current := none }

/-- `block_erase_4k` whose erase completes before its poll: the write-enable (when ERASE_WREN), `SE4K` and
one `RDSR1`; the aligned block of 4096 bytes reads 0xFF and every other byte as before (R250, R251). -/
def Obligations.BlockErase4kCompletes : Prop :=
  ∀ (a : Word) (s : State) (rest : List Bool), IndirectReady s → s.chip.prot = [] →
    s.cfg.eraseWren = true ∨ sr1Wel s.chip.sr1 = true → a.toNat < 8388608 →
    s.schedule = true :: rest →
    ∃ m : Memory,
      (∀ x, m.read x =
        if a.toNat - a.toNat % 4096 ≤ x ∧ x ≤ a.toNat - a.toNat % 4096 + 4095 then 0xFF
        else s.chip.array.read x) ∧
      exec (.blockErase4k a) s = .next { s with
        regs := { afterTxn 0x05000105 s.regs with dlr := 0, ar := a }
        chip := { s.chip with array := m, sr1 := s.chip.sr1 &&& 0xFC, vwe := false }
        rx := [s.chip.sr1 &&& 0xFC]
        trace := s.trace ++ eraseWrenTrace s.cfg ++
          [se4kTxn a false, statusTxn 0x05 [s.chip.sr1 &&& 0xFC] false]
        schedule := rest
        chances := s.chances + 1
        results := s.results ++ [⟨some (.blockErase4k a), .unit⟩]
        current := none }

/-- `chip_erase` whose erase completes before its poll: the write-enable (when ERASE_WREN), `CE` and one
`RDSR1`; every byte of the array below the capacity reads 0xFF (R253). -/
def Obligations.ChipEraseCompletes : Prop :=
  ∀ (s : State) (rest : List Bool), IndirectReady s → s.chip.prot = [] →
    s.cfg.eraseWren = true ∨ sr1Wel s.chip.sr1 = true → s.schedule = true :: rest →
    ∃ m : Memory,
      (∀ x, x < 8388608 → m.read x = 0xFF) ∧ (∀ x, 8388608 ≤ x → m.read x = s.chip.array.read x) ∧
      exec .chipErase s = .next { s with
        regs := { afterTxn 0x05000105 s.regs with dlr := 0 }
        chip := { s.chip with array := m, sr1 := s.chip.sr1 &&& 0xFC, vwe := false }
        rx := [s.chip.sr1 &&& 0xFC]
        trace := s.trace ++ eraseWrenTrace s.cfg ++
          [bareTxn 0xC7 false, statusTxn 0x05 [s.chip.sr1 &&& 0xFC] false]
        schedule := rest
        chances := s.chances + 1
        results := s.results ++ [⟨some .chipErase, .unit⟩]
        current := none }

/-- The two busy signals of an erase: the transaction has ended at the peripheral while the chip is still
busy, and SEQ polls (R252, 10 R72, 40 R182). -/
def Obligations.ErasePollsWhileTheChipIsBusy : Prop :=
  ∀ (s : State) (rest : List Bool), IndirectReady s → s.chip.prot = [] → s.cfg.eraseWren = true →
    s.schedule = false :: false :: rest →
    (∀ a : Word, a.toNat < 8388608 →
      ∃ t, exec (.blockErase4k a) s = .next t ∧ t.seq = .polling .done ∧ t.regs.sr.busy = false ∧
        sr1Busy t.chip.sr1 = true ∧ t.chip.array = s.chip.array ∧
        t.chip.pending = .erase (a.toNat - a.toNat % 4096) 4096 ∧ t.results = s.results ∧
        t.trace = s.trace ++ [bareTxn 0x06 false, se4kTxn a false,
          statusTxn 0x05 [s.chip.sr1 ||| 0x03] false]) ∧
    ∃ t, exec .chipErase s = .next t ∧ t.seq = .polling .done ∧ t.regs.sr.busy = false ∧
      sr1Busy t.chip.sr1 = true ∧ t.chip.array = s.chip.array ∧
      t.chip.pending = .erase 0 8388608 ∧ t.results = s.results ∧
      t.trace = s.trace ++ [bareTxn 0x06 false, bareTxn 0xC7 false,
        statusTxn 0x05 [s.chip.sr1 ||| 0x03] false]

/-- With ERASE_WREN = false and WEL = 0 the chip ignores the erase command: the poll returns at the first
`RDSR1` and no byte of the array changes (R255, 70 R371). -/
def Obligations.EraseWithoutWriteEnableDoesNothing : Prop :=
  ∀ s : State, IndirectReady s → s.chip.prot = [] → s.cfg.eraseWren = false →
    sr1Wel s.chip.sr1 = false → sr1Busy s.chip.sr1 = false →
    (∀ a : Word, a.toNat < 8388608 →
      exec (.blockErase4k a) s = .next { s with
        regs := { afterTxn 0x05000105 s.regs with dlr := 0, ar := a }
        chip := { s.chip with vwe := false }
        rx := [s.chip.sr1]
        trace := s.trace ++ [se4kTxn a false, statusTxn 0x05 [s.chip.sr1] false]
        results := s.results ++ [⟨some (.blockErase4k a), .unit⟩]
        current := none }) ∧
    exec .chipErase s = .next { s with
      regs := { afterTxn 0x05000105 s.regs with dlr := 0 }
      chip := { s.chip with vwe := false }
      rx := [s.chip.sr1]
      trace := s.trace ++ [bareTxn 0xC7 false, statusTxn 0x05 [s.chip.sr1] false]
      results := s.results ++ [⟨some .chipErase, .unit⟩]
      current := none }

/-- What is programmed reads back ANDed with what the range held, and exactly as the data when the range
was erased: a completed `program_page` and then `read_bytes` of the same range (20 R111). -/
def Obligations.ProgramThenReadBack : Prop :=
  ∀ (a : Word) (data : List Byte) (s : State) (rest : List Bool), IndirectReady s →
    sr2Qe s.chip.sr2 = true → s.chip.prot = [] → s.chip.array.wf = true → data ≠ [] →
    a.toNat + data.length ≤ 8388608 →
    s.schedule = List.replicate (pageChunks a.toNat data).length true ++ rest →
    ∃ t u got, exec (.programPage a data) s = .next t ∧
      exec (.readBytes a data.length) t = .next u ∧
      u.results = t.results ++ [⟨some (.readBytes a data.length), .bytes got⟩] ∧
      got = (List.range data.length).map
        (fun i => s.chip.array.read (a.toNat + i) &&& data.getD i 0) ∧
      ((∀ i, i < data.length → s.chip.array.read (a.toNat + i) = 0xFF) → got = data)

/-- A completed `block_erase_4k` and then `read_bytes` of any range inside the erased block returns 0xFF
bytes; after a completed `chip_erase` any range does (20 R112). -/
def Obligations.EraseThenReadAllOnes : Prop :=
  ∀ (b : Word) (n : Nat) (s : State) (rest : List Bool), IndirectReady s →
    sr2Qe s.chip.sr2 = true → s.chip.prot = [] → s.cfg.eraseWren = true → 1 ≤ n →
    s.schedule = true :: rest →
    (∀ a : Word, a.toNat < 8388608 → a.toNat / 4096 = b.toNat / 4096 →
      a.toNat / 4096 = (b.toNat + n - 1) / 4096 →
      ∃ t u, exec (.blockErase4k a) s = .next t ∧ exec (.readBytes b n) t = .next u ∧
        u.results = t.results ++ [⟨some (.readBytes b n), .bytes (List.replicate n 0xFF)⟩]) ∧
    (b.toNat + n ≤ 8388608 →
      ∃ t u, exec .chipErase s = .next t ∧ exec (.readBytes b n) t = .next u ∧
        u.results = t.results ++ [⟨some (.readBytes b n), .bytes (List.replicate n 0xFF)⟩])

/-! ### The register operations (43_register_operations.md section 1) -/

/-- `read_ids` returns the manufacturer and device bytes by one `RDID` with the late-sample toggle on, and
turns the toggle off again; the chip is unchanged but for VWE (R280, 10 R46). -/
def Obligations.ReadIds : Prop :=
  ∀ s : State, IndirectReady s →
    exec .readIds s = .next { s with
      regs := { afterTxn 0x05002590 s.regs with dlr := 1, ar := 0 }
      chip := { s.chip with vwe := false }
      rx := [s.chip.mfrId, s.chip.devId]
      trace := s.trace ++ [rdidTxn [s.chip.mfrId, s.chip.devId] true]
      results := s.results ++ [⟨some .readIds, .bytes [s.chip.mfrId, s.chip.devId]⟩]
      current := none }

/-- `read_status_register1` and `read_status_register2` return the register's byte, bit for bit, by one
transaction of one byte (R282, R284, 20 R97). -/
def Obligations.StatusRegisterReads : Prop :=
  ∀ s : State, IndirectReady s →
    exec .readStatusRegister1 s = .next { s with
      regs := { afterTxn 0x05000105 s.regs with dlr := 0 }
      chip := { s.chip with vwe := false }
      rx := [s.chip.sr1]
      trace := s.trace ++ [statusTxn 0x05 [s.chip.sr1] false]
      results := s.results ++ [⟨some .readStatusRegister1, .bytes [s.chip.sr1]⟩]
      current := none } ∧
    exec .readStatusRegister2 s = .next { s with
      regs := { afterTxn 0x05000135 s.regs with dlr := 0 }
      chip := { s.chip with vwe := false }
      rx := [s.chip.sr2]
      trace := s.trace ++ [statusTxn 0x35 [s.chip.sr2] false]
      results := s.results ++ [⟨some .readStatusRegister2, .bytes [s.chip.sr2]⟩]
      current := none }

/-- `write_enable` sets WEL by one `WREN`, and `write_disable` does exactly the same: it does not clear
WEL (R286, R288, 70 R372). -/
def Obligations.WriteEnableAndDisable : Prop :=
  ∀ s : State, IndirectReady s →
    let after (i : Instr) : State := { s with
      regs := afterTxn 0x00000106 s.regs
      chip := { s.chip with sr1 := s.chip.sr1 ||| 0x02, vwe := false }
      rx := []
      trace := s.trace ++ [bareTxn 0x06 false]
      results := s.results ++ [⟨some i, .unit⟩]
      current := none }
    exec .writeEnable s = .next (after .writeEnable) ∧
    exec .writeDisable s = .next (after .writeDisable) ∧
    ∀ i, sr1Wel (after i).chip.sr1 = true

/-! ### Refusals and their order (10_state.md rules R32, R33, 60_exceptions.md) -/

/-- An operation issued in a lifecycle state that the table of R32 marks "refuse" is refused with
REF_LIFECYCLE, and no state changes; in the state that admits it, that refusal does not come. -/
def Obligations.LifecycleAdmission : Prop :=
  ∀ s : State, s.seq = .idle →
    let refused (i : Instr) : Prop := exec i s = .refused (.lifecycle ⟨some (.op i), none, s⟩)
    let admits (i : Instr) : Prop := ∀ t, exec i s ≠ .refused (.lifecycle t)
    (∀ p f cs ck, if s.life = .uninit then admits (.busBringup p f cs ck)
      else refused (.busBringup p f cs ck)) ∧
    (if s.life = .busReady then admits .init else refused .init) ∧
    (∀ i : Instr,
      i ∈ [Instr.intoMemoryMapped, .chipErase, .readIds, .readStatusRegister1, .readStatusRegister2,
        .writeEnable, .writeDisable, .waitBusy] →
      if s.life = .indirect then admits i else refused i) ∧
    (∀ a n, if s.life = .indirect then admits (.readBytes a n) else refused (.readBytes a n)) ∧
    (∀ a d, if s.life = .indirect then admits (.programPage a d) else refused (.programPage a d)) ∧
    (∀ a, if s.life = .indirect then admits (.blockErase4k a) else refused (.blockErase4k a)) ∧
    (∀ a w, if s.life = .memMapped then admits (.mmLoad a w) else refused (.mmLoad a w)) ∧
    (∀ a w v, if s.life = .memMapped then admits (.mmStore a w v) else refused (.mmStore a w v))

/-! ### The invariants -/

/-- Every step, from any state, keeps the array in canonical form, BUSY showing exactly a pending
operation, the reserved bits of `CR` and `DCR` 0 and the unused registers 0 (10 R41, R42, R51, R67). -/
def Obligations.CoreInvariantIsKept : Prop :=
  ∀ s t : State, CoreInv s → step s = .next t → CoreInv t

/-- Every step of a run of the block keeps the agreement of registers, sequencer and chip with the
lifecycle (40 R181, R188, 41 R214, 60 R340). -/
def Obligations.BlockInvariantIsKept : Prop :=
  ∀ s t : State, BlockInv s → step s = .next t → BlockInv t

/-- The core invariant holds at State.reset and at every launch whose array is in canonical form; under the
launch premises the block invariant holds too, and the launch has the reset values of the block (10 R80,
70 R364). -/
def Obligations.InvariantsAtLaunch : Prop :=
  BlockInv State.reset ∧ LaunchUninit State.reset ∧
  ∀ d : Launch, d.array.wf = true →
    CoreInv (.launch d) ∧ LaunchUninit (.launch d) ∧ NoContinuousRead (.launch d) ∧
    ChipIdle (.launch d) ∧ (d.prot = [] → NoProtection (.launch d) ∧ BlockInv (.launch d))

/-- In a run of the block a step never ends in a fault but the two that HOST brings about, F_MM_RANGE and
F_MM_STORE (60 R321, last column). It never stops in a refusal either: that a refused request leaves its
mark and the run goes on, where 00 R10 ends it, is the model's reading (DEDUCED, log 4). -/
def Obligations.OnlyHostBringsAboutFaults : Prop :=
  ∀ s : State, BlockInv s →
    (∃ t, step s = .next t) ∨ ∃ f, step s = .fault f ∧ hostFault f = true ∧ s.life = .memMapped

/-- When an operation of a run returns, no transaction is in flight and nothing is pending at the chip: it
returns only after every wait has seen its flag clear (10 R37, 60 R333). -/
def Obligations.OperationsReturnQuiet : Prop :=
  ∀ s t : State, BlockInv s → step s = .next t → t.results ≠ s.results →
    t.seq = .idle ∧ t.current = none ∧ t.regs.sr.busy = false ∧ t.chip.pending = .none ∧
    sr1Busy t.chip.sr1 = false ∧ t.results.length = s.results.length + 1

/-- In a run the lifecycle changes only along the three edges of R31, each by its own operation:
`bus_bringup`, `init` (in the step of its request or of its poll) and `into_memory_mapped`; no edge leads
back, and a reset of either kind takes it to UNINIT from any state. -/
def Obligations.LifecycleEdges : Prop :=
  (∀ s t : State, BlockInv s → step s = .next t → t.life ≠ s.life →
    (s.life = .uninit ∧ t.life = .busReady ∧
      ∃ p f cs ck, t.results = s.results ++ [⟨some (.busBringup p f cs ck), .unit⟩]) ∨
    (s.life = .busReady ∧ t.life = .indirect ∧ (s.seq = .polling .init ∨ s.seq = .idle) ∧
      t.results = s.results ++ [⟨some .init, .unit⟩]) ∨
    (s.life = .indirect ∧ t.life = .memMapped ∧
      t.results = s.results ++ [⟨some .intoMemoryMapped, .unit⟩])) ∧
  ∀ (d : ResetDraws) (s : State),
    (systemReset d s).life = .uninit ∧ (powerCycle d s).life = .uninit

/-- No step leads out of MEMMAPPED (41 R216), and there nothing is written: the array never changes, which
is the array's half of 20 R113. What a window load returns is said by `MmLoad` (O34). -/
def Obligations.MemMappedIsFinalAndReadOnly : Prop :=
  ∀ s t : State, BlockInv s → s.life = .memMapped → step s = .next t →
    t.life = .memMapped ∧ t.seq = .idle ∧ t.trace = s.trace ∧ t.regs.ccr = s.regs.ccr ∧
    t.chip = { s.chip with crm := t.chip.crm, vwe := t.chip.vwe }

/-- WEL goes from 0 to 1 only in a step that sends a `WREN` (10 R71). -/
def Obligations.OnlyWrenSetsWel : Prop :=
  ∀ s t : State, step s = .next t → sr1Wel s.chip.sr1 = false → sr1Wel t.chip.sr1 = true →
    ∃ (r : BusTxn) (sshift : Bool), r ∈ t.trace.drop s.trace.length ∧ r = bareTxn 0x06 sshift

/-! ### Registers and resets -/

/-- Writing 1 to a bit of `FCR` clears the matching flag of `SR`, writing 0 has no effect, and `FCR` reads
as 0; no other register changes (R44). A read of `SR` gives each flag at its bit, the FIFO's level in bits
13:8 and 0 in the others (R43); that `FTF` compares the level with `FTHRES`, and that the level stops at
32, is presumed (log 21). -/
def Obligations.FlagClear : Prop :=
  (∀ (v : Word) (s : State),
    (writeFcr v s).regs = { s.regs with
      sr := { s.regs.sr with
        tef := s.regs.sr.tef && ! v.getLsbD 0
        tcf := s.regs.sr.tcf && ! v.getLsbD 1
        smf := s.regs.sr.smf && ! v.getLsbD 3
        tof := s.regs.sr.tof && ! v.getLsbD 4 } } ∧
    (writeFcr v s).chip = s.chip ∧ regValue s.regs .fcr = 0) ∧
  ∀ r : Regs,
    let v := regValue r .sr
    v.getLsbD 0 = r.sr.tef ∧ v.getLsbD 1 = r.sr.tcf ∧
    v.getLsbD 2 = decide ((crFthres r.cr).toNat < min r.fifo.length 32) ∧
    v.getLsbD 3 = r.sr.smf ∧ v.getLsbD 4 = r.sr.tof ∧ v.getLsbD 5 = r.sr.busy ∧
    v.extractLsb' 6 2 = 0 ∧ (v.extractLsb' 8 6).toNat = min r.fifo.length 32 ∧
    v.extractLsb' 14 18 = 0

/-- A reset of either kind takes the block to the values of R80: UNINIT, the bus down, every register 0,
the FIFO empty, SEQ idle. A system reset keeps the chip's pending operation, BUSY, WEL, SR2 and
continuous-read mode; a power-cycle clears them, SR2 having its non-volatile value again, unless it falls
inside a non-volatile write of it. An idle chip's array is unchanged by both (R80, 70 R360, 60 R345). That
SR1[7:2] and the protection stay is the model's reading of their non-volatile values (DEDUCED, log 23), and
so is that a power-cycle inside a non-volatile write of SR2 leaves SR2 and its non-volatile value as one
draw (DEDUCED, log 24). -/
def Obligations.ResetsOfTheBlockAndTheChip : Prop :=
  ∀ (d : ResetDraws) (s : State),
    LaunchUninit (systemReset d s) ∧ LaunchUninit (powerCycle d s) ∧
    (systemReset d s).chip.pending = s.chip.pending ∧ (systemReset d s).chip.crm = s.chip.crm ∧
    (systemReset d s).chip.sr2 = s.chip.sr2 ∧ (systemReset d s).chip.nvSr2 = s.chip.nvSr2 ∧
    sr1Busy (systemReset d s).chip.sr1 = sr1Busy s.chip.sr1 ∧
    sr1Wel (systemReset d s).chip.sr1 = sr1Wel s.chip.sr1 ∧
    (powerCycle d s).chip.pending = .none ∧ (powerCycle d s).chip.crm = false ∧
    sr1Busy (powerCycle d s).chip.sr1 = false ∧ sr1Wel (powerCycle d s).chip.sr1 = false ∧
    ((∀ v, s.chip.pending ≠ .wrsr2 v false) →
      (powerCycle d s).chip.sr2 = s.chip.nvSr2 ∧ (powerCycle d s).chip.nvSr2 = s.chip.nvSr2) ∧
    (∀ v, s.chip.pending = .wrsr2 v false →
      (powerCycle d s).chip.sr2 = d.sr2 ∧ (powerCycle d s).chip.nvSr2 = d.sr2) ∧
    (∀ t ∈ [systemReset d s, powerCycle d s],
      t.chip.vwe = false ∧ t.chip.pwr = d.pwr ∧ t.chip.prot = s.chip.prot ∧
      t.chip.sr1.extractLsb' 2 6 = s.chip.sr1.extractLsb' 2 6 ∧
      t.chip.mfrId = s.chip.mfrId ∧ t.chip.devId = s.chip.devId ∧
      (s.chip.pending = .none → t.chip.array = s.chip.array))

/-- A system reset or a power-cycle inside a program or an erase leaves the bytes of that page or block as
a draw and every other byte of the array unchanged (20 R101; the page as a whole is the model's reading,
log 24). -/
def Obligations.ResetInsideAProgramOrErase : Prop :=
  ∀ (d : ResetDraws) (s : State), s.chip.array.wf = true → pendingInRange s.chip.pending = true →
    ∀ t ∈ [systemReset d s, powerCycle d s],
      (∀ (a : Nat) (data : List Byte) (x : Nat), s.chip.pending = .program a data → a < 8388608 →
        t.chip.array.read x =
          if a / 256 = x / 256 then d.interrupted x else s.chip.array.read x) ∧
      (∀ a n x : Nat, s.chip.pending = .erase a n → a + n ≤ 8388608 →
        t.chip.array.read x = if a ≤ x ∧ x < a + n then d.interrupted x else s.chip.array.read x)
end

