-- ==== Sys2Proof/Laws/Memory.lean ====
section
/-! SUPPORT. The flash array: what each operation reads as, and that each keeps the canonical form. -/

namespace Sys2Proof.Machine

@[simp] theorem Memory.read_nil (a : Nat) : Memory.read [] a = Config.erased := rfl

@[simp] theorem Memory.read_cons (b : Nat) (v : Byte) (m : Memory) (a : Nat) :
    Memory.read ((b, v) :: m) a = if a = b then v else Memory.read m a := rfl

theorem Memory.wfFrom_cons (lo a : Nat) (v : Byte) (m : Memory) :
    Memory.wfFrom lo ((a, v) :: m) = true ↔
      lo ≤ a ∧ a < Config.capacity ∧ v ≠ Config.erased ∧ Memory.wfFrom (a + 1) m = true := by
  simp [Memory.wfFrom, and_assoc]

theorem Memory.wfFrom_mono {lo lo' : Nat} (h : lo ≤ lo') :
    ∀ m : Memory, Memory.wfFrom lo' m = true → Memory.wfFrom lo m = true
  | [], _ => rfl
  | (a, v) :: m, hm => by
    rw [Memory.wfFrom_cons] at hm ⊢
    exact ⟨h.trans hm.1, hm.2⟩

/-- Below its first address an array in canonical form is erased. -/
theorem Memory.read_below :
    ∀ (m : Memory) (lo a : Nat), Memory.wfFrom lo m = true → a < lo → m.read a = Config.erased
  | [], _, _, _, _ => rfl
  | (b, v) :: m, lo, a, hm, ha => by
    rw [Memory.wfFrom_cons] at hm
    have hne : a ≠ b := by omega
    simp only [Memory.read_cons, if_neg hne]
    exact Memory.read_below m (b + 1) a hm.2.2.2 (by omega)

theorem Memory.wfFrom_set :
    ∀ (m : Memory) (lo a : Nat) (v : Byte), Memory.wfFrom lo m = true → lo ≤ a →
      a < Config.capacity → Memory.wfFrom lo (m.set a v) = true
  | [], lo, a, v, _, hlo, ha => by
    unfold Memory.set
    split
    · rfl
    · exact (Memory.wfFrom_cons ..).2 ⟨hlo, ha, ‹_›, rfl⟩
  | (b, w) :: m, lo, a, v, hm, hlo, ha => by
    have hb := (Memory.wfFrom_cons ..).1 hm
    unfold Memory.set
    split
    · split
      · exact hm
      · exact (Memory.wfFrom_cons ..).2
          ⟨hlo, ha, ‹_›, (Memory.wfFrom_cons ..).2 ⟨by omega, hb.2⟩⟩
    · split
      · split
        · exact Memory.wfFrom_mono (by omega) m hb.2.2.2
        · subst_vars
          exact (Memory.wfFrom_cons ..).2 ⟨hlo, ha, ‹_›, hb.2.2.2⟩
      · exact (Memory.wfFrom_cons ..).2
          ⟨hb.1, hb.2.1, hb.2.2.1, Memory.wfFrom_set m (b + 1) a v hb.2.2.2 (by omega) ha⟩

/-- Writing a byte of the array keeps the canonical form. -/
theorem Memory.wf_set {m : Memory} {a : Nat} (v : Byte) (hm : m.wf = true)
    (ha : a < Config.capacity) : (m.set a v).wf = true :=
  Memory.wfFrom_set m 0 a v hm (Nat.zero_le _) ha

theorem Memory.wfFrom_read_set :
    ∀ (m : Memory) (lo a : Nat) (v : Byte) (x : Nat), Memory.wfFrom lo m = true →
      (m.set a v).read x = if x = a then v else m.read x
  | [], _, a, v, x, _ => by
    unfold Memory.set
    split <;> simp_all
  | (b, w) :: m, lo, a, v, x, hm => by
    have hb := (Memory.wfFrom_cons ..).1 hm
    have ih := Memory.wfFrom_read_set m (b + 1) a v x hb.2.2.2
    have below := Memory.read_below m (b + 1)
    unfold Memory.set
    split
    · split
      · by_cases hx : x = a
        · subst hx
          have hne : x ≠ b := by omega
          simp [below x hb.2.2.2 (by omega), *]
        · simp [hx]
      · simp
    · split
      · subst_vars
        split
        · by_cases hx : x = a
          · subst hx
            simp [below x hb.2.2.2 (by omega), *]
          · simp [hx]
        · by_cases hx : x = a <;> simp [hx]
      · simp only [Memory.read_cons, ih]
        by_cases hx : x = b
        · subst hx
          have hne : x ≠ a := fun h => by omega
          simp [hne]
        · simp [hx]

/-- A read after a write: the byte written, and every other byte as before. -/
theorem Memory.read_set {m : Memory} (hm : m.wf = true) (a : Nat) (v : Byte) (x : Nat) :
    (m.set a v).read x = if x = a then v else m.read x :=
  Memory.wfFrom_read_set m 0 a v x hm

/-- Programming inside the array keeps the canonical form. -/
theorem Memory.wf_program :
    ∀ (bytes : List Byte) {m : Memory} {a : Nat}, m.wf = true →
      a + bytes.length ≤ Config.capacity → (m.program a bytes).wf = true
  | [], _, _, hm, _ => hm
  | b :: bs, m, a, hm, ha => by
    simp only [List.length_cons] at ha
    exact Memory.wf_program bs (Memory.wf_set _ hm (by omega)) (by omega)

/-- Programming ANDs each byte into the array and leaves every other byte (42 R249). -/
theorem Memory.read_program :
    ∀ (bytes : List Byte) {m : Memory} {a : Nat} (x : Nat), m.wf = true →
      a + bytes.length ≤ Config.capacity →
      (m.program a bytes).read x =
        if a ≤ x ∧ x < a + bytes.length then m.read x &&& bytes.getD (x - a) Config.erased
        else m.read x
  | [], m, a, x, _, _ => by
    have : ¬ (a ≤ x ∧ x < a + ([] : List Byte).length) := by simp
    rw [if_neg this]; rfl
  | b :: bs, m, a, x, hm, ha => by
    simp only [List.length_cons] at ha
    have hset := Memory.wf_set (a := a) (m.read a &&& b) hm (by omega)
    have ih := Memory.read_program bs x hset (a := a + 1) (by omega)
    have hr := Memory.read_set hm a (m.read a &&& b) x
    show ((m.set a (m.read a &&& b)).program (a + 1) bs).read x = _
    rw [ih, hr]
    simp only [List.length_cons]
    by_cases hx : x = a
    · subst hx
      have h1 : ¬ (x + 1 ≤ x ∧ x < x + 1 + bs.length) := by omega
      have h2 : x ≤ x ∧ x < x + (bs.length + 1) := by omega
      simp
    · by_cases hin : a + 1 ≤ x ∧ x < a + 1 + bs.length
      · have h2 : a ≤ x ∧ x < a + (bs.length + 1) := by omega
        obtain ⟨k, hk⟩ : ∃ k, x - a = k + 1 := ⟨x - a - 1, by omega⟩
        have hk' : x - (a + 1) = k := by omega
        simp only [if_pos hin, if_pos h2, if_neg hx, hk, hk', List.getD_cons_succ]
      · have h2 : ¬ (a ≤ x ∧ x < a + (bs.length + 1)) := by omega
        simp only [if_neg hin, if_neg h2, if_neg hx]

theorem Memory.wfFrom_filter (p : Host.Cell → Bool) :
    ∀ (m : Memory) (lo : Nat), Memory.wfFrom lo m = true → Memory.wfFrom lo (m.filter p) = true
  | [], _, _ => rfl
  | (a, v) :: m, lo, hm => by
    have h := (Memory.wfFrom_cons ..).1 hm
    have ih := Memory.wfFrom_filter p m (a + 1) h.2.2.2
    rw [List.filter_cons]
    split
    · exact (Memory.wfFrom_cons ..).2 ⟨h.1, h.2.1, h.2.2.1, ih⟩
    · exact Memory.wfFrom_mono (by omega) _ ih

/-- Erasing keeps the canonical form. -/
theorem Memory.wf_erase {m : Memory} (a n : Nat) (hm : m.wf = true) : (m.erase a n).wf = true :=
  Memory.wfFrom_filter _ m 0 hm

/-- Erasing sets the range to 0xFF and leaves every other byte (42 R251). -/
theorem Memory.read_erase :
    ∀ (m : Memory) (a n x : Nat),
      (m.erase a n).read x = if a ≤ x ∧ x < a + n then Config.erased else m.read x
  | [], a, n, x => by simp [Memory.erase]
  | (b, v) :: m, a, n, x => by
    have ih := Memory.read_erase m a n x
    unfold Memory.erase at ih ⊢
    rw [List.filter_cons]
    by_cases hb : b < a ∨ a + n ≤ b
    · have : (decide (b < a) || decide (a + n ≤ b)) = true := by simpa using hb
      rw [if_pos this, Memory.read_cons, ih]
      by_cases hx : x = b
      · subst hx
        have : ¬ (a ≤ x ∧ x < a + n) := by omega
        simp [this]
      · simp [hx]
    · have : ¬ ((decide (b < a) || decide (a + n ≤ b)) = true) := by simpa using hb
      rw [if_neg this, ih]
      by_cases hx : x = b
      · subst hx
        have : a ≤ x ∧ x < a + n := by omega
        simp [this]
      · simp [hx]

/-- What an interrupted program or erase leaves is in canonical form. -/
theorem Memory.wf_fill :
    ∀ (bytes : List Byte) {m : Memory} {a : Nat}, m.wf = true →
      a + bytes.length ≤ Config.capacity → (m.fill a bytes).wf = true
  | [], _, _, hm, _ => hm
  | b :: bs, m, a, hm, ha => by
    simp only [List.length_cons] at ha
    exact Memory.wf_fill bs (Memory.wf_set _ hm (by omega)) (by omega)

@[simp] theorem Memory.readRange_length (m : Memory) (a n : Nat) :
    (m.readRange a n).length = n := by simp [Memory.readRange]

/-- Byte `i` of a read is the byte at `a + i` (20 R94). -/
theorem Memory.readRange_getElem (m : Memory) (a n i : Nat) (h : i < (m.readRange a n).length) :
    (m.readRange a n)[i] = m.read (a + i) := by simp [Memory.readRange]

end Sys2Proof.Machine
end

