-- ==== Sys2Proof/Laws/State.lean ====
section
/-! SUPPORT. The fields of the state after each update: true by rfl, so that no proof unfolds a record
update. -/

namespace Sys2Proof.Machine

/-! ### `writeCr` -/

@[simp] theorem writeCr_life (v : Word) (s : State) : (writeCr v s).life = s.life := rfl
@[simp] theorem writeCr_clkEn (v : Word) (s : State) : (writeCr v s).clkEn = s.clkEn := rfl
@[simp] theorem writeCr_pinsAf (v : Word) (s : State) : (writeCr v s).pinsAf = s.pinsAf := rfl
@[simp] theorem writeCr_regs (v : Word) (s : State) :
    (writeCr v s).regs = { s.regs with cr := v &&& crMask } := rfl
@[simp] theorem writeCr_chip (v : Word) (s : State) : (writeCr v s).chip = s.chip := rfl
@[simp] theorem writeCr_seq (v : Word) (s : State) : (writeCr v s).seq = s.seq := rfl
@[simp] theorem writeCr_current (v : Word) (s : State) : (writeCr v s).current = s.current := rfl
@[simp] theorem writeCr_rx (v : Word) (s : State) : (writeCr v s).rx = s.rx := rfl
@[simp] theorem writeCr_window (v : Word) (s : State) : (writeCr v s).window = s.window := rfl
@[simp] theorem writeCr_host (v : Word) (s : State) : (writeCr v s).host = s.host := rfl
@[simp] theorem writeCr_results (v : Word) (s : State) : (writeCr v s).results = s.results := rfl
@[simp] theorem writeCr_trace (v : Word) (s : State) : (writeCr v s).trace = s.trace := rfl
@[simp] theorem writeCr_windowTrace (v : Word) (s : State) : (writeCr v s).windowTrace = s.windowTrace := rfl
@[simp] theorem writeCr_delays (v : Word) (s : State) : (writeCr v s).delays = s.delays := rfl
@[simp] theorem writeCr_marks (v : Word) (s : State) : (writeCr v s).marks = s.marks := rfl
@[simp] theorem writeCr_schedule (v : Word) (s : State) : (writeCr v s).schedule = s.schedule := rfl
@[simp] theorem writeCr_chances (v : Word) (s : State) : (writeCr v s).chances = s.chances := rfl
@[simp] theorem writeCr_draws (v : Word) (s : State) : (writeCr v s).draws = s.draws := rfl
@[simp] theorem writeCr_cfg (v : Word) (s : State) : (writeCr v s).cfg = s.cfg := rfl

/-! ### `writeDcr` -/

@[simp] theorem writeDcr_life (v : Word) (s : State) : (writeDcr v s).life = s.life := rfl
@[simp] theorem writeDcr_clkEn (v : Word) (s : State) : (writeDcr v s).clkEn = s.clkEn := rfl
@[simp] theorem writeDcr_pinsAf (v : Word) (s : State) : (writeDcr v s).pinsAf = s.pinsAf := rfl
@[simp] theorem writeDcr_regs (v : Word) (s : State) :
    (writeDcr v s).regs = { s.regs with dcr := v &&& dcrMask } := rfl
@[simp] theorem writeDcr_chip (v : Word) (s : State) : (writeDcr v s).chip = s.chip := rfl
@[simp] theorem writeDcr_seq (v : Word) (s : State) : (writeDcr v s).seq = s.seq := rfl
@[simp] theorem writeDcr_current (v : Word) (s : State) : (writeDcr v s).current = s.current := rfl
@[simp] theorem writeDcr_rx (v : Word) (s : State) : (writeDcr v s).rx = s.rx := rfl
@[simp] theorem writeDcr_window (v : Word) (s : State) : (writeDcr v s).window = s.window := rfl
@[simp] theorem writeDcr_host (v : Word) (s : State) : (writeDcr v s).host = s.host := rfl
@[simp] theorem writeDcr_results (v : Word) (s : State) : (writeDcr v s).results = s.results := rfl
@[simp] theorem writeDcr_trace (v : Word) (s : State) : (writeDcr v s).trace = s.trace := rfl
@[simp] theorem writeDcr_windowTrace (v : Word) (s : State) : (writeDcr v s).windowTrace = s.windowTrace := rfl
@[simp] theorem writeDcr_delays (v : Word) (s : State) : (writeDcr v s).delays = s.delays := rfl
@[simp] theorem writeDcr_marks (v : Word) (s : State) : (writeDcr v s).marks = s.marks := rfl
@[simp] theorem writeDcr_schedule (v : Word) (s : State) : (writeDcr v s).schedule = s.schedule := rfl
@[simp] theorem writeDcr_chances (v : Word) (s : State) : (writeDcr v s).chances = s.chances := rfl
@[simp] theorem writeDcr_draws (v : Word) (s : State) : (writeDcr v s).draws = s.draws := rfl
@[simp] theorem writeDcr_cfg (v : Word) (s : State) : (writeDcr v s).cfg = s.cfg := rfl

/-! ### `writeSshift` -/

@[simp] theorem writeSshift_life (b : Bool) (s : State) : (writeSshift b s).life = s.life := rfl
@[simp] theorem writeSshift_clkEn (b : Bool) (s : State) : (writeSshift b s).clkEn = s.clkEn := rfl
@[simp] theorem writeSshift_pinsAf (b : Bool) (s : State) : (writeSshift b s).pinsAf = s.pinsAf := rfl
@[simp] theorem writeSshift_regs (b : Bool) (s : State) :
    (writeSshift b s).regs = { s.regs with cr := crWithSshift s.regs.cr b &&& crMask } := rfl
@[simp] theorem writeSshift_chip (b : Bool) (s : State) : (writeSshift b s).chip = s.chip := rfl
@[simp] theorem writeSshift_seq (b : Bool) (s : State) : (writeSshift b s).seq = s.seq := rfl
@[simp] theorem writeSshift_current (b : Bool) (s : State) : (writeSshift b s).current = s.current := rfl
@[simp] theorem writeSshift_rx (b : Bool) (s : State) : (writeSshift b s).rx = s.rx := rfl
@[simp] theorem writeSshift_window (b : Bool) (s : State) : (writeSshift b s).window = s.window := rfl
@[simp] theorem writeSshift_host (b : Bool) (s : State) : (writeSshift b s).host = s.host := rfl
@[simp] theorem writeSshift_results (b : Bool) (s : State) : (writeSshift b s).results = s.results := rfl
@[simp] theorem writeSshift_trace (b : Bool) (s : State) : (writeSshift b s).trace = s.trace := rfl
@[simp] theorem writeSshift_windowTrace (b : Bool) (s : State) : (writeSshift b s).windowTrace = s.windowTrace := rfl
@[simp] theorem writeSshift_delays (b : Bool) (s : State) : (writeSshift b s).delays = s.delays := rfl
@[simp] theorem writeSshift_marks (b : Bool) (s : State) : (writeSshift b s).marks = s.marks := rfl
@[simp] theorem writeSshift_schedule (b : Bool) (s : State) : (writeSshift b s).schedule = s.schedule := rfl
@[simp] theorem writeSshift_chances (b : Bool) (s : State) : (writeSshift b s).chances = s.chances := rfl
@[simp] theorem writeSshift_draws (b : Bool) (s : State) : (writeSshift b s).draws = s.draws := rfl
@[simp] theorem writeSshift_cfg (b : Bool) (s : State) : (writeSshift b s).cfg = s.cfg := rfl

/-! ### `writeFcr` -/

@[simp] theorem writeFcr_life (v : Word) (s : State) : (writeFcr v s).life = s.life := rfl
@[simp] theorem writeFcr_clkEn (v : Word) (s : State) : (writeFcr v s).clkEn = s.clkEn := rfl
@[simp] theorem writeFcr_pinsAf (v : Word) (s : State) : (writeFcr v s).pinsAf = s.pinsAf := rfl
@[simp] theorem writeFcr_regs (v : Word) (s : State) :
    (writeFcr v s).regs = { s.regs with sr := fcrClear s.regs.sr v } := rfl
@[simp] theorem writeFcr_chip (v : Word) (s : State) : (writeFcr v s).chip = s.chip := rfl
@[simp] theorem writeFcr_seq (v : Word) (s : State) : (writeFcr v s).seq = s.seq := rfl
@[simp] theorem writeFcr_current (v : Word) (s : State) : (writeFcr v s).current = s.current := rfl
@[simp] theorem writeFcr_rx (v : Word) (s : State) : (writeFcr v s).rx = s.rx := rfl
@[simp] theorem writeFcr_window (v : Word) (s : State) : (writeFcr v s).window = s.window := rfl
@[simp] theorem writeFcr_host (v : Word) (s : State) : (writeFcr v s).host = s.host := rfl
@[simp] theorem writeFcr_results (v : Word) (s : State) : (writeFcr v s).results = s.results := rfl
@[simp] theorem writeFcr_trace (v : Word) (s : State) : (writeFcr v s).trace = s.trace := rfl
@[simp] theorem writeFcr_windowTrace (v : Word) (s : State) : (writeFcr v s).windowTrace = s.windowTrace := rfl
@[simp] theorem writeFcr_delays (v : Word) (s : State) : (writeFcr v s).delays = s.delays := rfl
@[simp] theorem writeFcr_marks (v : Word) (s : State) : (writeFcr v s).marks = s.marks := rfl
@[simp] theorem writeFcr_schedule (v : Word) (s : State) : (writeFcr v s).schedule = s.schedule := rfl
@[simp] theorem writeFcr_chances (v : Word) (s : State) : (writeFcr v s).chances = s.chances := rfl
@[simp] theorem writeFcr_draws (v : Word) (s : State) : (writeFcr v s).draws = s.draws := rfl
@[simp] theorem writeFcr_cfg (v : Word) (s : State) : (writeFcr v s).cfg = s.cfg := rfl

/-! ### `writeDlr` -/

@[simp] theorem writeDlr_life (v : Word) (s : State) : (writeDlr v s).life = s.life := rfl
@[simp] theorem writeDlr_clkEn (v : Word) (s : State) : (writeDlr v s).clkEn = s.clkEn := rfl
@[simp] theorem writeDlr_pinsAf (v : Word) (s : State) : (writeDlr v s).pinsAf = s.pinsAf := rfl
@[simp] theorem writeDlr_regs (v : Word) (s : State) :
    (writeDlr v s).regs = { s.regs with dlr := v } := rfl
@[simp] theorem writeDlr_chip (v : Word) (s : State) : (writeDlr v s).chip = s.chip := rfl
@[simp] theorem writeDlr_seq (v : Word) (s : State) : (writeDlr v s).seq = s.seq := rfl
@[simp] theorem writeDlr_current (v : Word) (s : State) : (writeDlr v s).current = s.current := rfl
@[simp] theorem writeDlr_rx (v : Word) (s : State) : (writeDlr v s).rx = s.rx := rfl
@[simp] theorem writeDlr_window (v : Word) (s : State) : (writeDlr v s).window = s.window := rfl
@[simp] theorem writeDlr_host (v : Word) (s : State) : (writeDlr v s).host = s.host := rfl
@[simp] theorem writeDlr_results (v : Word) (s : State) : (writeDlr v s).results = s.results := rfl
@[simp] theorem writeDlr_trace (v : Word) (s : State) : (writeDlr v s).trace = s.trace := rfl
@[simp] theorem writeDlr_windowTrace (v : Word) (s : State) : (writeDlr v s).windowTrace = s.windowTrace := rfl
@[simp] theorem writeDlr_delays (v : Word) (s : State) : (writeDlr v s).delays = s.delays := rfl
@[simp] theorem writeDlr_marks (v : Word) (s : State) : (writeDlr v s).marks = s.marks := rfl
@[simp] theorem writeDlr_schedule (v : Word) (s : State) : (writeDlr v s).schedule = s.schedule := rfl
@[simp] theorem writeDlr_chances (v : Word) (s : State) : (writeDlr v s).chances = s.chances := rfl
@[simp] theorem writeDlr_draws (v : Word) (s : State) : (writeDlr v s).draws = s.draws := rfl
@[simp] theorem writeDlr_cfg (v : Word) (s : State) : (writeDlr v s).cfg = s.cfg := rfl

/-! ### `writeAbr` -/

@[simp] theorem writeAbr_life (v : Word) (s : State) : (writeAbr v s).life = s.life := rfl
@[simp] theorem writeAbr_clkEn (v : Word) (s : State) : (writeAbr v s).clkEn = s.clkEn := rfl
@[simp] theorem writeAbr_pinsAf (v : Word) (s : State) : (writeAbr v s).pinsAf = s.pinsAf := rfl
@[simp] theorem writeAbr_regs (v : Word) (s : State) :
    (writeAbr v s).regs = { s.regs with abr := v } := rfl
@[simp] theorem writeAbr_chip (v : Word) (s : State) : (writeAbr v s).chip = s.chip := rfl
@[simp] theorem writeAbr_seq (v : Word) (s : State) : (writeAbr v s).seq = s.seq := rfl
@[simp] theorem writeAbr_current (v : Word) (s : State) : (writeAbr v s).current = s.current := rfl
@[simp] theorem writeAbr_rx (v : Word) (s : State) : (writeAbr v s).rx = s.rx := rfl
@[simp] theorem writeAbr_window (v : Word) (s : State) : (writeAbr v s).window = s.window := rfl
@[simp] theorem writeAbr_host (v : Word) (s : State) : (writeAbr v s).host = s.host := rfl
@[simp] theorem writeAbr_results (v : Word) (s : State) : (writeAbr v s).results = s.results := rfl
@[simp] theorem writeAbr_trace (v : Word) (s : State) : (writeAbr v s).trace = s.trace := rfl
@[simp] theorem writeAbr_windowTrace (v : Word) (s : State) : (writeAbr v s).windowTrace = s.windowTrace := rfl
@[simp] theorem writeAbr_delays (v : Word) (s : State) : (writeAbr v s).delays = s.delays := rfl
@[simp] theorem writeAbr_marks (v : Word) (s : State) : (writeAbr v s).marks = s.marks := rfl
@[simp] theorem writeAbr_schedule (v : Word) (s : State) : (writeAbr v s).schedule = s.schedule := rfl
@[simp] theorem writeAbr_chances (v : Word) (s : State) : (writeAbr v s).chances = s.chances := rfl
@[simp] theorem writeAbr_draws (v : Word) (s : State) : (writeAbr v s).draws = s.draws := rfl
@[simp] theorem writeAbr_cfg (v : Word) (s : State) : (writeAbr v s).cfg = s.cfg := rfl

/-! ### `writeAr` -/

@[simp] theorem writeAr_life (v : Word) (s : State) : (writeAr v s).life = s.life := rfl
@[simp] theorem writeAr_clkEn (v : Word) (s : State) : (writeAr v s).clkEn = s.clkEn := rfl
@[simp] theorem writeAr_pinsAf (v : Word) (s : State) : (writeAr v s).pinsAf = s.pinsAf := rfl
@[simp] theorem writeAr_regs (v : Word) (s : State) :
    (writeAr v s).regs = { s.regs with ar := v } := rfl
@[simp] theorem writeAr_chip (v : Word) (s : State) : (writeAr v s).chip = s.chip := rfl
@[simp] theorem writeAr_seq (v : Word) (s : State) : (writeAr v s).seq = s.seq := rfl
@[simp] theorem writeAr_current (v : Word) (s : State) : (writeAr v s).current = s.current := rfl
@[simp] theorem writeAr_rx (v : Word) (s : State) : (writeAr v s).rx = s.rx := rfl
@[simp] theorem writeAr_window (v : Word) (s : State) : (writeAr v s).window = s.window := rfl
@[simp] theorem writeAr_host (v : Word) (s : State) : (writeAr v s).host = s.host := rfl
@[simp] theorem writeAr_results (v : Word) (s : State) : (writeAr v s).results = s.results := rfl
@[simp] theorem writeAr_trace (v : Word) (s : State) : (writeAr v s).trace = s.trace := rfl
@[simp] theorem writeAr_windowTrace (v : Word) (s : State) : (writeAr v s).windowTrace = s.windowTrace := rfl
@[simp] theorem writeAr_delays (v : Word) (s : State) : (writeAr v s).delays = s.delays := rfl
@[simp] theorem writeAr_marks (v : Word) (s : State) : (writeAr v s).marks = s.marks := rfl
@[simp] theorem writeAr_schedule (v : Word) (s : State) : (writeAr v s).schedule = s.schedule := rfl
@[simp] theorem writeAr_chances (v : Word) (s : State) : (writeAr v s).chances = s.chances := rfl
@[simp] theorem writeAr_draws (v : Word) (s : State) : (writeAr v s).draws = s.draws := rfl
@[simp] theorem writeAr_cfg (v : Word) (s : State) : (writeAr v s).cfg = s.cfg := rfl

/-! ### `writeCcr` -/

@[simp] theorem writeCcr_life (v : Word) (s : State) : (writeCcr v s).life = s.life := rfl
@[simp] theorem writeCcr_clkEn (v : Word) (s : State) : (writeCcr v s).clkEn = s.clkEn := rfl
@[simp] theorem writeCcr_pinsAf (v : Word) (s : State) : (writeCcr v s).pinsAf = s.pinsAf := rfl
@[simp] theorem writeCcr_regs (v : Word) (s : State) :
    (writeCcr v s).regs = { s.regs with ccr := v, siooSent := false } := rfl
@[simp] theorem writeCcr_chip (v : Word) (s : State) : (writeCcr v s).chip = s.chip := rfl
@[simp] theorem writeCcr_seq (v : Word) (s : State) : (writeCcr v s).seq = s.seq := rfl
@[simp] theorem writeCcr_current (v : Word) (s : State) : (writeCcr v s).current = s.current := rfl
@[simp] theorem writeCcr_rx (v : Word) (s : State) : (writeCcr v s).rx = s.rx := rfl
@[simp] theorem writeCcr_window (v : Word) (s : State) : (writeCcr v s).window = s.window := rfl
@[simp] theorem writeCcr_host (v : Word) (s : State) : (writeCcr v s).host = s.host := rfl
@[simp] theorem writeCcr_results (v : Word) (s : State) : (writeCcr v s).results = s.results := rfl
@[simp] theorem writeCcr_trace (v : Word) (s : State) : (writeCcr v s).trace = s.trace := rfl
@[simp] theorem writeCcr_windowTrace (v : Word) (s : State) : (writeCcr v s).windowTrace = s.windowTrace := rfl
@[simp] theorem writeCcr_delays (v : Word) (s : State) : (writeCcr v s).delays = s.delays := rfl
@[simp] theorem writeCcr_marks (v : Word) (s : State) : (writeCcr v s).marks = s.marks := rfl
@[simp] theorem writeCcr_schedule (v : Word) (s : State) : (writeCcr v s).schedule = s.schedule := rfl
@[simp] theorem writeCcr_chances (v : Word) (s : State) : (writeCcr v s).chances = s.chances := rfl
@[simp] theorem writeCcr_draws (v : Word) (s : State) : (writeCcr v s).draws = s.draws := rfl
@[simp] theorem writeCcr_cfg (v : Word) (s : State) : (writeCcr v s).cfg = s.cfg := rfl

/-! ### `pushDr` -/

@[simp] theorem pushDr_life (b : List Byte) (s : State) : (pushDr b s).life = s.life := rfl
@[simp] theorem pushDr_clkEn (b : List Byte) (s : State) : (pushDr b s).clkEn = s.clkEn := rfl
@[simp] theorem pushDr_pinsAf (b : List Byte) (s : State) : (pushDr b s).pinsAf = s.pinsAf := rfl
@[simp] theorem pushDr_regs (b : List Byte) (s : State) :
    (pushDr b s).regs = { s.regs with fifo := s.regs.fifo ++ b } := rfl
@[simp] theorem pushDr_chip (b : List Byte) (s : State) : (pushDr b s).chip = s.chip := rfl
@[simp] theorem pushDr_seq (b : List Byte) (s : State) : (pushDr b s).seq = s.seq := rfl
@[simp] theorem pushDr_current (b : List Byte) (s : State) : (pushDr b s).current = s.current := rfl
@[simp] theorem pushDr_rx (b : List Byte) (s : State) : (pushDr b s).rx = s.rx := rfl
@[simp] theorem pushDr_window (b : List Byte) (s : State) : (pushDr b s).window = s.window := rfl
@[simp] theorem pushDr_host (b : List Byte) (s : State) : (pushDr b s).host = s.host := rfl
@[simp] theorem pushDr_results (b : List Byte) (s : State) : (pushDr b s).results = s.results := rfl
@[simp] theorem pushDr_trace (b : List Byte) (s : State) : (pushDr b s).trace = s.trace := rfl
@[simp] theorem pushDr_windowTrace (b : List Byte) (s : State) : (pushDr b s).windowTrace = s.windowTrace := rfl
@[simp] theorem pushDr_delays (b : List Byte) (s : State) : (pushDr b s).delays = s.delays := rfl
@[simp] theorem pushDr_marks (b : List Byte) (s : State) : (pushDr b s).marks = s.marks := rfl
@[simp] theorem pushDr_schedule (b : List Byte) (s : State) : (pushDr b s).schedule = s.schedule := rfl
@[simp] theorem pushDr_chances (b : List Byte) (s : State) : (pushDr b s).chances = s.chances := rfl
@[simp] theorem pushDr_draws (b : List Byte) (s : State) : (pushDr b s).draws = s.draws := rfl
@[simp] theorem pushDr_cfg (b : List Byte) (s : State) : (pushDr b s).cfg = s.cfg := rfl

/-! ### `drainDr` -/

@[simp] theorem drainDr_life (n : Nat) (s : State) : (drainDr n s).life = s.life := rfl
@[simp] theorem drainDr_clkEn (n : Nat) (s : State) : (drainDr n s).clkEn = s.clkEn := rfl
@[simp] theorem drainDr_pinsAf (n : Nat) (s : State) : (drainDr n s).pinsAf = s.pinsAf := rfl
@[simp] theorem drainDr_regs (n : Nat) (s : State) :
    (drainDr n s).regs = { s.regs with fifo := s.regs.fifo.drop n } := rfl
@[simp] theorem drainDr_chip (n : Nat) (s : State) : (drainDr n s).chip = s.chip := rfl
@[simp] theorem drainDr_seq (n : Nat) (s : State) : (drainDr n s).seq = s.seq := rfl
@[simp] theorem drainDr_current (n : Nat) (s : State) : (drainDr n s).current = s.current := rfl
@[simp] theorem drainDr_rx (n : Nat) (s : State) : (drainDr n s).rx = s.regs.fifo.take n := rfl
@[simp] theorem drainDr_window (n : Nat) (s : State) : (drainDr n s).window = s.window := rfl
@[simp] theorem drainDr_host (n : Nat) (s : State) : (drainDr n s).host = s.host := rfl
@[simp] theorem drainDr_results (n : Nat) (s : State) : (drainDr n s).results = s.results := rfl
@[simp] theorem drainDr_trace (n : Nat) (s : State) : (drainDr n s).trace = s.trace := rfl
@[simp] theorem drainDr_windowTrace (n : Nat) (s : State) : (drainDr n s).windowTrace = s.windowTrace := rfl
@[simp] theorem drainDr_delays (n : Nat) (s : State) : (drainDr n s).delays = s.delays := rfl
@[simp] theorem drainDr_marks (n : Nat) (s : State) : (drainDr n s).marks = s.marks := rfl
@[simp] theorem drainDr_schedule (n : Nat) (s : State) : (drainDr n s).schedule = s.schedule := rfl
@[simp] theorem drainDr_chances (n : Nat) (s : State) : (drainDr n s).chances = s.chances := rfl
@[simp] theorem drainDr_draws (n : Nat) (s : State) : (drainDr n s).draws = s.draws := rfl
@[simp] theorem drainDr_cfg (n : Nat) (s : State) : (drainDr n s).cfg = s.cfg := rfl

/-! ### `emit` -/

@[simp] theorem emit_life (t : BusTxn) (s : State) : (emit t s).life = s.life := rfl
@[simp] theorem emit_clkEn (t : BusTxn) (s : State) : (emit t s).clkEn = s.clkEn := rfl
@[simp] theorem emit_pinsAf (t : BusTxn) (s : State) : (emit t s).pinsAf = s.pinsAf := rfl
@[simp] theorem emit_regs (t : BusTxn) (s : State) : (emit t s).regs = s.regs := rfl
@[simp] theorem emit_chip (t : BusTxn) (s : State) : (emit t s).chip = s.chip := rfl
@[simp] theorem emit_seq (t : BusTxn) (s : State) : (emit t s).seq = s.seq := rfl
@[simp] theorem emit_current (t : BusTxn) (s : State) : (emit t s).current = s.current := rfl
@[simp] theorem emit_rx (t : BusTxn) (s : State) : (emit t s).rx = s.rx := rfl
@[simp] theorem emit_window (t : BusTxn) (s : State) : (emit t s).window = s.window := rfl
@[simp] theorem emit_host (t : BusTxn) (s : State) : (emit t s).host = s.host := rfl
@[simp] theorem emit_results (t : BusTxn) (s : State) : (emit t s).results = s.results := rfl
@[simp] theorem emit_trace (t : BusTxn) (s : State) : (emit t s).trace = s.trace ++ [t] := rfl
@[simp] theorem emit_windowTrace (t : BusTxn) (s : State) : (emit t s).windowTrace = s.windowTrace := rfl
@[simp] theorem emit_delays (t : BusTxn) (s : State) : (emit t s).delays = s.delays := rfl
@[simp] theorem emit_marks (t : BusTxn) (s : State) : (emit t s).marks = s.marks := rfl
@[simp] theorem emit_schedule (t : BusTxn) (s : State) : (emit t s).schedule = s.schedule := rfl
@[simp] theorem emit_chances (t : BusTxn) (s : State) : (emit t s).chances = s.chances := rfl
@[simp] theorem emit_draws (t : BusTxn) (s : State) : (emit t s).draws = s.draws := rfl
@[simp] theorem emit_cfg (t : BusTxn) (s : State) : (emit t s).cfg = s.cfg := rfl

/-! ### `finish` -/

@[simp] theorem finish_life (r : OpResult) (s : State) : (finish r s).life = s.life := rfl
@[simp] theorem finish_clkEn (r : OpResult) (s : State) : (finish r s).clkEn = s.clkEn := rfl
@[simp] theorem finish_pinsAf (r : OpResult) (s : State) : (finish r s).pinsAf = s.pinsAf := rfl
@[simp] theorem finish_regs (r : OpResult) (s : State) : (finish r s).regs = s.regs := rfl
@[simp] theorem finish_chip (r : OpResult) (s : State) : (finish r s).chip = s.chip := rfl
@[simp] theorem finish_seq (r : OpResult) (s : State) : (finish r s).seq = .idle := rfl
@[simp] theorem finish_current (r : OpResult) (s : State) : (finish r s).current = none := rfl
@[simp] theorem finish_rx (r : OpResult) (s : State) : (finish r s).rx = s.rx := rfl
@[simp] theorem finish_window (r : OpResult) (s : State) : (finish r s).window = s.window := rfl
@[simp] theorem finish_host (r : OpResult) (s : State) : (finish r s).host = s.host := rfl
@[simp] theorem finish_results (r : OpResult) (s : State) :
    (finish r s).results = s.results ++ [⟨s.current, r⟩] := rfl
@[simp] theorem finish_trace (r : OpResult) (s : State) : (finish r s).trace = s.trace := rfl
@[simp] theorem finish_windowTrace (r : OpResult) (s : State) : (finish r s).windowTrace = s.windowTrace := rfl
@[simp] theorem finish_delays (r : OpResult) (s : State) : (finish r s).delays = s.delays := rfl
@[simp] theorem finish_marks (r : OpResult) (s : State) : (finish r s).marks = s.marks := rfl
@[simp] theorem finish_schedule (r : OpResult) (s : State) : (finish r s).schedule = s.schedule := rfl
@[simp] theorem finish_chances (r : OpResult) (s : State) : (finish r s).chances = s.chances := rfl
@[simp] theorem finish_draws (r : OpResult) (s : State) : (finish r s).draws = s.draws := rfl
@[simp] theorem finish_cfg (r : OpResult) (s : State) : (finish r s).cfg = s.cfg := rfl

/-! ### `takeRequest` -/

@[simp] theorem takeRequest_life (s : State) : (takeRequest s).life = s.life := rfl
@[simp] theorem takeRequest_clkEn (s : State) : (takeRequest s).clkEn = s.clkEn := rfl
@[simp] theorem takeRequest_pinsAf (s : State) : (takeRequest s).pinsAf = s.pinsAf := rfl
@[simp] theorem takeRequest_regs (s : State) : (takeRequest s).regs = s.regs := rfl
@[simp] theorem takeRequest_chip (s : State) : (takeRequest s).chip = s.chip := rfl
@[simp] theorem takeRequest_seq (s : State) : (takeRequest s).seq = s.seq := rfl
@[simp] theorem takeRequest_current (s : State) : (takeRequest s).current = s.current := rfl
@[simp] theorem takeRequest_rx (s : State) : (takeRequest s).rx = s.rx := rfl
@[simp] theorem takeRequest_window (s : State) : (takeRequest s).window = s.window := rfl
@[simp] theorem takeRequest_host (s : State) : (takeRequest s).host = s.host.tail := rfl
@[simp] theorem takeRequest_results (s : State) : (takeRequest s).results = s.results := rfl
@[simp] theorem takeRequest_trace (s : State) : (takeRequest s).trace = s.trace := rfl
@[simp] theorem takeRequest_windowTrace (s : State) : (takeRequest s).windowTrace = s.windowTrace := rfl
@[simp] theorem takeRequest_delays (s : State) : (takeRequest s).delays = s.delays := rfl
@[simp] theorem takeRequest_marks (s : State) : (takeRequest s).marks = s.marks := rfl
@[simp] theorem takeRequest_schedule (s : State) : (takeRequest s).schedule = s.schedule := rfl
@[simp] theorem takeRequest_chances (s : State) : (takeRequest s).chances = s.chances := rfl
@[simp] theorem takeRequest_draws (s : State) : (takeRequest s).draws = s.draws := rfl
@[simp] theorem takeRequest_cfg (s : State) : (takeRequest s).cfg = s.cfg := rfl

/-! ### `takeLaunch` -/

@[simp] theorem takeLaunch_life (s : State) : (takeLaunch s).life = s.life := rfl
@[simp] theorem takeLaunch_clkEn (s : State) : (takeLaunch s).clkEn = s.clkEn := rfl
@[simp] theorem takeLaunch_pinsAf (s : State) : (takeLaunch s).pinsAf = s.pinsAf := rfl
@[simp] theorem takeLaunch_regs (s : State) : (takeLaunch s).regs = s.regs := rfl
@[simp] theorem takeLaunch_chip (s : State) : (takeLaunch s).chip = s.chip := rfl
@[simp] theorem takeLaunch_seq (s : State) : (takeLaunch s).seq = .idle := rfl
@[simp] theorem takeLaunch_current (s : State) : (takeLaunch s).current = s.current := rfl
@[simp] theorem takeLaunch_rx (s : State) : (takeLaunch s).rx = s.rx := rfl
@[simp] theorem takeLaunch_window (s : State) : (takeLaunch s).window = s.window := rfl
@[simp] theorem takeLaunch_host (s : State) : (takeLaunch s).host = s.host := rfl
@[simp] theorem takeLaunch_results (s : State) : (takeLaunch s).results = s.results := rfl
@[simp] theorem takeLaunch_trace (s : State) : (takeLaunch s).trace = s.trace := rfl
@[simp] theorem takeLaunch_windowTrace (s : State) : (takeLaunch s).windowTrace = s.windowTrace := rfl
@[simp] theorem takeLaunch_delays (s : State) : (takeLaunch s).delays = s.delays := rfl
@[simp] theorem takeLaunch_marks (s : State) : (takeLaunch s).marks = s.marks := rfl
@[simp] theorem takeLaunch_schedule (s : State) : (takeLaunch s).schedule = s.schedule := rfl
@[simp] theorem takeLaunch_chances (s : State) : (takeLaunch s).chances = s.chances := rfl
@[simp] theorem takeLaunch_draws (s : State) : (takeLaunch s).draws = s.draws := rfl
@[simp] theorem takeLaunch_cfg (s : State) : (takeLaunch s).cfg = s.cfg := rfl

/-! ### `delayWake` -/

@[simp] theorem delayWake_life (s : State) : (delayWake s).life = s.life := rfl
@[simp] theorem delayWake_clkEn (s : State) : (delayWake s).clkEn = s.clkEn := rfl
@[simp] theorem delayWake_pinsAf (s : State) : (delayWake s).pinsAf = s.pinsAf := rfl
@[simp] theorem delayWake_regs (s : State) : (delayWake s).regs = s.regs := rfl
@[simp] theorem delayWake_chip (s : State) : (delayWake s).chip = s.chip := rfl
@[simp] theorem delayWake_seq (s : State) : (delayWake s).seq = s.seq := rfl
@[simp] theorem delayWake_current (s : State) : (delayWake s).current = s.current := rfl
@[simp] theorem delayWake_rx (s : State) : (delayWake s).rx = s.rx := rfl
@[simp] theorem delayWake_window (s : State) : (delayWake s).window = s.window := rfl
@[simp] theorem delayWake_host (s : State) : (delayWake s).host = s.host := rfl
@[simp] theorem delayWake_results (s : State) : (delayWake s).results = s.results := rfl
@[simp] theorem delayWake_trace (s : State) : (delayWake s).trace = s.trace := rfl
@[simp] theorem delayWake_windowTrace (s : State) : (delayWake s).windowTrace = s.windowTrace := rfl
@[simp] theorem delayWake_delays (s : State) :
    (delayWake s).delays = s.delays ++ [s.cfg.tWakeUs] := rfl
@[simp] theorem delayWake_marks (s : State) : (delayWake s).marks = s.marks := rfl
@[simp] theorem delayWake_schedule (s : State) : (delayWake s).schedule = s.schedule := rfl
@[simp] theorem delayWake_chances (s : State) : (delayWake s).chances = s.chances := rfl
@[simp] theorem delayWake_draws (s : State) : (delayWake s).draws = s.draws := rfl
@[simp] theorem delayWake_cfg (s : State) : (delayWake s).cfg = s.cfg := rfl

/-! ### `beginTxn` -/

@[simp] theorem beginTxn_life (d : Descriptor) (n : Nat) (s : State) :
    (beginTxn d n s).life = s.life := rfl
@[simp] theorem beginTxn_clkEn (d : Descriptor) (n : Nat) (s : State) :
    (beginTxn d n s).clkEn = s.clkEn := rfl
@[simp] theorem beginTxn_pinsAf (d : Descriptor) (n : Nat) (s : State) :
    (beginTxn d n s).pinsAf = s.pinsAf := rfl
@[simp] theorem beginTxn_chip (d : Descriptor) (n : Nat) (s : State) :
    (beginTxn d n s).chip = s.chip := rfl
@[simp] theorem beginTxn_seq (d : Descriptor) (n : Nat) (s : State) :
    (beginTxn d n s).seq = s.seq := rfl
@[simp] theorem beginTxn_current (d : Descriptor) (n : Nat) (s : State) :
    (beginTxn d n s).current = s.current := rfl
@[simp] theorem beginTxn_rx (d : Descriptor) (n : Nat) (s : State) :
    (beginTxn d n s).rx = s.rx := rfl
@[simp] theorem beginTxn_window (d : Descriptor) (n : Nat) (s : State) :
    (beginTxn d n s).window = s.window := rfl
@[simp] theorem beginTxn_host (d : Descriptor) (n : Nat) (s : State) :
    (beginTxn d n s).host = s.host := rfl
@[simp] theorem beginTxn_results (d : Descriptor) (n : Nat) (s : State) :
    (beginTxn d n s).results = s.results := rfl
@[simp] theorem beginTxn_trace (d : Descriptor) (n : Nat) (s : State) :
    (beginTxn d n s).trace = s.trace := rfl
@[simp] theorem beginTxn_windowTrace (d : Descriptor) (n : Nat) (s : State) :
    (beginTxn d n s).windowTrace = s.windowTrace := rfl
@[simp] theorem beginTxn_delays (d : Descriptor) (n : Nat) (s : State) :
    (beginTxn d n s).delays = s.delays := rfl
@[simp] theorem beginTxn_marks (d : Descriptor) (n : Nat) (s : State) :
    (beginTxn d n s).marks = s.marks := rfl
@[simp] theorem beginTxn_schedule (d : Descriptor) (n : Nat) (s : State) :
    (beginTxn d n s).schedule = s.schedule := rfl
@[simp] theorem beginTxn_chances (d : Descriptor) (n : Nat) (s : State) :
    (beginTxn d n s).chances = s.chances := rfl
@[simp] theorem beginTxn_draws (d : Descriptor) (n : Nat) (s : State) :
    (beginTxn d n s).draws = s.draws := rfl
@[simp] theorem beginTxn_cfg (d : Descriptor) (n : Nat) (s : State) :
    (beginTxn d n s).cfg = s.cfg := rfl

/-! ### `periphEnd`: only the two flags of `SR` change -/

@[simp] theorem periphEnd_life (s : State) : (periphEnd s).life = s.life := by
  unfold periphEnd; split <;> rfl
@[simp] theorem periphEnd_clkEn (s : State) : (periphEnd s).clkEn = s.clkEn := by
  unfold periphEnd; split <;> rfl
@[simp] theorem periphEnd_pinsAf (s : State) : (periphEnd s).pinsAf = s.pinsAf := by
  unfold periphEnd; split <;> rfl
@[simp] theorem periphEnd_chip (s : State) : (periphEnd s).chip = s.chip := by
  unfold periphEnd; split <;> rfl
@[simp] theorem periphEnd_seq (s : State) : (periphEnd s).seq = s.seq := by
  unfold periphEnd; split <;> rfl
@[simp] theorem periphEnd_current (s : State) : (periphEnd s).current = s.current := by
  unfold periphEnd; split <;> rfl
@[simp] theorem periphEnd_rx (s : State) : (periphEnd s).rx = s.rx := by
  unfold periphEnd; split <;> rfl
@[simp] theorem periphEnd_window (s : State) : (periphEnd s).window = s.window := by
  unfold periphEnd; split <;> rfl
@[simp] theorem periphEnd_host (s : State) : (periphEnd s).host = s.host := by
  unfold periphEnd; split <;> rfl
@[simp] theorem periphEnd_results (s : State) : (periphEnd s).results = s.results := by
  unfold periphEnd; split <;> rfl
@[simp] theorem periphEnd_trace (s : State) : (periphEnd s).trace = s.trace := by
  unfold periphEnd; split <;> rfl
@[simp] theorem periphEnd_windowTrace (s : State) : (periphEnd s).windowTrace = s.windowTrace := by
  unfold periphEnd; split <;> rfl
@[simp] theorem periphEnd_delays (s : State) : (periphEnd s).delays = s.delays := by
  unfold periphEnd; split <;> rfl
@[simp] theorem periphEnd_marks (s : State) : (periphEnd s).marks = s.marks := by
  unfold periphEnd; split <;> rfl
@[simp] theorem periphEnd_schedule (s : State) : (periphEnd s).schedule = s.schedule := by
  unfold periphEnd; split <;> rfl
@[simp] theorem periphEnd_chances (s : State) : (periphEnd s).chances = s.chances := by
  unfold periphEnd; split <;> rfl
@[simp] theorem periphEnd_draws (s : State) : (periphEnd s).draws = s.draws := by
  unfold periphEnd; split <;> rfl
@[simp] theorem periphEnd_cfg (s : State) : (periphEnd s).cfg = s.cfg := by
  unfold periphEnd; split <;> rfl

/-! ### `chipChance`: only the chip, the schedule and its count change -/

@[simp] theorem chipChance_life (s : State) : (chipChance s).life = s.life := by
  unfold chipChance; split <;> rfl
@[simp] theorem chipChance_clkEn (s : State) : (chipChance s).clkEn = s.clkEn := by
  unfold chipChance; split <;> rfl
@[simp] theorem chipChance_pinsAf (s : State) : (chipChance s).pinsAf = s.pinsAf := by
  unfold chipChance; split <;> rfl
@[simp] theorem chipChance_regs (s : State) : (chipChance s).regs = s.regs := by
  unfold chipChance; split <;> rfl
@[simp] theorem chipChance_seq (s : State) : (chipChance s).seq = s.seq := by
  unfold chipChance; split <;> rfl
@[simp] theorem chipChance_current (s : State) : (chipChance s).current = s.current := by
  unfold chipChance; split <;> rfl
@[simp] theorem chipChance_rx (s : State) : (chipChance s).rx = s.rx := by
  unfold chipChance; split <;> rfl
@[simp] theorem chipChance_window (s : State) : (chipChance s).window = s.window := by
  unfold chipChance; split <;> rfl
@[simp] theorem chipChance_host (s : State) : (chipChance s).host = s.host := by
  unfold chipChance; split <;> rfl
@[simp] theorem chipChance_results (s : State) : (chipChance s).results = s.results := by
  unfold chipChance; split <;> rfl
@[simp] theorem chipChance_trace (s : State) : (chipChance s).trace = s.trace := by
  unfold chipChance; split <;> rfl
@[simp] theorem chipChance_windowTrace (s : State) : (chipChance s).windowTrace = s.windowTrace := by
  unfold chipChance; split <;> rfl
@[simp] theorem chipChance_delays (s : State) : (chipChance s).delays = s.delays := by
  unfold chipChance; split <;> rfl
@[simp] theorem chipChance_marks (s : State) : (chipChance s).marks = s.marks := by
  unfold chipChance; split <;> rfl
@[simp] theorem chipChance_draws (s : State) : (chipChance s).draws = s.draws := by
  unfold chipChance; split <;> rfl
@[simp] theorem chipChance_cfg (s : State) : (chipChance s).cfg = s.cfg := by
  unfold chipChance; split <;> rfl

end Sys2Proof.Machine
end

