-- ==== Sys2Proof/Laws/Txn.lean ====
section
/-! SUPPORT. What the encoder primitive `Txn` does when the chip answers: one lemma for all indirect
commands, and the chip's answer to each command. -/

namespace Sys2Proof.Machine

@[simp] theorem andThen_next (s : State) (k : State → Result) : andThen (.next s) k = k s := rfl
@[simp] theorem andThen_fault (f : Fault) (k : State → Result) : andThen (.fault f) k = .fault f := rfl
@[simp] theorem andThen_refused (r : Refusal) (k : State → Result) :
    andThen (.refused r) k = .refused r := rfl

/-- If a sequence answers a next state, its first part did, and the rest goes on from there. -/
theorem andThen_eq_next {o : Result} {k : State → Result} {t : State} (h : andThen o k = .next t) :
    ∃ s, o = .next s ∧ k s = .next t := by
  cases o with
  | next s => exact ⟨s, rfl, h⟩
  | fault f => cases h
  | refused r => cases h

/-- CHIP's opportunity does nothing while no operation is pending (43 R307). -/
theorem chipChance_idle {s : State} (h : s.chip.pending = .none) : chipChance s = s := by
  simp [chipChance, h]

/-- PERIPH has no step while no transaction is in flight. -/
theorem periphEnd_idle {s : State} (h : s.regs.sr.busy = false) : periphEnd s = s := by
  simp [periphEnd, h]

/-- An address below `CAPACITY` fits its 24-bit phase. -/
theorem addr24_roundtrip {a : Word} (h : a.toNat < Config.capacity) :
    (a.setWidth 24).setWidth 32 = a := by
  apply BitVec.eq_of_toNat_eq
  unfold Config.capacity at h
  simp; omega

/-- The address phase of three bytes sends an address that fits it whole (30 R138). -/
theorem lowBytes_three {a : Word} (h : a.toNat < 2 ^ 24) : lowBytes 3 a = a := by
  apply BitVec.eq_of_toNat_eq
  unfold lowBytes
  rw [BitVec.toNat_and]
  show a.toNat &&& (2 ^ 24 - 1) = a.toNat
  rw [Nat.and_two_pow_sub_one_eq_mod]
  omega

/-- The record of a transaction of `Txn` with the bytes its data phase moves. -/
def txnRecord (c : BusCmd) (x : TxnArgs) (sshift : Bool) (bytes : List Byte) : BusTxn :=
  buildTxn c.descriptor (x.addr.setWidth 32) 0 true sshift bytes

/-- The registers after a transaction of `Txn` (40 R170). -/
def txnRegs (c : BusCmd) (x : TxnArgs) (r : Regs) : Regs :=
  { r with
    dlr := if c.descriptor.dmode = .none then r.dlr else BitVec.ofNat 32 (x.n - 1)
    ar := if c.descriptor.admode = .none then r.ar else x.addr.setWidth 32
    ccr := c.word
    siooSent := false
    sr := { r.sr with tcf := false } }

/-- The operands fit the command: the length counts the bytes, and the address is in the array. -/
def argsFit (c : BusCmd) (x : TxnArgs) : Prop :=
  (c.descriptor.dmode = .none → x.n = 0) ∧ (c.descriptor.dmode ≠ .none → 1 ≤ x.n) ∧
    x.n ≤ Config.capacity ∧ (c.descriptor.fmode = .indirectWrite → x.out.length = x.n) ∧
    (c.descriptor.admode ≠ .none → x.addr.toNat < Config.capacity)

/-- The bytes a command sends. -/
def sentBytes (c : BusCmd) (x : TxnArgs) : List Byte :=
  if c.descriptor.fmode = .indirectWrite then x.out else []

/-- The bytes a transaction moves: those sent, or those the chip answered. -/
def movedBytes (c : BusCmd) (x : TxnArgs) (bytes : List Byte) : List Byte :=
  if c.descriptor.fmode = .indirectWrite then x.out else bytes

/-- The bytes a transaction of `Txn` returns (40 R170). -/
def gotBytes (c : BusCmd) (bytes : List Byte) : List Byte :=
  if c.descriptor.fmode = .indirectWrite then [] else bytes

/-- `DLR` holds the length minus one (10 R45). -/
theorem dlr_value {n : Nat} (h : 1 ≤ n) : BitVec.ofNat 32 n - 1 = BitVec.ofNat 32 (n - 1) := by
  apply BitVec.eq_of_toNat_eq
  simp
  omega

/-- A chip that drives every byte of a read leaves none open. -/
theorem openBytes_full {d n : Nat} {bytes : List Byte} (h : n ≤ bytes.length) :
    openBytes d n bytes = [] := if_neg (by omega)

theorem outOfFsize_false {dcr ar : Word} (hf : dcrFsize dcr = BitVec.ofNat 5 Config.fsize)
    (ha : ar.toNat < Config.capacity) : outOfFsize dcr ar = false := by
  unfold Config.capacity at ha
  simp [outOfFsize, hf, Config.fsize]
  omega

/-- One indirect transaction whose chip answers: the staged registers, the chip's new state, the bytes
returned and the transaction in the trace, and then CHIP's opportunity (40 R170 to R174). -/
theorem txn_spec (c : BusCmd) (x : TxnArgs) (s : State) (k : Chip) (bytes : List Byte)
    (hc : c ≠ .mmread) (hb : BusIdle s) (hs : crSshift s.regs.cr = lateSampled c)
    (hf : dcrFsize s.regs.dcr = BitVec.ofNat 5 Config.fsize) (hx : argsFit c x)
    (hchip : chipTake c (txnRecord c x (lateSampled c) (sentBytes c x)) x.n s.chip = .answer k bytes)
    (hlen : c.descriptor.fmode = .indirectRead → bytes.length = x.n) :
    txn c x s = .next (chipChance { s with
      regs := txnRegs c x s.regs
      chip := k
      rx := gotBytes c bytes
      trace := s.trace ++ [txnRecord c x (lateSampled c) (movedBytes c x bytes)] }) := by
  obtain ⟨h1, h2, h3⟩ := hb
  unfold busUp at h1
  obtain ⟨hx0, hx1, hcap, hxo, hxa⟩ := hx
  have hn : 1 ≤ x.n → (BitVec.ofNat 32 (x.n - 1)).toNat + 1 = x.n := by
    intro h
    unfold Config.capacity at hcap
    simp; omega
  have hd : 1 ≤ x.n → BitVec.ofNat 32 x.n - 1#32 = BitVec.ofNat 32 (x.n - 1) := dlr_value
  have hn' : 1 ≤ x.n → (x.n - 1) % 4294967296 + 1 = x.n := by simpa using hn
  have hte : x.addr.toNat < Config.capacity →
      outOfFsize s.regs.dcr (x.addr.setWidth 32) = false := by
    intro h
    apply outOfFsize_false hf
    unfold Config.capacity at h ⊢
    simp; omega
  cases c <;>
    simp_all [txn, execBus, stageTxn, endTxn, busUp, startIndirect, dataLength, BusCmd.descriptor,
      Descriptor.bare, BusCmd.opcode, writeCcr, writeDlr, writeAr, pushDr, beginTxn, txnRecord,
      sentBytes, movedBytes, gotBytes, txnRegs, receiveIndirect, sampleIn, lateSampled, waitPeriph,
      periphEnd, drainDr, writeFcr, fcrClear, Descriptor.ofWord, FMode.ofCode, BusCmd.word, execWren,
      execVwren, execRdpd, execWrsr2, execRdsr1, execRdsr2, execRdid, execQread, execQpp, execSe4k,
      execCe, buildTxn, bytesPhase, dataPhase, instrPhase, BusTxn.withBytes,
      List.take_of_length_le, List.drop_of_length_le, openBytes_full]

end Sys2Proof.Machine
end

