-- ==== Sys2Proof/Laws/Chip.lean ====
section
/-! SUPPORT. The chip's answer to each command of `Txn`, under the checks of 43_register_operations.md
rule R295, and its completion step. -/

namespace Sys2Proof.Machine

/-- A command's rule runs when the checks of rule R295 pass. -/
theorem chipTake_rule {c : BusCmd} {t : BusTxn} {n : Nat} {k : Chip} (hcrm : k.crm = false)
    (hi : t.instr.isSome = true) (hsh : t.shape = cmdShape c true) (hop : operandsFit c t n = true)
    (hp : k.pwr = .active ∨ c = .rdpd) (hb : k.pending = .none ∨ c = .rdsr1 ∨ c = .rdsr2)
    (hq : t.hasQuad = false ∨ sr2Qe k.sr2 = true) :
    chipTake c t n k = afterRule c (chipRule c t n k) := by
  have h1 : ¬ (k.pwr = .deepPd ∧ c ≠ .rdpd) := by
    rintro ⟨h, h'⟩
    rcases hp with hp | hp
    · rw [hp] at h; cases h
    · exact h' hp
  have h2 : ¬ (k.pending ≠ .none ∧ c ≠ .rdsr1 ∧ c ≠ .rdsr2) := by
    rintro ⟨h, h', h''⟩
    rcases hb with hb | hb | hb
    · exact h hb
    · exact h' hb
    · exact h'' hb
  have h3 : (t.hasQuad && ! sr2Qe k.sr2) = false := by
    rcases hq with hq | hq <;> simp [hq]
  have hn : t.instr.isNone = false := by
    cases hti : t.instr with
    | none => simp [hti] at hi
    | some p => rfl
  unfold chipTake
  simp only [hcrm, hn, hsh, hop, h3, if_neg h1, if_neg h2]
  simp

/-- The shape of a transaction of `Txn` is its row's. -/
theorem txnRecord_shape (c : BusCmd) (x : TxnArgs) (b : Bool) (bytes : List Byte) :
    (txnRecord c x b bytes).shape = cmdShape c true := by
  cases c <;> rfl

theorem txnRecord_instr (c : BusCmd) (x : TxnArgs) (b : Bool) (bytes : List Byte) :
    (txnRecord c x b bytes).instr.isSome = true := by
  cases c <;> rfl

/-- A quad phase stands in `QREAD`, `QPP` and `MMREAD` alone (43 R308). -/
theorem txnRecord_hasQuad (c : BusCmd) (x : TxnArgs) (b : Bool) (bytes : List Byte) :
    (txnRecord c x b bytes).hasQuad = (c == .qread || c == .qpp || c == .mmread) := by
  cases c <;> rfl

/-- The bytes of a transaction with a data phase. -/
theorem txnRecord_bytes {c : BusCmd} (h : c.descriptor.dmode ≠ .none) (x : TxnArgs) (b : Bool)
    (bytes : List Byte) : (txnRecord c x b bytes).bytes = bytes := by
  cases c <;> first | rfl | exact absurd rfl h

/-- The address of a transaction with an address phase (30 R138). -/
theorem txnRecord_address {c : BusCmd} (h : c.descriptor.admode ≠ .none) (x : TxnArgs) (b : Bool)
    (bytes : List Byte) : (txnRecord c x b bytes).address = x.addr.toNat := by
  have h24 : (x.addr.setWidth 32).toNat = x.addr.toNat := by
    simp; have := x.addr.isLt; omega
  have hl : lowBytes 3 (x.addr.setWidth 32) = x.addr.setWidth 32 :=
    lowBytes_three (by rw [h24]; exact x.addr.isLt)
  cases c <;>
    first
    | exact absurd rfl h
    | (show (lowBytes 3 (x.addr.setWidth 32)).toNat = _; rw [hl, h24])

/-- The chip is awake and outside continuous-read mode: it answers a status read, pending or not. -/
abbrev ChipAwake (k : Chip) : Prop := k.crm = false ∧ k.pwr = .active

variable (x : TxnArgs) (b : Bool) {k : Chip}

theorem chipTake_wren (h : ChipReady k) :
    chipTake .wren (txnRecord .wren x b []) 0 k =
      .answer { k with sr1 := sr1WithWel k.sr1 true, vwe := false } [] := by
  rw [chipTake_rule h.1 (txnRecord_instr ..) (txnRecord_shape ..) rfl (.inl h.2.1) (.inl h.2.2)
    (.inl (txnRecord_hasQuad ..))]
  rfl

theorem chipTake_vwren (h : ChipReady k) :
    chipTake .vwren (txnRecord .vwren x b []) 0 k = .answer { k with vwe := true } [] := by
  rw [chipTake_rule h.1 (txnRecord_instr ..) (txnRecord_shape ..) rfl (.inl h.2.1) (.inl h.2.2)
    (.inl (txnRecord_hasQuad ..))]
  rfl

theorem chipTake_rdpd (hc : k.crm = false) (hp : k.pending = .none) :
    chipTake .rdpd (txnRecord .rdpd x b []) 0 k =
      .answer { k with pwr := .active, vwe := false } [] := by
  rw [chipTake_rule hc (txnRecord_instr ..) (txnRecord_shape ..) rfl (.inr rfl) (.inl hp)
    (.inl (txnRecord_hasQuad ..))]
  rfl

theorem chipTake_rdsr1 (h : ChipAwake k) {n : Nat} (hn : 1 ≤ n) :
    chipTake .rdsr1 (txnRecord .rdsr1 x b []) n k =
      .answer { k with vwe := false } (List.replicate n k.sr1) := by
  rw [chipTake_rule h.1 (txnRecord_instr ..) (txnRecord_shape ..) (by simpa [operandsFit] using hn)
    (.inl h.2) (.inr (.inl rfl)) (.inl (txnRecord_hasQuad ..))]
  rfl

theorem chipTake_rdsr2 (h : ChipAwake k) {n : Nat} (hn : 1 ≤ n) :
    chipTake .rdsr2 (txnRecord .rdsr2 x b []) n k =
      .answer { k with vwe := false } (List.replicate n k.sr2) := by
  rw [chipTake_rule h.1 (txnRecord_instr ..) (txnRecord_shape ..) (by simpa [operandsFit] using hn)
    (.inl h.2) (.inr (.inr rfl)) (.inl (txnRecord_hasQuad ..))]
  rfl

theorem chipTake_rdid (h : ChipReady k) (hx : x.addr = 0) :
    chipTake .rdid (txnRecord .rdid x b []) 2 k =
      .answer { k with vwe := false } [k.mfrId, k.devId] := by
  have ha := txnRecord_address (c := .rdid) (by decide) x b []
  rw [hx] at ha
  rw [chipTake_rule h.1 (txnRecord_instr ..) (txnRecord_shape ..)
    (by simp [operandsFit, ha]) (.inl h.2.1) (.inl h.2.2) (.inl (txnRecord_hasQuad ..))]
  rfl

/-- A read that does not pass `CAPACITY` reads the array alone (43 R306). -/
theorem arrayBytes_within {a n : Nat} (h : a + n ≤ Config.capacity) :
    arrayBytes k a n = k.array.readRange a n := by
  rw [arrayBytes, Nat.min_eq_left (by omega)]

theorem chipTake_qread (h : ChipReady k) (hq : sr2Qe k.sr2 = true) {n : Nat} (hn : 1 ≤ n)
    (ha : x.addr.toNat + n ≤ Config.capacity) :
    chipTake .qread (txnRecord .qread x b []) n k =
      .answer { k with vwe := false } (k.array.readRange x.addr.toNat n) := by
  rw [chipTake_rule h.1 (txnRecord_instr ..) (txnRecord_shape ..) (by simpa [operandsFit] using hn)
    (.inl h.2.1) (.inl h.2.2) (.inr hq)]
  simp only [chipRule, chipQread, txnRecord_address (c := .qread) (by decide), arrayBytes_within ha]
  rfl

theorem protects_nil (hp : k.prot = []) (a n : Nat) : protects k a n = false := by
  simp [protects, hp]

/-- `QPP` with WEL = 1 is accepted (43 R301). -/
theorem chipTake_qpp (h : ChipReady k) (hq : sr2Qe k.sr2 = true) (hw : sr1Wel k.sr1 = true)
    {d : List Byte} (hd : 1 ≤ d.length)
    (hpage : x.addr.toNat % Config.pageSize + d.length ≤ Config.pageSize)
    (ha : x.addr.toNat < Config.capacity) (hp : protects k x.addr.toNat d.length = false) :
    chipTake .qpp (txnRecord .qpp x b d) d.length k =
      .answer { k with
        pending := .program x.addr.toNat d, sr1 := sr1WithBusy k.sr1 true, vwe := false } [] := by
  have hd' : d.length ≤ 256 := by unfold Config.pageSize at hpage; omega
  rw [chipTake_rule h.1 (txnRecord_instr ..) (txnRecord_shape ..)
    (by simp only [operandsFit, Bool.and_eq_true, decide_eq_true_eq]; exact ⟨hd, hd'⟩)
    (.inl h.2.1) (.inl h.2.2) (.inr hq)]
  simp only [chipRule, chipQpp, txnRecord_address (c := .qpp) (by decide),
    txnRecord_bytes (c := .qpp) (by decide), if_neg (Nat.not_le.2 ha), hp, hw,
    if_neg (Nat.not_lt.2 hpage)]
  rfl

/-- `SE4K` with WEL = 1 is accepted (43 R302). -/
theorem chipTake_se4k (h : ChipReady k) (hw : sr1Wel k.sr1 = true)
    (ha : x.addr.toNat < Config.capacity)
    (hp : protects k (blockBase x.addr.toNat) Config.eraseBlock = false) :
    chipTake .se4k (txnRecord .se4k x b []) 0 k =
      .answer { k with
        pending := .erase (blockBase x.addr.toNat) Config.eraseBlock
        sr1 := sr1WithBusy k.sr1 true, vwe := false } [] := by
  rw [chipTake_rule h.1 (txnRecord_instr ..) (txnRecord_shape ..) rfl
    (.inl h.2.1) (.inl h.2.2) (.inl (txnRecord_hasQuad ..))]
  simp only [chipRule, chipSe4k, txnRecord_address (c := .se4k) (by decide),
    if_neg (Nat.not_le.2 ha), hp, hw]
  rfl

/-- `CE` with WEL = 1 is accepted (43 R303). -/
theorem chipTake_ce (h : ChipReady k) (hw : sr1Wel k.sr1 = true)
    (hp : protects k 0 Config.capacity = false) :
    chipTake .ce (txnRecord .ce x b []) 0 k =
      .answer { k with
        pending := .erase 0 Config.capacity, sr1 := sr1WithBusy k.sr1 true, vwe := false } [] := by
  rw [chipTake_rule h.1 (txnRecord_instr ..) (txnRecord_shape ..) rfl
    (.inl h.2.1) (.inl h.2.2) (.inl (txnRecord_hasQuad ..))]
  simp only [chipRule, chipCe, hp, hw]
  rfl

/-- `WRSR2` right after `VWREN` is a volatile write (43 R304). -/
theorem chipTake_wrsr2_volatile (h : ChipReady k) (hv : k.vwe = true) (v : Byte) :
    chipTake .wrsr2 (txnRecord .wrsr2 x b [v]) 1 k =
      .answer { k with
        pending := .wrsr2 v true, sr1 := sr1WithBusy k.sr1 true, vwe := false } [] := by
  rw [chipTake_rule h.1 (txnRecord_instr ..) (txnRecord_shape ..) rfl
    (.inl h.2.1) (.inl h.2.2) (.inl (txnRecord_hasQuad ..))]
  simp only [chipRule, chipWrsr2, hv, txnRecord_bytes (c := .wrsr2) (by decide)]
  rfl

end Sys2Proof.Machine
end

