-- ==== Sys2Proof/Laws/Commands.lean ====
section
/-! SUPPORT. What one transaction of `Txn` does for each bus command, and what a poll's first read does:
the lemmas that the operations are run by. -/

namespace Sys2Proof.Machine

/-- A request that no operation overlaps and the lifecycle admits runs its body (10 R32, R33). -/
theorem request_admitted {i : Instr} {s : State} (hs : s.seq = .idle) (ha : admitted i s.life = true)
    (body : State → Result) : request i body s = body { s with current := some i } := by
  simp [request, hs, ha]

variable {s : State}

/-- `Txn(RDPD)` wakes the chip (43 R305). -/
theorem txnBare_rdpd (hb : BusIdle s) (hf : Configured s) (hc : s.chip.crm = false)
    (hp : s.chip.pending = .none) :
    txnBare .rdpd s = .next { s with
      regs := afterTxn 0x000001AB s.regs
      chip := { s.chip with pwr := .active, vwe := false }
      rx := []
      trace := s.trace ++ [bareTxn 0xAB false] } := by
  have h := txn_spec .rdpd {} s _ _ (by decide) hb hf.2.1 hf.1 (by simp [argsFit, BusCmd.descriptor,
    Descriptor.bare]) (chipTake_rdpd _ _ hc hp) (by simp [BusCmd.descriptor, Descriptor.bare])
  rw [chipChance_idle (by exact hp)] at h
  exact h

/-- `Txn(VWREN)` sets VWE (43 R299). -/
theorem txnBare_vwren (hb : BusIdle s) (hf : Configured s) (hc : ChipReady s.chip) :
    txnBare .vwren s = .next { s with
      regs := afterTxn 0x00000150 s.regs
      chip := { s.chip with vwe := true }
      rx := []
      trace := s.trace ++ [bareTxn 0x50 false] } := by
  have h := txn_spec .vwren {} s _ _ (by decide) hb hf.2.1 hf.1 (by simp [argsFit, BusCmd.descriptor,
    Descriptor.bare]) (chipTake_vwren _ _ hc) (by simp [BusCmd.descriptor, Descriptor.bare])
  rw [chipChance_idle (by exact hc.2.2)] at h
  exact h

/-- `Txn(WREN)` sets WEL (43 R298). -/
theorem txnBare_wren (hb : BusIdle s) (hf : Configured s) (hc : ChipReady s.chip) :
    txnBare .wren s = .next { s with
      regs := afterTxn 0x00000106 s.regs
      chip := { s.chip with sr1 := sr1WithWel s.chip.sr1 true, vwe := false }
      rx := []
      trace := s.trace ++ [bareTxn 0x06 false] } := by
  have h := txn_spec .wren {} s _ _ (by decide) hb hf.2.1 hf.1 (by simp [argsFit, BusCmd.descriptor,
    Descriptor.bare]) (chipTake_wren _ _ hc) (by simp [BusCmd.descriptor, Descriptor.bare])
  rw [chipChance_idle (by exact hc.2.2)] at h
  exact h

/-- `Txn(RDSR1)` of one byte reads SR1; CHIP then has its opportunity (43 R296). -/
theorem txnRead1_rdsr1 (hb : BusIdle s) (hf : Configured s) (hc : ChipAwake s.chip) :
    txnRead1 .rdsr1 s = .next (chipChance { s with
      regs := { afterTxn 0x05000105 s.regs with dlr := 0 }
      chip := { s.chip with vwe := false }
      rx := [s.chip.sr1]
      trace := s.trace ++ [statusTxn 0x05 [s.chip.sr1] false] }) :=
  txn_spec .rdsr1 { n := 1 } s _ _ (by decide) hb hf.2.1 hf.1 (by simp [argsFit, BusCmd.descriptor,
    Descriptor.bare, Config.capacity]) (chipTake_rdsr1 _ _ hc (by decide)) (by simp)

/-- `Txn(RDSR2)` of one byte reads SR2; CHIP then has its opportunity (43 R297). -/
theorem txnRead1_rdsr2 (hb : BusIdle s) (hf : Configured s) (hc : ChipAwake s.chip) :
    txnRead1 .rdsr2 s = .next (chipChance { s with
      regs := { afterTxn 0x05000135 s.regs with dlr := 0 }
      chip := { s.chip with vwe := false }
      rx := [s.chip.sr2]
      trace := s.trace ++ [statusTxn 0x35 [s.chip.sr2] false] }) :=
  txn_spec .rdsr2 { n := 1 } s _ _ (by decide) hb hf.2.1 hf.1 (by simp [argsFit, BusCmd.descriptor,
    Descriptor.bare, Config.capacity]) (chipTake_rdsr2 _ _ hc (by decide)) (by simp)

/-- `Txn(RDID, addr = 0)` of two bytes, with the toggle on, reads the two ID bytes (43 R300). -/
theorem txn_rdid (hb : BusIdle s) (hf : dcrFsize s.regs.dcr = BitVec.ofNat 5 Config.fsize)
    (hs : crSshift s.regs.cr = true) (hc : ChipReady s.chip) :
    txn .rdid { n := 2 } s = .next { s with
      regs := { afterTxn 0x05002590 s.regs with dlr := 1, ar := 0 }
      chip := { s.chip with vwe := false }
      rx := [s.chip.mfrId, s.chip.devId]
      trace := s.trace ++ [rdidTxn [s.chip.mfrId, s.chip.devId] true] } := by
  have h := txn_spec .rdid { n := 2 } s _ _ (by decide) hb hs hf (by simp [argsFit, BusCmd.descriptor,
    Descriptor.bare, Config.capacity]) (chipTake_rdid _ _ hc rfl) (by simp)
  rw [chipChance_idle (by exact hc.2.2)] at h
  exact h

/-- `Txn(WRSR2)` right after `VWREN` starts a volatile write of SR2 (43 R304). -/
theorem txn_wrsr2 (hb : BusIdle s) (hf : Configured s) (hc : ChipReady s.chip)
    (hv : s.chip.vwe = true) (v : Byte) :
    txn .wrsr2 { out := [v], n := 1 } s = .next (chipChance { s with
      regs := { afterTxn 0x01000131 s.regs with dlr := 0 }
      chip := { s.chip with
        pending := .wrsr2 v true, sr1 := sr1WithBusy s.chip.sr1 true, vwe := false }
      rx := []
      trace := s.trace ++ [wrsr2Txn v false] }) :=
  txn_spec .wrsr2 { out := [v], n := 1 } s _ _ (by decide) hb hf.2.1 hf.1 (by simp [argsFit,
    BusCmd.descriptor, Descriptor.bare, Config.capacity]) (chipTake_wrsr2_volatile _ _ hc hv v)
    (by simp [BusCmd.descriptor, Descriptor.bare])

/-- A 24-bit address register holds a flash address of 32 bits whole (20 R93). -/
theorem lowBytes_three_ofAddr (a : BitVec 24) : lowBytes 3 (a.setWidth 32) = a.setWidth 32 :=
  lowBytes_three (by have := a.isLt; simp; omega)

/-- `Txn(QREAD)` reads the array in address order (43 R306). -/
theorem txn_qread (hb : BusIdle s) (hf : Configured s) (hc : ChipReady s.chip)
    (hq : sr2Qe s.chip.sr2 = true) {a : Word} {n : Nat} (hn : 1 ≤ n)
    (ha : a.toNat + n ≤ Config.capacity) :
    txn .qread { addr := a.setWidth 24, n := n } s = .next { s with
      regs := { afterTxn 0x07182DEB s.regs with dlr := BitVec.ofNat 32 (n - 1), ar := a }
      chip := { s.chip with vwe := false }
      rx := s.chip.array.readRange a.toNat n
      trace := s.trace ++ [qreadTxn a (s.chip.array.readRange a.toNat n) false] } := by
  have ha' : a.toNat < Config.capacity := by omega
  have h24 : (a.setWidth 24).toNat = a.toNat := by
    unfold Config.capacity at ha'; simp; omega
  have h32 := addr24_roundtrip ha'
  have hl : lowBytes 3 a = a := lowBytes_three (by unfold Config.capacity at ha'; omega)
  have h := txn_spec .qread { addr := a.setWidth 24, n := n } s _ _ (by decide) hb hf.2.1 hf.1
    ⟨by simp [BusCmd.descriptor], fun _ => hn, by simp; omega, by simp [BusCmd.descriptor],
      fun _ => by simpa [h24] using ha'⟩
    (chipTake_qread _ _ hc hq hn (by rw [h24]; exact ha)) (by simp)
  rw [chipChance_idle (by exact hc.2.2)] at h
  simp only [h24] at h
  rw [h]
  simp [txnRegs, afterTxn, h32, BusCmd.descriptor, Descriptor.bare, BusCmd.word, gotBytes,
    movedBytes, txnRecord, buildTxn, instrPhase, bytesPhase, dataPhase, qreadTxn, BusCmd.opcode, lateSampled, sizeBytes, hl]

/-- `Txn(QPP)` with WEL = 1 starts a program of at most a page (43 R301). -/
theorem txn_qpp (hb : BusIdle s) (hf : Configured s) (hc : ChipReady s.chip)
    (hq : sr2Qe s.chip.sr2 = true) (hw : sr1Wel s.chip.sr1 = true) (hpr : s.chip.prot = [])
    {a : Nat} {d : List Byte} (hd : 1 ≤ d.length) (hpage : a % 256 + d.length ≤ 256)
    (ha : a < 8388608) :
    txn .qpp { addr := BitVec.ofNat 24 a, out := d, n := d.length } s = .next (chipChance { s with
      regs := { afterTxn 0x03002532 s.regs with
        dlr := BitVec.ofNat 32 (d.length - 1), ar := BitVec.ofNat 32 a }
      chip := { s.chip with
        pending := .program a d, sr1 := sr1WithBusy s.chip.sr1 true, vwe := false }
      rx := []
      trace := s.trace ++ [qppTxn (BitVec.ofNat 32 a) d false] }) := by
  have h24 : (BitVec.ofNat 24 a).toNat = a := by simp; omega
  have h32 : (BitVec.ofNat 24 a).setWidth 32 = BitVec.ofNat 32 a := by
    apply BitVec.eq_of_toNat_eq; simp; omega
  have hl : lowBytes 3 (BitVec.ofNat 32 a) = BitVec.ofNat 32 a :=
    lowBytes_three (by simp; omega)
  have h := txn_spec .qpp { addr := BitVec.ofNat 24 a, out := d, n := d.length } s _ _ (by decide) hb
    hf.2.1 hf.1
    ⟨by simp [BusCmd.descriptor], fun _ => hd, by simp [Config.capacity]; omega,
      fun _ => rfl, fun _ => by rw [h24]; exact ha⟩
    (chipTake_qpp _ _ hc hq hw hd (by rw [h24]; exact hpage) (by rw [h24]; exact ha)
      (protects_nil hpr _ _)) (by simp [BusCmd.descriptor, Descriptor.bare])
  rw [h]
  simp [txnRegs, afterTxn, h24, h32, BusCmd.descriptor, Descriptor.bare, BusCmd.word, gotBytes,
    movedBytes, sentBytes, txnRecord, buildTxn, instrPhase, bytesPhase, dataPhase, qppTxn, BusCmd.opcode, lateSampled, sizeBytes, hl]
  rfl

/-- `Txn(SE4K)` with WEL = 1 starts the erase of the aligned block (43 R302). -/
theorem txn_se4k (hb : BusIdle s) (hf : Configured s) (hc : ChipReady s.chip)
    (hw : sr1Wel s.chip.sr1 = true) (hpr : s.chip.prot = []) {a : Word} (ha : a.toNat < 8388608) :
    txn .se4k { addr := a.setWidth 24 } s = .next (chipChance { s with
      regs := { afterTxn 0x00002520 s.regs with ar := a }
      chip := { s.chip with
        pending := .erase (blockBase a.toNat) Config.eraseBlock
        sr1 := sr1WithBusy s.chip.sr1 true, vwe := false }
      rx := []
      trace := s.trace ++ [se4kTxn a false] }) := by
  have h24 : (a.setWidth 24).toNat = a.toNat := by simp; omega
  have h32 := addr24_roundtrip ha
  have hl : lowBytes 3 a = a := lowBytes_three (by omega)
  have h := txn_spec .se4k { addr := a.setWidth 24 } s _ _ (by decide) hb hf.2.1 hf.1
    ⟨fun _ => rfl, fun h => absurd rfl h, by simp, by simp,
      fun _ => by rw [h24]; exact ha⟩
    (chipTake_se4k _ _ hc hw (by rw [h24]; exact ha) (protects_nil hpr _ _))
    (by simp [BusCmd.descriptor, Descriptor.bare])
  rw [h]
  simp [txnRegs, afterTxn, h24, h32, BusCmd.descriptor, Descriptor.bare, BusCmd.word, gotBytes,
    txnRecord, buildTxn, instrPhase, bytesPhase, dataPhase, se4kTxn, BusCmd.opcode, lateSampled, sizeBytes, hl]
  rfl

/-- `Txn(CE)` with WEL = 1 starts the erase of the whole array (43 R303). -/
theorem txnBare_ce (hb : BusIdle s) (hf : Configured s) (hc : ChipReady s.chip)
    (hw : sr1Wel s.chip.sr1 = true) (hpr : s.chip.prot = []) :
    txnBare .ce s = .next (chipChance { s with
      regs := afterTxn 0x000001C7 s.regs
      chip := { s.chip with
        pending := .erase 0 Config.capacity, sr1 := sr1WithBusy s.chip.sr1 true, vwe := false }
      rx := []
      trace := s.trace ++ [bareTxn 0xC7 false] }) :=
  txn_spec .ce {} s _ _ (by decide) hb hf.2.1 hf.1 (by simp [argsFit, BusCmd.descriptor,
    Descriptor.bare]) (chipTake_ce _ _ hc hw (protects_nil hpr _ _))
    (by simp [BusCmd.descriptor, Descriptor.bare])

/-- CHIP's opportunity while an operation is pending and the schedule has an entry (43 R307). -/
theorem chipChance_cons (hp : s.chip.pending ≠ .none) {b : Bool} {rest : List Bool}
    (hs : s.schedule = b :: rest) :
    chipChance s = { s with
      chip := if b then chipComplete s.chip else s.chip
      schedule := rest
      chances := s.chances + 1 } := by
  simp [chipChance, hp, chipMoves, hs]

/-- One iteration of a poll: one `RDSR1`, CHIP's opportunity, and then on or round again (40 R183). -/
theorem pollThen_read (hb : BusIdle s) (hf : Configured s) (hc : ChipAwake s.chip) (w : PollCont)
    (k : State → Result) :
    pollThen w k s =
      let t := chipChance { s with
        regs := { afterTxn 0x05000105 s.regs with dlr := 0 }
        chip := { s.chip with vwe := false }
        rx := [s.chip.sr1]
        trace := s.trace ++ [statusTxn 0x05 [s.chip.sr1] false] }
      if sr1Busy s.chip.sr1 then .next { t with seq := .polling w } else k t := by
  unfold pollThen
  rw [txnRead1_rdsr1 hb hf hc, andThen_next]
  simp

end Sys2Proof.Machine
end

