-- ==== Sys2Proof/Laws/Decode.lean ====
section
/-! SUPPORT. The bytes of a length that stand in a request's frame beyond its operand word (log 2). -/

namespace Sys2Proof

/-- A number is that of its bytes, when the count bound is enough for it. -/
theorem bytesNat_natBytes : ∀ (fuel m : Nat), m ≤ fuel → bytesNat (natBytes fuel m) = m
  | 0, m, h => by simp [natBytes, bytesNat, Nat.le_zero.1 h]
  | fuel + 1, m, h => by
    unfold natBytes
    split
    · simp_all [bytesNat]
    · have ih := bytesNat_natBytes fuel (m / 256) (by omega)
      simp only [bytesNat, ih, BitVec.toNat_ofNat]
      omega

/-- The bytes of a number do not end in a zero. -/
theorem natBytes_getLast : ∀ (fuel m : Nat), m ≤ fuel → (natBytes fuel m).getLast? ≠ some 0
  | 0, _, _ => by simp [natBytes]
  | fuel + 1, m, h => by
    unfold natBytes
    split
    · simp
    · rename_i hm
      have ih := natBytes_getLast fuel (m / 256) (by omega)
      cases hl : natBytes fuel (m / 256) with
      | nil =>
        have h0 : m / 256 = 0 := by
          rw [← bytesNat_natBytes fuel (m / 256) (by omega), hl]
          rfl
        intro hb
        have := congrArg (Option.map BitVec.toNat) hb
        simp at this
        omega
      | cons b l =>
        rw [hl] at ih
        simpa [List.getLast?_cons_cons] using ih

/-- A length is in its frame whole: 32 bits in the operand word, the rest in the data bytes. -/
theorem length_in_frame (n : Nat) :
    (BitVec.ofNat 32 n).toNat + 2 ^ 32 * bytesNat (natBytes (n / 2 ^ 32) (n / 2 ^ 32)) = n := by
  rw [bytesNat_natBytes _ _ (Nat.le_refl _), BitVec.toNat_ofNat]
  omega

end Sys2Proof
end

