-- ==== Sys2Proof/Laws/Ops.lean ====
section
/-! SUPPORT. What the shared operations can do, said once each: the chip's answer, the start of an
indirect bus command, the window read. -/

namespace Sys2Proof.Machine

/-! ### The bits of SR1 -/

theorem sr1Wel_withBusy (v : Byte) (b : Bool) : sr1Wel (sr1WithBusy v b) = sr1Wel v := by
  revert v b; decide

theorem sr1Busy_withBusy (v : Byte) (b : Bool) : sr1Busy (sr1WithBusy v b) = b := by
  revert v b; decide

theorem sr1Busy_withWel (v : Byte) (b : Bool) : sr1Busy (sr1WithWel v b) = sr1Busy v := by
  revert v b; decide

theorem sr1Wel_withWel (v : Byte) (b : Bool) : sr1Wel (sr1WithWel v b) = b := by
  revert v b; decide

/-- Setting BUSY, as the masks of the statements write it. -/
theorem sr1WithBusy_true (v : Byte) : sr1WithBusy v true = v ||| 0x01 := by
  revert v; decide

/-- Setting WEL, as the masks of the statements write it. -/
theorem sr1WithWel_true (v : Byte) : sr1WithWel v true = v ||| 0x02 := by
  revert v; decide

/-! ### The chip's answer -/

/-- What an answered command can change of the chip: SR1, VWE, the power state, continuous-read mode and
the pending operation; WEL only for `WREN` (10 R71); and BUSY rises exactly when an operation starts
(10 R67). -/
structure Answered (c : BusCmd) (k k' : Chip) : Prop where
  frame : k' = { k with
    sr1 := k'.sr1, vwe := k'.vwe, pwr := k'.pwr, crm := k'.crm, pending := k'.pending }
  wel : c ≠ .wren → sr1Wel k'.sr1 = sr1Wel k.sr1
  pending : (k'.pending = k.pending ∧ sr1Busy k'.sr1 = sr1Busy k.sr1) ∨
    (k'.pending ≠ .none ∧ sr1Busy k'.sr1 = true ∧
      ∀ a d, k'.pending = .program a d → a % 256 + d.length ≤ 256 ∧ a < 8388608)

theorem chipRule_answer {c : BusCmd} {x : BusTxn} {n : Nat} {k k' : Chip} {b : List Byte}
    (h : chipRule c x n k = .answer k' b) : Answered c k k' := by
  cases c <;>
    simp only [chipRule, chipWren, chipVwren, chipRdpd, chipRdsr1, chipRdsr2, chipRdid, chipWrsr2,
      chipQread, chipQpp, chipSe4k, chipCe, chipMmread] at h
  all_goals (repeat' split at h) <;> first | (cases h; done) | skip
  all_goals (cases h; constructor <;>
    simp [chipStart, sr1Wel_withBusy, sr1Busy_withBusy, sr1Busy_withWel])
  rename_i h1 h2 h3 h4
  right
  unfold Config.capacity at h4
  unfold Config.pageSize at h3
  omega

theorem chipTake_answer {c : BusCmd} {x : BusTxn} {n : Nat} {k k' : Chip} {b : List Byte}
    (h : chipTake c x n k = .answer k' b) : Answered c k k' := by
  unfold chipTake chipContinuation at h
  (repeat' split at h) <;> first | (cases h; done) | skip
  · cases h
    constructor <;> simp
  · cases hr : chipRule c x n k with
    | answer k1 b1 =>
      rw [hr] at h
      simp only [afterRule] at h
      cases h
      obtain ⟨h1, h2, h3⟩ := chipRule_answer hr
      constructor
      · split
        · exact h1
        · dsimp only; rw [h1]
      · split <;> exact h2
      · split <;> exact h3
    | _ => rw [hr] at h; cases h

/-- The chip ignores a transaction only in deep power-down (43 R295 step 5). -/
theorem chipTake_ignored {c : BusCmd} {x : BusTxn} {n : Nat} {k : Chip}
    (h : chipTake c x n k = .ignored) : k.pwr = .deepPd ∧ c ≠ .rdpd := by
  unfold chipTake chipContinuation at h
  (repeat' split at h) <;> first | (cases h; done) | skip
  · assumption
  · cases hr : chipRule c x n k <;> rw [hr] at h <;> simp [afterRule] at h
    cases c <;>
      simp only [chipRule, chipWren, chipVwren, chipRdpd, chipRdsr1, chipRdsr2, chipRdid, chipWrsr2,
        chipQread, chipQpp, chipSe4k, chipCe, chipMmread] at hr <;>
      ((repeat' split at hr) <;> cases hr)

/-- Protection of a range: one of its addresses is covered (10 R66, 43 R301). -/
theorem protects_iff (k : Chip) (a n : Nat) :
    protects k a n = true ↔
      ∃ r ∈ k.prot, ∃ x, r.base ≤ x ∧ x < r.base + r.n ∧ a ≤ x ∧ x < a + n := by
  have h (r : Range) : max a r.base < min (a + n) (r.base + r.n) ↔
      ∃ x, r.base ≤ x ∧ x < r.base + r.n ∧ a ≤ x ∧ x < a + n := by
    constructor
    · intro h
      exact ⟨max a r.base, by omega⟩
    · rintro ⟨x, h⟩
      omega
  simp [protects, ← h]

/-! ### The transaction that an indirect command starts -/

/-- The bytes an indirect command sends: those queued in `DR` (10 R50). -/
def queuedBytes (c : BusCmd) (s : State) : List Byte :=
  if c.descriptor.fmode = .indirectWrite then
    s.regs.fifo.take (dataLength c.descriptor s.regs.dlr)
  else []

/-- The transaction an indirect command starts from the registers (40 R171). -/
def rawTxn (c : BusCmd) (s : State) : BusTxn :=
  buildTxn c.descriptor s.regs.ar s.regs.abr true (crSshift s.regs.cr) (queuedBytes c s)

/-- The bytes an outward data phase needs are queued. -/
def Queued (c : BusCmd) (s : State) : Prop :=
  c.descriptor.fmode = .indirectWrite →
    dataLength c.descriptor s.regs.dlr ≤ s.regs.fifo.length

theorem rawTxn_shape (c : BusCmd) (s : State) : (rawTxn c s).shape = cmdShape c true := by
  cases c <;> rfl

theorem rawTxn_instr (c : BusCmd) (s : State) : (rawTxn c s).instr.isSome = true := by
  cases c <;> rfl

theorem rawTxn_hasQuad (c : BusCmd) (s : State) :
    (rawTxn c s).hasQuad = (c == .qread || c == .qpp || c == .mmread) := by
  cases c <;> rfl

theorem rawTxn_address {c : BusCmd} (h : c.descriptor.admode ≠ .none) (s : State) :
    (rawTxn c s).address = (s.regs.ar &&& 0x00FFFFFF).toNat := by
  cases c <;> first | exact absurd rfl h | rfl

theorem rawTxn_bytes {c : BusCmd} (h : c.descriptor.dmode ≠ .none) (s : State) :
    (rawTxn c s).bytes = queuedBytes c s := by
  cases c <;> first | exact absurd rfl h | rfl

/-- The chip's operand check on an indirect command is that of its row (30 R145). -/
theorem rowOperands_fit (c : BusCmd) (hm : c ≠ .mmread) (s : State) :
    operandsFit c (rawTxn c s) (dataLength c.descriptor s.regs.dlr) = rowOperands c s.regs := by
  have h0 : ∀ v : Word, v = 0 ↔ v.toNat = 0 := fun v =>
    ⟨fun h => by rw [h]; rfl, fun h => BitVec.eq_of_toNat_eq (by rw [h]; rfl)⟩
  cases c <;>
    simp [operandsFit, rowOperands, dataLength, BusCmd.descriptor, Descriptor.bare] at hm ⊢
  · exact (h0 _).symm
  · rw [rawTxn_address (by decide)]
    congr 1
    rw [Bool.eq_iff_iff, beq_iff_eq, beq_iff_eq]
    exact (h0 _).symm

variable {c : BusCmd} {s : State}

theorem startIndirect_eq (hu : busUp s = true) (hz : s.regs.sr.busy = false) (hq : Queued c s) :
    startIndirect c s =
      match chipTake c (rawTxn c s) (dataLength c.descriptor s.regs.dlr) s.chip with
      | .answer k b => .next (receiveIndirect c (rawTxn c s) (dataLength c.descriptor s.regs.dlr) k b
          (beginTxn c.descriptor (dataLength c.descriptor s.regs.dlr) (writeCcr c.word s)))
      | .ignored => .next (receiveIgnored c (rawTxn c s) (dataLength c.descriptor s.regs.dlr)
          (beginTxn c.descriptor (dataLength c.descriptor s.regs.dlr) (writeCcr c.word s)))
      | .fault f => raiseFault f (some s.trace.length) (emit (rawTxn c s)
          (beginTxn c.descriptor (dataLength c.descriptor s.regs.dlr) (writeCcr c.word s)))
      | .refuse r => refuse r (some s.trace.length) (emit (rawTxn c s)
          (beginTxn c.descriptor (dataLength c.descriptor s.regs.dlr) (writeCcr c.word s))) := by
  have hn : ¬ (c.descriptor.fmode = .indirectWrite ∧
      s.regs.fifo.length < dataLength c.descriptor s.regs.dlr) := by
    rintro ⟨h1, h2⟩
    have := hq h1
    omega
  unfold startIndirect
  simp only [hu, hz, writeCcr_regs, hn, Bool.not_true, Bool.false_eq_true, if_false]
  rfl

/-- What a started indirect command leaves: the chip's answer, its word in `CCR`, BUSY, the FIFO, TEF,
and one more transaction in the trace, `WREN`'s being a bare one. -/
structure Started (c : BusCmd) (s t : State) : Prop where
  chip : t.chip = s.chip ∨ Answered c s.chip t.chip
  rest : ∃ r,
    t = { s with
      chip := t.chip, draws := t.draws, trace := s.trace ++ [r]
      regs := { s.regs with
        ccr := c.word, siooSent := false, fifo := t.regs.fifo
        sr := { s.regs.sr with busy := true, tef := t.regs.sr.tef } } } ∧
    (c = .wren → r = bareTxn 0x06 (crSshift s.regs.cr))

theorem startIndirect_next {t : State} (h : startIndirect c s = .next t) : Started c s t := by
  unfold startIndirect at h
  split at h
  · cases h
  · split at h
    · cases h
    · extract_lets idx d s1 n at h
      split at h
      · cases h
      · split at h
        · rename_i k b hk
          cases h
          constructor
          · right
            unfold receiveIndirect
            split <;> exact chipTake_answer hk
          · unfold receiveIndirect
            split <;> exact ⟨_, rfl, by rintro rfl; rfl⟩
        · cases h
          constructor
          · left
            unfold receiveIgnored
            split <;> rfl
          · unfold receiveIgnored
            split <;> exact ⟨_, rfl, by rintro rfl; rfl⟩
        · cases h
        · cases h

/-- A refused indirect command records the request and the transaction it started, and leaves the chip as
it was. -/
theorem startIndirect_refused {r : Refusal} (h : startIndirect c s = .refused r) {e : RefCode}
    {x : Stopped} (hx : stopOf r = some (e, x)) :
    x.request = s.current.map .op ∧
      ∃ t, x.state = { s with
        trace := s.trace ++ [t]
        regs := { s.regs with
          ccr := c.word, siooSent := false, fifo := x.state.regs.fifo
          sr := { s.regs.sr with busy := true, tef := x.state.regs.sr.tef } } } := by
  unfold startIndirect at h
  split at h
  · cases h
  · split at h
    · cases h
    · extract_lets idx d s1 n out tx s2 at h
      split at h
      · unfold refuse at h
        cases h
        cases hx
        exact ⟨rfl, _, rfl⟩
      · split at h
        · cases h
        · cases h
        · cases h
        · rename_i r hr
          unfold refuse at h
          cases h
          cases r <;> cases hx <;> exact ⟨rfl, _, rfl⟩

/-- A transaction whose descriptor is no row's never completes. -/
theorem startUnlisted_next {e : DescError} {t : State} : startUnlisted e s ≠ .next t := by
  unfold startUnlisted
  intro h
  dsimp only at h
  (repeat' split at h) <;> cases h

/-- A refused transaction whose descriptor is no row's is recorded and leaves the chip as it was. -/
theorem startUnlisted_refused {d : DescError} {r : Refusal} (h : startUnlisted d s = .refused r)
    {e : RefCode} {x : Stopped} (hx : stopOf r = some (e, x)) :
    ∃ t, x.state = { s with
      trace := s.trace ++ [t]
      regs := { s.regs with
        fifo := x.state.regs.fifo
        sr := { s.regs.sr with busy := true, tef := x.state.regs.sr.tef } } } := by
  unfold startUnlisted at h
  dsimp only at h
  (repeat' split at h) <;>
    first
    | (cases h; done)
    | (unfold refuse at h; cases h; cases hx; exact ⟨_, rfl⟩)

/-! ### The window read -/

@[simp] theorem descriptorRefusal_mmread : descriptorRefusal BusCmd.mmread.word = none := by decide

/-- The same of the word as simp writes it once `BusCmd.word` is unfolded. -/
@[simp] theorem descriptorRefusal_mmread_word : descriptorRefusal 0x1F10EDEB#32 = none := by decide

/-- Of a word outside the table a window access is refused but in the last case of 30 R148. -/
theorem descriptorRefusal_error {w : Word} {e : DescError} (h : decodeDescriptor w = .error e) :
    descriptorRefusal w = none ↔ e = .shape := by
  unfold descriptorRefusal
  rw [h]
  cases e <;> simp

/-- What a window read leaves: the chip's answer, the bytes for the CPU, `SR.BUSY`, and that the
instruction phase has been sent (41 R217). -/
theorem startWindow_next {a : WindowAccess} {t : State} (h : startWindow a s = .next t) :
    (t.chip = s.chip ∨ Answered .mmread s.chip t.chip) ∧
    t = { s with
      chip := t.chip, draws := t.draws, rx := t.rx, windowTrace := t.windowTrace
      regs := { s.regs with siooSent := true, sr := { s.regs.sr with busy := true } } } ∧
    s.windowTrace <+: t.windowTrace := by
  unfold startWindow at h
  split at h
  · cases h
  · split at h
    · cases h
    · split at h
      · cases h
      · split at h
        · cases h
        · split at h
          · cases h
          · extract_lets tx s1 at h
            split at h
            · rename_i k b hk
              cases h
              exact ⟨.inr (chipTake_answer hk), rfl, List.prefix_append _ _⟩
            · cases h
              exact ⟨.inl rfl, rfl, List.prefix_append _ _⟩
            · cases h
            · cases h

/-- A refused window access: a word outside the table met in `CCR`, with no state changed (30 R148), or the
chip's refusal, with the transaction recorded. -/
theorem startWindow_refused {a : WindowAccess} {r : Refusal} (h : startWindow a s = .refused r)
    {e : RefCode} {x : Stopped} (hx : stopOf r = some (e, x)) :
    (descriptorRefusal s.regs.ccr = some e ∧ x.state = s) ∨
    ∃ t, x.state = { s with
      windowTrace := s.windowTrace ++ [t]
      regs := { s.regs with siooSent := true, sr := { s.regs.sr with busy := true } } } := by
  unfold startWindow at h
  split at h
  · cases h
  · split at h
    · rename_i c hc
      unfold refuse at h
      cases h
      cases c <;> cases hx <;> exact .inl ⟨hc, rfl⟩
    · split at h
      · cases h
      · split at h
        · cases h
        · split at h
          · cases h
          · extract_lets tx s1 at h
            split at h
            · cases h
            · cases h
            · cases h
            · rename_i r hr
              unfold refuse at h
              cases h
              cases r <;> cases hx <;> exact .inr ⟨_, rfl⟩

end Sys2Proof.Machine
end

