-- ==== Sys2Proof/Laws/PerInstr.lean ====
section
/-! SUPPORT. What the encoding of each instruction is, one lemma per constructor: a bus command's row word,
or a request frame of an operation. -/

namespace Sys2Proof

/-- An instruction is encoded as its row's descriptor word (30 R145), or as a request frame whose code is
not the reserved one (30 R150). -/
def Laws.EncodingForm.Statement (i : Instr) : Prop :=
  (∃ c : BusCmd, c.instr = i ∧ encode i = .descriptor c.word) ∨
    (∃ f : Frame, encode i = .request f.bytes ∧ f.opk ≠ 0xF)

theorem Laws.EncodingForm.wren : Laws.EncodingForm.Statement .wren :=
  .inl ⟨.wren, rfl, rfl⟩

theorem Laws.EncodingForm.vwren : Laws.EncodingForm.Statement .vwren :=
  .inl ⟨.vwren, rfl, rfl⟩

theorem Laws.EncodingForm.rdpd : Laws.EncodingForm.Statement .rdpd :=
  .inl ⟨.rdpd, rfl, rfl⟩

theorem Laws.EncodingForm.wrsr2 : Laws.EncodingForm.Statement .wrsr2 :=
  .inl ⟨.wrsr2, rfl, rfl⟩

theorem Laws.EncodingForm.rdsr1 : Laws.EncodingForm.Statement .rdsr1 :=
  .inl ⟨.rdsr1, rfl, rfl⟩

theorem Laws.EncodingForm.rdsr2 : Laws.EncodingForm.Statement .rdsr2 :=
  .inl ⟨.rdsr2, rfl, rfl⟩

theorem Laws.EncodingForm.rdid : Laws.EncodingForm.Statement .rdid :=
  .inl ⟨.rdid, rfl, rfl⟩

theorem Laws.EncodingForm.qread : Laws.EncodingForm.Statement .qread :=
  .inl ⟨.qread, rfl, rfl⟩

theorem Laws.EncodingForm.qpp : Laws.EncodingForm.Statement .qpp :=
  .inl ⟨.qpp, rfl, rfl⟩

theorem Laws.EncodingForm.se4k : Laws.EncodingForm.Statement .se4k :=
  .inl ⟨.se4k, rfl, rfl⟩

theorem Laws.EncodingForm.ce : Laws.EncodingForm.Statement .ce :=
  .inl ⟨.ce, rfl, rfl⟩

theorem Laws.EncodingForm.mmread : Laws.EncodingForm.Statement .mmread :=
  .inl ⟨.mmread, rfl, rfl⟩

theorem Laws.EncodingForm.busBringup (p f cs ck : Word) :
    Laws.EncodingForm.Statement (.busBringup p f cs ck) :=
  .inr ⟨_, rfl, (by decide : (0x0 : BitVec 4) ≠ 0xF)⟩

theorem Laws.EncodingForm.init :
    Laws.EncodingForm.Statement .init :=
  .inr ⟨_, rfl, (by decide : (0x1 : BitVec 4) ≠ 0xF)⟩

theorem Laws.EncodingForm.intoMemoryMapped :
    Laws.EncodingForm.Statement .intoMemoryMapped :=
  .inr ⟨_, rfl, (by decide : (0x2 : BitVec 4) ≠ 0xF)⟩

theorem Laws.EncodingForm.readBytes (a : Word) (n : Nat) :
    Laws.EncodingForm.Statement (.readBytes a n) :=
  .inr ⟨_, rfl, (by decide : (0x3 : BitVec 4) ≠ 0xF)⟩

theorem Laws.EncodingForm.programPage (a : Word) (d : List Byte) :
    Laws.EncodingForm.Statement (.programPage a d) :=
  .inr ⟨_, rfl, (by decide : (0x4 : BitVec 4) ≠ 0xF)⟩

theorem Laws.EncodingForm.blockErase4k (a : Word) :
    Laws.EncodingForm.Statement (.blockErase4k a) :=
  .inr ⟨_, rfl, (by decide : (0x5 : BitVec 4) ≠ 0xF)⟩

theorem Laws.EncodingForm.chipErase :
    Laws.EncodingForm.Statement .chipErase :=
  .inr ⟨_, rfl, (by decide : (0x6 : BitVec 4) ≠ 0xF)⟩

theorem Laws.EncodingForm.readIds :
    Laws.EncodingForm.Statement .readIds :=
  .inr ⟨_, rfl, (by decide : (0x7 : BitVec 4) ≠ 0xF)⟩

theorem Laws.EncodingForm.readStatusRegister1 :
    Laws.EncodingForm.Statement .readStatusRegister1 :=
  .inr ⟨_, rfl, (by decide : (0x8 : BitVec 4) ≠ 0xF)⟩

theorem Laws.EncodingForm.readStatusRegister2 :
    Laws.EncodingForm.Statement .readStatusRegister2 :=
  .inr ⟨_, rfl, (by decide : (0x9 : BitVec 4) ≠ 0xF)⟩

theorem Laws.EncodingForm.writeEnable :
    Laws.EncodingForm.Statement .writeEnable :=
  .inr ⟨_, rfl, (by decide : (0xa : BitVec 4) ≠ 0xF)⟩

theorem Laws.EncodingForm.writeDisable :
    Laws.EncodingForm.Statement .writeDisable :=
  .inr ⟨_, rfl, (by decide : (0xb : BitVec 4) ≠ 0xF)⟩

theorem Laws.EncodingForm.waitBusy :
    Laws.EncodingForm.Statement .waitBusy :=
  .inr ⟨_, rfl, (by decide : (0xc : BitVec 4) ≠ 0xF)⟩

theorem Laws.EncodingForm.mmLoad (a w : Word) :
    Laws.EncodingForm.Statement (.mmLoad a w) :=
  .inr ⟨_, rfl, (by decide : (0xd : BitVec 4) ≠ 0xF)⟩

theorem Laws.EncodingForm.mmStore (a w v : Word) :
    Laws.EncodingForm.Statement (.mmStore a w v) :=
  .inr ⟨_, rfl, (by decide : (0xe : BitVec 4) ≠ 0xF)⟩

end Sys2Proof
end

