-- ==== Sys2Proof/Laws/Step.lean ====
section
/-! SUPPORT. What a step can do, said once: a relation between states that holds across each named
operation holds across every step. -/

namespace Sys2Proof.Machine

/-- A run of `n + 1` steps takes its first step and goes on from there. -/
theorem run_succ {s t : State} (h : step s = .next t) (n : Nat) :
    Host.Core.run Sys2Proof.core (n + 1) s = Host.Core.run Sys2Proof.core n t := by
  have gen : ∀ (M : Host.Core) {s t : M.State}, M.step s = .next t →
      Host.Core.run M (n + 1) s = Host.Core.run M n t := by
    intro M s t h
    rw [Host.Core.run, h]
  exact gen Sys2Proof.core h

/-- A relation holds from `s` to whatever an outcome leaves: its next state, or the state in which a
refusal is recorded. A fault has no state to go on from. -/
def Reaches (R : State → State → Prop) (s : State) : Result → Prop
  | .next t => R s t
  | .refused r => ∀ c x, stopOf r = some (c, x) → R s x.state
  | .fault _ => True

/-- The relation holds across each named operation of the machine. -/
structure StepClosed (R : State → State → Prop) : Prop where
  refl : ∀ s, R s s
  trans : ∀ {s t u}, R s t → R t u → R s u
  dlr : ∀ v s, R s (writeDlr v s)
  abr : ∀ v s, R s (writeAbr v s)
  ccr : ∀ v s, R s (writeCcr v s)
  ar : ∀ v s, R s (writeAr v s)
  push : ∀ d s, R s (pushDr d s)
  drain : ∀ n s, R s (drainDr n s)
  fcr : ∀ v s, R s (writeFcr v s)
  sshift : ∀ b s, R s (writeSshift b s)
  periph : ∀ s, R s (periphEnd s)
  chance : ∀ s, R s (chipChance s)
  delay : ∀ s, R s (delayWake s)
  bringup : ∀ p f cs ck s, bringupFits p f cs ck = true →
    R s (writeCr (bringupCr p f) (writeDcr (bringupDcr cs ck) { s with clkEn := true, pinsAf := true }))
  finish : ∀ r s, R s (finish r s)
  seq : ∀ q s, R s { s with seq := q }
  current : ∀ i s, R s { s with current := i }
  window : ∀ w s, R s { s with window := w }
  life : ∀ l s, R s { s with life := l }
  host : ∀ s, R s (takeRequest s)
  mark : ∀ m s, R s { s with marks := s.marks ++ [m], current := none, seq := .idle, window := none }
  indirect : ∀ c s, Reaches R s (startIndirect c s)
  unlisted : ∀ e s, Reaches R s (startUnlisted e s)
  windowRead : ∀ a s, Reaches R s (startWindow a s)

variable {R : State → State → Prop}

theorem Reaches.step (h : StepClosed R) {s t : State} {o : Result} (hst : R s t) (ho : Reaches R t o) :
    Reaches R s o := by
  cases o with
  | next u => exact h.trans hst ho
  | fault f => trivial
  | refused r => exact fun c x hx => h.trans hst (ho c x hx)

theorem Reaches.andThen (h : StepClosed R) {s : State} {o : Result} {k : State → Result}
    (ho : Reaches R s o) (hk : ∀ t, Reaches R t (k t)) : Reaches R s (andThen o k) := by
  cases o with
  | next t => exact (hk t).step h ho
  | fault f => trivial
  | refused r => exact ho

theorem Reaches.refuse (h : StepClosed R) (c : RefCode) (i : Option Nat) (s : State) :
    Reaches R s (refuse c i s) := by
  intro c' x hx
  cases c <;> cases hx <;> exact h.refl s

theorem Reaches.refuseRequest (h : StepClosed R) (c : RefCode) (i : Instr) (s : State) :
    Reaches R s (refuseRequest c i s) := by
  intro c' x hx
  cases c <;> cases hx <;> exact h.refl s

theorem StepClosed.returns (h : StepClosed R) (r : OpResult) (s : State) :
    Reaches R s (.next (Machine.finish r s)) := h.finish r s

theorem StepClosed.stageTxn (h : StepClosed R) (c : BusCmd) (x : TxnArgs) (s : State) :
    R s (stageTxn c x s) := by
  unfold Machine.stageTxn
  extract_lets d s1 s2 s3 s4
  have r1 : R s s1 := by
    unfold s1
    split
    · exact h.dlr _ _
    · exact h.refl _
  have r2 : R s1 s2 := by
    unfold s2
    split
    · exact h.abr _ _
    · exact h.refl _
  have r3 : R s2 s3 := h.ccr _ _
  have r4 : R s3 s4 := by
    unfold s4
    split
    · exact h.ar _ _
    · exact h.refl _
  refine h.trans r1 (h.trans r2 (h.trans r3 (h.trans r4 ?_)))
  split
  · exact h.push _ _
  · exact h.refl _

theorem StepClosed.mmread (h : StepClosed R) (s : State) : Reaches R s (execMmread s) := by
  unfold execMmread
  split
  · split
    · trivial
    · exact h.ccr _ _
  · split
    · exact h.windowRead _ _
    · split
      · trivial
      · exact (h.windowRead _ _).step h (h.ccr _ _)

theorem StepClosed.bus (h : StepClosed R) (c : BusCmd) (s : State) : Reaches R s (execBus c s) := by
  cases c <;> first | exact h.indirect _ s | exact h.mmread s

theorem StepClosed.txn (h : StepClosed R) (c : BusCmd) (x : TxnArgs) (s : State) :
    Reaches R s (txn c x s) := by
  unfold Machine.txn
  split
  · trivial
  · split
    · trivial
    · refine Reaches.andThen h ((h.bus c _).step h (h.stageTxn c x s)) fun t => ?_
      exact h.trans (h.trans (h.drain _ _) (h.trans (h.periph _) (h.fcr _ _))) (h.chance _)

theorem StepClosed.pollThen (h : StepClosed R) (w : PollCont) {k : State → Result}
    (hk : ∀ t, Reaches R t (k t)) (s : State) : Reaches R s (pollThen w k s) := by
  refine Reaches.andThen h (h.txn _ _ _) fun t => ?_
  split
  · exact h.seq _ _
  · exact hk t

theorem StepClosed.pollDone (h : StepClosed R) (s : State) : Reaches R s (pollDone s) :=
  h.pollThen _ (fun t => h.returns _ t) s

theorem StepClosed.finishInit (h : StepClosed R) (s : State) : Reaches R s (finishInit s) :=
  h.trans (h.life .indirect s) (h.finish .unit _)

theorem StepClosed.programChunks (h : StepClosed R) :
    ∀ (l : List (Nat × List Byte)) (s : State), Reaches R s (programChunks l s)
  | [], s => h.finish _ s
  | (a, d) :: l, s => by
    unfold Machine.programChunks programChunk
    refine Reaches.andThen h (Reaches.andThen h (h.txn _ _ _) fun t => h.txn _ _ _) fun t => ?_
    exact h.pollThen _ (h.programChunks l) t

theorem StepClosed.pollStep (h : StepClosed R) (w : PollCont) (s : State) :
    Reaches R s (pollStep w s) := by
  cases w with
  | init => exact h.pollThen _ h.finishInit s
  | program l => exact h.pollThen _ (h.programChunks l) s
  | done => exact h.pollDone s

theorem StepClosed.request (h : StepClosed R) (i : Instr) {body : State → Result} (s : State)
    (hb : Reaches R s (body { s with current := some i })) :
    Reaches R s (Machine.request i body s) := by
  unfold Machine.request
  split
  · exact Reaches.refuseRequest h _ _ _
  · split
    · exact Reaches.refuseRequest h _ _ _
    · exact hb

theorem StepClosed.requestBody (h : StepClosed R) (i : Instr) {body : State → Result} (s : State)
    (hb : ∀ t, Reaches R t (body t)) : Reaches R s (Machine.request i body s) :=
  h.request i s ((hb _).step h (h.current _ _))

theorem StepClosed.eraseWren (h : StepClosed R) (s : State) : Reaches R s (eraseWren s) := by
  unfold Machine.eraseWren
  split
  · exact h.txn _ _ _
  · exact h.refl s

/-- The relation holds across every meaning. -/
theorem StepClosed.exec (h : StepClosed R) (i : Instr) (s : State) : Reaches R s (exec i s) := by
  have cur (i : Instr) : R s { s with current := some i } := h.current _ _
  cases i <;> unfold Machine.exec
  case wren => exact h.bus .wren s
  case vwren => exact h.bus .vwren s
  case rdpd => exact h.bus .rdpd s
  case wrsr2 => exact h.bus .wrsr2 s
  case rdsr1 => exact h.bus .rdsr1 s
  case rdsr2 => exact h.bus .rdsr2 s
  case rdid => exact h.bus .rdid s
  case qread => exact h.bus .qread s
  case qpp => exact h.bus .qpp s
  case se4k => exact h.bus .se4k s
  case ce => exact h.bus .ce s
  case mmread => exact h.bus .mmread s
  case busBringup p f cs ck =>
    refine h.request _ _ ?_
    split
    · exact Reaches.refuseRequest h _ _ _
    · rename_i hf
      have h1 := h.bringup p f cs ck { s with current := some (.busBringup p f cs ck) }
        (by simpa using hf)
      have h2 := h.trans h1 (h.life .busReady _)
      exact h.trans (cur _) (h.trans h2 (h.finish .unit _))
  case init =>
    refine h.requestBody _ _ fun t => Reaches.andThen h (h.txn _ _ _) fun t => ?_
    refine Reaches.andThen h ((h.txn _ _ _).step h (h.delay t)) fun t => ?_
    exact Reaches.andThen h (h.txn _ _ _) fun t => h.pollThen _ h.finishInit t
  case intoMemoryMapped =>
    refine h.request _ _ ?_
    split
    · trivial
    · have h1 := h.abr (Config.mmAlt.setWidth 32) { s with current := some .intoMemoryMapped }
      have h2 := h.trans h1 (h.ccr BusCmd.mmread.word _)
      have h3 := h.trans h2 (h.life .memMapped _)
      exact h.trans (cur _) (h.trans h3 (h.finish .unit _))
  case readBytes a n =>
    refine h.request _ _ ?_
    split
    · exact Reaches.refuseRequest h _ _ _
    · split
      · exact Reaches.refuseRequest h _ _ _
      · exact (Reaches.andThen h (h.txn _ _ _) fun t => h.returns _ t).step h (cur (.readBytes a n))
  case programPage a d =>
    refine h.request _ _ ?_
    split
    · exact Reaches.refuseRequest h _ _ _
    · exact (h.programChunks _ _).step h (cur (.programPage a d))
  case blockErase4k a =>
    refine h.request _ _ ?_
    split
    · exact Reaches.refuseRequest h _ _ _
    · refine Reaches.step h (cur (.blockErase4k a)) ?_
      refine Reaches.andThen h (h.eraseWren _) fun t => ?_
      exact Reaches.andThen h (h.txn _ _ _) h.pollDone
  case chipErase =>
    refine h.requestBody _ _ fun t => Reaches.andThen h (h.eraseWren _) fun t => ?_
    exact Reaches.andThen h (h.txn _ _ _) h.pollDone
  case readIds =>
    refine h.requestBody _ _ fun t =>
      Reaches.andThen h ((h.txn _ _ _).step h (h.sshift true t)) fun t => ?_
    exact h.trans (h.sshift false t) (h.finish _ _)
  case readStatusRegister1 =>
    exact h.requestBody _ _ fun t => Reaches.andThen h (h.txn _ _ _) fun t => h.returns _ t
  case readStatusRegister2 =>
    exact h.requestBody _ _ fun t => Reaches.andThen h (h.txn _ _ _) fun t => h.returns _ t
  case writeEnable =>
    exact h.requestBody _ _ fun t => Reaches.andThen h (h.txn _ _ _) fun t => h.returns _ t
  case writeDisable =>
    exact h.requestBody _ _ fun t => Reaches.andThen h (h.txn _ _ _) fun t => h.returns _ t
  case waitBusy => exact h.requestBody _ _ h.pollDone
  case mmLoad a w =>
    refine h.request _ _ ?_
    split
    · exact Reaches.refuseRequest h _ _ _
    · split
      · exact Reaches.refuseRequest h _ _ _
      · split
        · trivial
        · refine Reaches.step h (h.trans (cur (.mmLoad a w)) (h.window (some ⟨a, w.toNat⟩) _)) ?_
          refine Reaches.andThen h (h.windowRead _ _) fun t => ?_
          exact h.trans (h.trans (h.periph t) (h.window none _)) (h.finish _ _)
  case mmStore a w v => exact h.request _ _ trivial

theorem StepClosed.settle (h : StepClosed R) {s t : State} {o : Result} (ho : Reaches R s o)
    (ht : settle o = .next t) : R s t := by
  cases o with
  | next u => cases ht; exact ho
  | fault f => cases ht
  | refused r =>
    unfold Machine.settle at ht
    dsimp only at ht
    split at ht
    · rename_i c x hx
      cases ht
      exact h.trans (ho c x hx) (h.mark _ _)
    · cases ht

theorem StepClosed.quiesce (h : StepClosed R) (s : State) : R s (quiesce s) :=
  h.trans (h.periph _) (h.chance _)

theorem StepClosed.rejectDescriptor (h : StepClosed R) (e : DescError) (s : State) :
    Reaches R s (rejectDescriptor e s) := by
  cases e <;> unfold Machine.rejectDescriptor <;> dsimp only
  case unknownCmd =>
    split
    · exact Reaches.refuse h _ _ _
    · exact h.unlisted _ _
  case shape =>
    split
    · split
      · exact h.refl s
      · exact h.windowRead _ _
    · exact h.unlisted _ _
  all_goals exact Reaches.refuse h _ _ _

theorem StepClosed.rejectRequest (h : StepClosed R) (e : RequestError) (f : List Byte) (s : State) :
    Reaches R s (rejectRequest e f s) := by
  cases e <;> (intro c x hx; cases hx; exact h.refl s)

/-- A relation that holds across each named operation holds across every step. -/
theorem StepClosed.holds (h : StepClosed R) {s t : State} (ht : step s = .next t) : R s t := by
  unfold Machine.step at ht
  split at ht
  · exact h.settle (h.pollStep _ _) ht
  · have hl : R s (takeLaunch s) := h.seq _ _
    split at ht
    · exact h.settle ((h.exec _ _).step h hl) ht
    · exact h.settle ((h.rejectDescriptor _ _).step h hl) ht
    · exact h.settle ((h.rejectRequest _ _ _).step h hl) ht
  · have hq : R s (takeRequest (Machine.quiesce s)) := h.trans (h.quiesce s) (h.host _)
    split at ht
    · cases ht; exact h.quiesce s
    · split at ht
      · exact h.settle ((h.exec _ _).step h hq) ht
      · exact h.settle ((h.rejectRequest _ _ _).step h hq) ht
      · exact h.settle ((h.rejectDescriptor _ _).step h hq) ht

end Sys2Proof.Machine
end

