-- ==== Sys2Proof/Tests/Slice0.lean ====
section
/-! SUPPORT. The model's own tests: the smoke test of well-formedness, every decoding from words written
out from 30_encoding.md, single steps whose expected values are the conformance vectors V10 to V36 of
95_conformance.md or hand calculation, and for each obligation with hypotheses a state that meets them. -/

namespace Sys2Proof.Tests

open Sys2Proof.Machine

/-! ### Well-formedness -/

/-- Each range of R150, its last value and the first beyond it: 8, 5, 3 and 1 bits, a length of at least
1, a width of 1, 2 or 4. -/
theorem test_wellFormed_accepts :
    (Instr.busBringup 255 31 7 1).wellFormed = true ∧ (Instr.readBytes 0 1).wellFormed = true ∧
    (Instr.mmLoad 0 1).wellFormed = true ∧ (Instr.mmLoad 0 2).wellFormed = true ∧
    (Instr.mmLoad 0 4).wellFormed = true := by decide

theorem test_prescaler_beyond_its_field_refused : (Instr.busBringup 256 0 0 0).wellFormed = false := by
  decide

theorem test_fifo_threshold_beyond_its_field_refused :
    (Instr.busBringup 0 32 0 0).wellFormed = false := by decide

theorem test_cs_high_time_beyond_its_field_refused : (Instr.busBringup 0 0 8 0).wellFormed = false := by
  decide

theorem test_clock_mode_beyond_its_field_refused : (Instr.busBringup 0 0 0 2).wellFormed = false := by
  decide

theorem test_zero_length_refused : (Instr.readBytes 0 0).wellFormed = false := by decide

theorem test_window_width_refused :
    (Instr.mmLoad 0 3).wellFormed = false ∧ (Instr.mmLoad 0 0).wellFormed = false := by decide

/-! ### Decoding: the words of R145, bit by bit from the fields of R131 to R134 -/

/-- The instruction a descriptor word decodes to. -/
def desc (w : Word) : Option Instr := (decode (.descriptor w)).toOption

/-- The instruction a request decodes to: its code, its operand words in hand-written little-endian bytes,
and its data. -/
def req (bytes : List Byte) : Option Instr := (decode (.request bytes)).toOption

/-- V10: 0x06, IMODE single. -/
theorem test_decode_wren : desc 0b00000000000000000000000100000110 = some .wren := by decide
theorem test_decode_vwren : desc 0b00000000000000000000000101010000 = some .vwren := by decide
theorem test_decode_rdpd : desc 0b00000000000000000000000110101011 = some .rdpd := by decide
/-- 0x31, IMODE and DMODE single. -/
theorem test_decode_wrsr2 : desc 0b00000001000000000000000100110001 = some .wrsr2 := by decide
/-- 0x05, IMODE and DMODE single, FMODE indirect-read. -/
theorem test_decode_rdsr1 : desc 0b00000101000000000000000100000101 = some .rdsr1 := by decide
theorem test_decode_rdsr2 : desc 0b00000101000000000000000100110101 = some .rdsr2 := by decide
/-- 0x90, ADMODE single, ADSIZE three bytes. -/
theorem test_decode_rdid : desc 0b00000101000000000010010110010000 = some .rdid := by decide
/-- 0xEB, ADMODE and DMODE quad, six dummy cycles. -/
theorem test_decode_qread : desc 0b00000111000110000010110111101011 = some .qread := by decide
theorem test_decode_qpp : desc 0b00000011000000000010010100110010 = some .qpp := by decide
theorem test_decode_se4k : desc 0b00000000000000000010010100100000 = some .se4k := by decide
theorem test_decode_ce : desc 0b00000000000000000000000111000111 = some .ce := by decide
/-- 0xEB, FMODE memory-mapped, SIOO, ABMODE quad, four dummy cycles. -/
theorem test_decode_mmread : desc 0b00011111000100001110110111101011 = some .mmread := by decide

/-- Four operand words, the first two as given, in little-endian bytes by hand. -/
def words (a0 a1 a2 a3 b0 b1 b2 b3 : Byte) : List Byte :=
  [a0, a1, a2, a3, b0, b1, b2, b3, 0, 0, 0, 0, 0, 0, 0, 0]

/-- Sixteen operand bytes of zero. -/
def noWords : List Byte := words 0 0 0 0 0 0 0 0

theorem test_decode_bus_bringup :
    req (0x00 :: [0x01, 0, 0, 0, 0x03, 0, 0, 0, 0x02, 0, 0, 0, 0x01, 0, 0, 0]) =
      some (.busBringup 1 3 2 1) := by decide
theorem test_decode_init : req (0x01 :: noWords) = some .init := by decide
theorem test_decode_into_memory_mapped : req (0x02 :: noWords) = some .intoMemoryMapped := by decide
theorem test_decode_read_bytes :
    req (0x03 :: words 0xFF 0xFF 0x7F 0 0x02 0x01 0 0) = some (.readBytes 0x7FFFFF 258) := by decide
/-- A length of 2^32 + 5 and one of 2^40: the part above 32 bits stands in the data bytes (log 2). -/
theorem test_decode_long_length :
    req (0x03 :: words 0 0 0 0 0x05 0 0 0 ++ [0x01]) = some (.readBytes 0 4294967301) ∧
    req (0x03 :: words 0 0 0 0 0 0 0 0 ++ [0x00, 0x01]) = some (.readBytes 0 1099511627776) ∧
    decode (.request (0x03 :: words 0 0 0 0 0 0 0 0 ++ [0x01, 0x00])) =
      .error (.request .malformed) := by decide
theorem test_decode_program_page :
    req (0x04 :: words 0xFE 0x1F 0 0 0 0 0 0 ++ [0xAB, 0xCD]) =
      some (.programPage 0x1FFE [0xAB, 0xCD]) := by decide
theorem test_decode_block_erase_4k :
    req (0x05 :: words 0x45 0x23 0x01 0 0 0 0 0) = some (.blockErase4k 0x012345) := by decide
theorem test_decode_chip_erase : req (0x06 :: noWords) = some .chipErase := by decide
theorem test_decode_read_ids : req (0x07 :: noWords) = some .readIds := by decide
theorem test_decode_read_status_register1 : req (0x08 :: noWords) = some .readStatusRegister1 := by
  decide
theorem test_decode_read_status_register2 : req (0x09 :: noWords) = some .readStatusRegister2 := by
  decide
theorem test_decode_write_enable : req (0x0A :: noWords) = some .writeEnable := by decide
theorem test_decode_write_disable : req (0x0B :: noWords) = some .writeDisable := by decide
theorem test_decode_wait_busy : req (0x0C :: noWords) = some .waitBusy := by decide
theorem test_decode_mm_load :
    req (0x0D :: words 0xC8 0x01 0 0 0x04 0 0 0) = some (.mmLoad 0x1C8 4) := by decide
theorem test_decode_mm_store :
    req (0x0E :: [0xC8, 0x01, 0, 0, 0x04, 0, 0, 0, 0x78, 0x56, 0x34, 0x12, 0, 0, 0, 0]) =
      some (.mmStore 0x1C8 4 0x12345678) := by decide

/-- Request code 0xF and a frame that is too short are refused by name (R150, log 2). -/
theorem test_decode_refused_requests :
    decode (.request (0x0F :: noWords)) = .error (.request .unknownOp) ∧
    decode (.request [0x07]) = .error (.request .malformed) ∧
    decode (.request (0x06 :: words 1 0 0 0 0 0 0 0)) = .error (.request .malformed) := by decide

/-- V12: words outside the table. -/
theorem test_decode_refused_descriptors :
    decodeDescriptor 0x09000105 = .error .autopoll ∧
    decodeDescriptor 0x06002DEB = .error .dualDdr ∧
    decodeDescriptor 0x87182DEB = .error .dualDdr ∧
    decodeDescriptor 0x00800106 = .error .reserved ∧
    decodeDescriptor 0x0500019F = .error .unknownCmd ∧
    decodeDescriptor 0x05000106 = .error .shape := by decide

/-- `encode` writes the bytes a request is decoded from. -/
theorem test_encode_program_page :
    encode (.programPage 0x1FFE [0xAB, 0xCD]) =
      .request (0x04 :: words 0xFE 0x1F 0 0 0 0 0 0 ++ [0xAB, 0xCD]) := by decide

/-! ### Sample states -/

/-- The array of V29, and V35's byte. -/
def sampleArray : Memory :=
  [(0x1C8, 0x11), (0x1C9, 0x22), (0x1CA, 0x33), (0x1CB, 0x44), (0x1CC, 0x55), (0x1CD, 0x66),
    (0x1CE, 0x77), (0x1CF, 0x88), (0x1000, 0x0F), (0x2000, 0x00)]

/-- A launch with V18's manufacturer byte. -/
def sampleLaunch : Launch where
  array := sampleArray
  sr1 := 0
  sr2 := 0x02
  pwr := .active
  prot := []
  mfrId := 0x1F
  devId := 0x17
  schedule := []
  cfg := ⟨true, 0x90000000, 0xA0001000, 35⟩

/-- Right after the launch: UNINIT. -/
def uninit : State := .launch sampleLaunch

/-- BUS_READY with the registers of V25. -/
def busReady : State :=
  { uninit with
    life := .busReady, clkEn := true, pinsAf := true
    regs := { uninit.regs with cr := 0x01000301, dcr := 0x00160200 } }

/-- INDIRECT. -/
def indirect : State := { busReady with life := .indirect }

/-- MEMMAPPED with the registers of V28. -/
def memMapped : State :=
  { busReady with
    life := .memMapped
    regs := { busReady.regs with ccr := 0x1F10EDEB, abr := 0xA0 } }

/-- With the late-sample toggle on. -/
def toggled (s : State) : State := { s with regs := { s.regs with cr := s.regs.cr ||| 0x10 } }

/-- The chip's SR1. -/
def withSr1 (v : Byte) (s : State) : State := { s with chip := { s.chip with sr1 := v } }

/-- An operation pending at the chip, BUSY showing it. -/
def withPending (p : Pending) (s : State) : State :=
  { s with chip := { s.chip with pending := p, sr1 := s.chip.sr1 ||| 0x01 } }

/-- A completion schedule. -/
def scheduled (l : List Bool) (s : State) : State := { s with schedule := l }

/-- Staged registers: address, length, queued bytes. -/
def staged (ar dlr : Word) (fifo : List Byte) (s : State) : State :=
  { s with regs := { s.regs with ar := ar, dlr := dlr, fifo := fifo } }

/-- A request of HOST's. -/
def asking (frame : List Byte) (s : State) : State := { s with host := [frame] }

/-- A protected range at the chip. -/
def protecting (base n : Nat) (s : State) : State :=
  { s with chip := { s.chip with prot := [⟨base, n⟩] } }

/-- A view of the next state. -/
def see {α : Type} (o : Result) (f : State → α) : Option α :=
  match o with
  | .next s => some (f s)
  | .fault _ | .refused _ => none

/-- The code of a fault. -/
def faultCode (o : Result) : Option FaultCode :=
  match o with
  | .fault f => some (faultStop f).1
  | .next _ | .refused _ => none

/-- The code of a refusal. -/
def refCode (o : Result) : Option RefCode :=
  match o with
  | .refused r => (stopOf r).map Prod.fst
  | .next _ | .fault _ => none

/-! ### The bus commands -/

/-- V33: `WREN` sets WEL, and the descriptor word stands in `CCR` with `SR.BUSY` = 1. -/
theorem test_wren :
    see (exec .wren indirect) (fun t => (t.chip.sr1, t.regs.ccr, t.regs.sr.busy)) =
      some (0x02, 0x00000106, true) := by decide

theorem test_vwren :
    see (exec .vwren indirect) (fun t => (t.chip.vwe, t.chip.sr1)) = some (true, 0x00) := by decide

/-- V26: `RDPD` wakes a chip in deep power-down. -/
theorem test_rdpd :
    see (exec .rdpd { indirect with chip := { indirect.chip with pwr := .deepPd } })
      (fun t => t.chip.pwr) = some .active := by decide

/-- Right after `VWREN` the write is volatile; without either latch it has no effect (R304). -/
theorem test_wrsr2_volatile :
    see (exec .wrsr2 (staged 0 0 [0x02] { indirect with chip := { indirect.chip with vwe := true } }))
      (fun t => (t.chip.pending, t.chip.sr1, t.chip.vwe)) = some (.wrsr2 0x02 true, 0x01, false) := by
  decide

theorem test_wrsr2_without_a_latch :
    see (exec .wrsr2 (staged 0 0 [0x00] indirect)) (fun t => (t.chip.pending, t.chip.sr2)) =
      some (.none, 0x02) := by decide

/-- A status read of two bytes while the chip is busy: SR1 twice (R296). -/
theorem test_rdsr1_while_busy :
    see (exec .rdsr1 (staged 0 1 [] (withPending (.erase 0x1000 4096) indirect)))
      (fun t => t.regs.fifo) = some [0x01, 0x01] := by decide

theorem test_rdsr2 :
    see (exec .rdsr2 indirect) (fun t => t.regs.fifo) = some [0x02] := by decide

/-- Four ID bytes: the pair repeats (R300). -/
theorem test_rdid_repeats :
    see (exec .rdid (toggled (staged 0 3 [] indirect))) (fun t => t.regs.fifo) =
      some [0x1F, 0x17, 0x1F, 0x17] := by decide

theorem test_rdid_at_another_address :
    faultCode (exec .rdid (toggled (staged 1 1 [] indirect))) = some .shape := by decide

/-- Across the end of the listed bytes: an unlisted byte is erased. -/
theorem test_qread :
    see (exec .qread (staged 0x1CE 2 [] indirect)) (fun t => t.regs.fifo) =
      some [0x77, 0x88, 0xFF] := by decide

/-- Past the capacity: the array's byte comes first, and the FIFO holds the whole length (log 14). -/
theorem test_qread_past_the_capacity :
    see (exec .qread (staged 0x7FFFFF 2 [] indirect))
      (fun t => (t.regs.fifo.take 1, t.regs.fifo.length, t.draws)) = some ([0xFF], 3, 1) := by decide

/-- R308: a quad phase while QE = 0. -/
theorem test_qread_quad_disabled :
    faultCode (exec .qread { indirect with chip := { indirect.chip with sr2 := 0xFD } }) =
      some .quadDisabled := by decide

/-- R301: the last byte of a page is accepted, one more crosses. -/
theorem test_qpp_at_the_page_end :
    see (exec .qpp (staged 0x1FE 1 [0xAB, 0xCD] (withSr1 0x02 indirect)))
      (fun t => (t.chip.pending, t.chip.sr1)) = some (.program 0x1FE [0xAB, 0xCD], 0x03) := by decide

theorem test_qpp_page_cross :
    faultCode (exec .qpp (staged 0x1FF 1 [0xAB, 0xCD] (withSr1 0x02 indirect))) =
      some .pageCross := by decide

/-- R301: an empty range covers no address, so the program goes on to its page check (log 33). -/
theorem test_qpp_beside_an_empty_range :
    see (exec .qpp (staged 0x1FE 1 [0xAB, 0xCD] (protecting 0x1FF 0 (withSr1 0x02 indirect))))
      (fun t => t.chip.pending) = some (.program 0x1FE [0xAB, 0xCD]) := by decide

/-- V22: the block of 0x012345. -/
theorem test_se4k :
    see (exec .se4k (staged 0x012345 0 [] (withSr1 0x02 indirect))) (fun t => t.chip.pending) =
      some (.erase 0x012000 4096) := by decide

/-- R302: a protected byte of the block refuses the erase. -/
theorem test_se4k_protected :
    refCode (exec .se4k (staged 0x012345 0 [] (protecting 0x012FFF 1 (withSr1 0x02 indirect)))) =
      some .protection := by decide

/-- R303: `CE` with WEL, and without it no effect. -/
theorem test_ce :
    see (exec .ce (withSr1 0x02 indirect)) (fun t => t.chip.pending) =
      some (.erase 0 8388608) ∧
    see (exec .ce indirect) (fun t => t.chip.pending) = some .none := by decide

/-- V28: with no CPU access, `MMREAD` only stands in `CCR`. -/
theorem test_mmread_descriptor :
    see (exec .mmread indirect) (fun t => (t.regs.ccr, t.regs.sr.busy, t.chip.crm)) =
      some (0x1F10EDEB, false, false) := by decide

/-- R306: a window read sets continuous-read mode. -/
theorem test_mmread_window :
    see (exec .mmread { memMapped with window := some ⟨0x1C9, 1⟩ }) (fun t => (t.rx, t.chip.crm)) =
      some ([0x22], true) := by decide

/-! ### The operations -/

/-- V25. -/
theorem test_bus_bringup :
    see (exec (.busBringup 0xFF 0x1F 0x7 1) uninit) (fun t => (t.regs.cr, t.regs.dcr, t.life)) =
      some (0xFF001F01, 0x00160701, .busReady) := by decide

theorem test_bus_bringup_wide_operand :
    refCode (exec (.busBringup 0x100 0 0 0) uninit) = some .operand := by decide

/-- V26, the write complete before the first poll. -/
theorem test_init :
    see (exec .init (scheduled [true]
        { busReady with chip := { busReady.chip with pwr := .deepPd, sr2 := 0 } }))
      (fun t => (t.trace.length, t.chip.sr2, t.life, t.delays)) = some (4, 0x02, .indirect, [35]) := by
  decide

/-- V27: a chip left busy by a reset. -/
theorem test_init_on_a_busy_chip :
    faultCode (exec .init (withPending (.erase 0x1000 4096) busReady)) = some .chipBusy := by decide

/-- V28. -/
theorem test_into_memory_mapped :
    see (exec .intoMemoryMapped indirect) (fun t => (t.regs.abr, t.regs.ccr, t.life, t.trace)) =
      some (0xA0, 0x1F10EDEB, .memMapped, []) := by decide

/-- V21. -/
theorem test_read_bytes :
    see (exec (.readBytes 0x7FFFFF 1) indirect) (fun t => (t.regs.dlr, t.regs.ar, t.rx)) =
      some (0, 0x7FFFFF, [0xFF]) := by decide

theorem test_read_bytes_no_wrap :
    refCode (exec (.readBytes 0xFFFFFFFF 1) indirect) = some .range := by decide

/-- V20: 0x0000FF, 2 bytes. -/
theorem test_page_chunks :
    pageChunks 0xFF [0xAB, 0xCD] = [(0xFF, [0xAB]), (0x100, [0xCD])] := by decide

/-- V35: 0xF0 over 0x0F. -/
theorem test_program_page :
    see (exec (.programPage 0x1000 [0xF0]) (scheduled [true] indirect))
      (fun t => (t.chip.array.read 0x1000, t.trace.length, t.chip.sr1)) = some (0x00, 3, 0x00) := by
  decide

/-- V20: an empty program at the capacity is admitted and issues nothing. -/
theorem test_program_page_empty :
    see (exec (.programPage 0x800000 []) indirect) (fun t => (t.trace, t.results.length)) =
      some ([], 1) := by decide

/-- V22: the block of 0x001FFF. -/
theorem test_block_erase_4k :
    see (exec (.blockErase4k 0x1FFF) (scheduled [true] indirect))
      (fun t => (t.chip.array.read 0x1000, t.chip.array.read 0x2000, t.chip.array.read 0x1CF)) =
      some (0xFF, 0x00, 0x88) := by decide

/-- V24: the chip busy at the first poll. -/
theorem test_chip_erase_polls :
    see (exec .chipErase (scheduled [false, false] indirect))
      (fun t => (t.seq, t.rx, t.trace.length)) = some (.polling .done, [0x03], 3) := by decide

/-- V19: the toggle is off again, and the IDs are returned. -/
theorem test_read_ids :
    see (exec .readIds indirect) (fun t => (t.rx, t.regs.cr, t.trace.map (·.sshift))) =
      some ([0x1F, 0x17], 0x01000301, [true]) := by decide

/-- V31. -/
theorem test_read_status_register1 :
    see (exec .readStatusRegister1 (withSr1 0x9C indirect)) (fun t => t.rx) = some [0x9C] := by decide

theorem test_read_status_register2 :
    see (exec .readStatusRegister2 indirect) (fun t => (t.rx, t.regs.dlr)) = some ([0x02], 0) := by
  decide

/-- V30: both set WEL. -/
theorem test_write_enable_and_disable :
    see (exec .writeEnable indirect) (fun t => t.chip.sr1) = some 0x02 ∧
    see (exec .writeDisable indirect) (fun t => t.chip.sr1) = some 0x02 := by decide

/-- R187: only BUSY is looked at. -/
theorem test_wait_busy :
    see (exec .waitBusy (withSr1 0xFC indirect)) (fun t => (t.seq, t.trace.length)) =
      some (.idle, 1) := by decide

/-- V29. -/
theorem test_mm_load :
    see (exec (.mmLoad 0x1CC 4) memMapped) (fun t => t.results) =
      some [⟨some (.mmLoad 0x1CC 4), .word 0x88776655⟩] := by decide

theorem test_mm_load_stops :
    refCode (exec (.mmLoad 0x1C9 2) memMapped) = some .misaligned ∧
    refCode (exec (.mmLoad 0x1C8 3) memMapped) = some .operand ∧
    faultCode (exec (.mmLoad 0x800000 1) memMapped) = some .mmRange := by decide

/-- R148: a load that meets a word outside the table is refused by its case, before F_BUS_DOWN, and with
another mismatch, here MMREAD without `SIOO`, is F_SHAPE. Its range is checked first. -/
theorem test_mm_load_unlisted :
    let left (w : Word) : State := { memMapped with
      clkEn := false, regs := { memMapped.regs with ccr := w } }
    refCode (exec (.mmLoad 0 4) (left 0x09000105)) = some .autopoll ∧
    refCode (exec (.mmLoad 0 4) (left 0x1E10EDEB)) = some .dualDdr ∧
    refCode (exec (.mmLoad 0 4) (left 0x3F10EDEB)) = some .reserved ∧
    refCode (exec (.mmLoad 0 4) (left 0x0F10ED6B)) = some .unknownCmd ∧
    faultCode (exec (.mmLoad 0 4) { left 0x0F10EDEB with clkEn := true }) = some .shape ∧
    faultCode (exec (.mmLoad 0x800000 4) (left 0x09000105)) = some .mmRange := by decide

/-- V29. -/
theorem test_mm_store : faultCode (exec (.mmStore 0x1C8 4 0) memMapped) = some .mmStore := by decide

/-! ### The step and the array -/

/-- A step fetches HOST's request and runs it. -/
theorem test_step_runs_a_request :
    see (step { uninit with host := [0x00 :: [0x01, 0, 0, 0, 0x03, 0, 0, 0, 0x02, 0, 0, 0, 0, 0, 0, 0]] })
      (fun t => (t.regs.cr, t.regs.dcr, t.host)) = some (0x01000301, 0x00160200, []) := by decide

/-- A refused request leaves its mark and the run goes on. -/
theorem test_step_marks_a_refusal :
    see (step (asking (0x07 :: noWords) uninit)) (fun t => t.marks) =
      some [⟨.lifecycle, some (.op .readIds), none⟩] := by decide

/-- `withFetchWord` places a request, or a descriptor, where the next step fetches. -/
theorem test_fetch_word :
    see (step (uninit.withFetchWord 4 0x0)) (fun t => t.life) = some .busReady ∧
    see (step (indirect.withFetchWord 32 0x106)) (fun t => t.chip.sr1) = some 0x02 := by decide

/-- A request placed during a transaction waits for PERIPH's step, which sets TCF (R172). -/
theorem test_fetch_word_in_flight :
    let s : State := { uninit with regs := { uninit.regs with sr := { uninit.regs.sr with busy := true } } }
    see (step (s.withFetchWord 4 0x0)) (fun t => (t.life, t.regs.sr.busy, t.regs.sr.tcf)) =
      some (.busReady, false, true) := by decide

/-- V23. -/
theorem test_and_programming :
    Memory.program [(0, 0xF0), (1, 0x00), (2, 0x5A), (3, 0xA5)] 0 [0x3C, 0xFF, 0x5A, 0x5A] =
      [(0, 0x30), (1, 0x00), (2, 0x5A), (3, 0x00)] := by decide

/-- Erasing takes the bytes out of the canonical form. -/
theorem test_erase : (sampleArray.erase 0x1C9 0xE38) = [(0x1C8, 0x11), (0x2000, 0x00)] := by decide

/-! ### For each obligation with hypotheses, states that meet them together, clause by clause -/

/-- The chip's volatile write enable. -/
def withVwe (s : State) : State := { s with chip := { s.chip with vwe := true } }

/-- A chip in deep power-down. -/
def asleep (s : State) : State := { s with chip := { s.chip with pwr := .deepPd } }

/-- A transaction in flight. -/
def inFlightAt (s : State) : State :=
  { s with regs := { s.regs with sr := { s.regs.sr with busy := true } } }

/-- A descriptor about to start. -/
def placed (w : Word) : State := placeDescriptor w indirect

theorem test_hyp_DescriptorFieldsRoundTrip :
    descriptorReserved 0xDF7FFFFF = false ∧ descriptorReserved 0 = false := by decide

theorem test_hyp_ExactWordDecode :
    decodeDescriptor 0x07182DEB = .ok .qread ∧ decodeDescriptor 0x1F10EDEB = .ok .mmread ∧
    (Descriptor.ofWord 0x07182DEB).instruction = 0xEB ∧
    (Descriptor.ofWord 0x07182DEB).fmode = .indirectRead ∧
    (Descriptor.ofWord 0x1F10EDEB).instruction = 0xEB ∧
    (Descriptor.ofWord 0x1F10EDEB).fmode = .memoryMapped := by decide

/-- The first and the last address of the window, and the ones next to them. -/
theorem test_hyp_AddressMapOfWindowAndRegisters :
    cpuLoad uninit.cfg 0x90000000 1 = some (.mmLoad 0 1) ∧
    cpuLoad uninit.cfg 0x907FFFFF 1 = some (.mmLoad 0x7FFFFF 1) ∧
    cpuLoad uninit.cfg 0x90800000 1 = none ∧ cpuLoad uninit.cfg 0x8FFFFFFF 1 = none := by decide

theorem test_hyp_StepRunsTheDecodedInstruction :
    (indirect.seq = .idle ∧ decode (.request (0x0C :: noWords)) = .ok .waitBusy ∧
      indirect.regs.sr.busy = false ∧ indirect.chip.pending = .none) ∧
    ((placed 0x106).seq = .launch ∧ decode (.descriptor (placed 0x106).regs.ccr) = .ok .wren) := by
  decide

theorem test_hyp_RefusedRequestLeavesOnlyItsMark :
    uninit.seq = .idle ∧ uninit.regs.sr.busy = false ∧ uninit.chip.pending = .none ∧
    uninit.current = none ∧ uninit.window = none ∧
    (0x0F :: noWords) = Frame.bytes ⟨0xF, 0, 0, 0, 0, []⟩ ∧
    decode (.request (0x0C :: noWords)) = .ok .waitBusy := by decide

theorem test_hyp_RefusedRequestLeavesOnlyItsMark_exec :
    exec .waitBusy { uninit with host := [] } =
      .refused (refusalOf .lifecycle ⟨some (.op .waitBusy), none, { uninit with host := [] }⟩) := rfl

theorem test_hyp_RecordsAreOnlyAppended : ∃ t, step uninit = .next t := ⟨_, rfl⟩

/-- A descriptor placed on another state. -/
def placedOn (w : Word) (s : State) : State := placeDescriptor w s

/-- A word outside the table stands in `CCR`. -/
abbrev PlacedOutside (s : State) : Prop :=
  s.seq = .launch ∧ ∀ c ∈ BusCmd.all, s.regs.ccr ≠ c.word

/-- V12: one word for each case of R148 that is refused before any transaction, and for each of the two
reserved bits. -/
theorem test_hyp_PlacedDescriptorOutsideTheTable :
    PlacedOutside (placed 0x09000105) ∧ PlacedOutside (placed 0x06002DEB) ∧
    PlacedOutside (placed 0x87182DEB) ∧ PlacedOutside (placed 0x00800106) ∧
    PlacedOutside (placed 0x20000106) :=
  ⟨by decide, by decide, by decide, by decide, by decide⟩

/-- In memory-mapped mode: an unknown byte, and a known one in another shape with no window access. -/
theorem test_hyp_PlacedDescriptorOutsideTheTable_mapped :
    (PlacedOutside (placed 0x0F10ED9F) ∧ (Descriptor.ofWord 0x0F10ED9F).fmode = .memoryMapped ∧
      see (step (placed 0x0F10ED9F)) (fun t => t.marks.map (·.code)) = some [.unknownCmd]) ∧
    PlacedOutside (placed 0x0F10EDEB) ∧ (placed 0x0F10EDEB).window = none ∧
    see (step (placed 0x0F10EDEB)) (fun t => (t.seq, t.marks)) = some (.idle, []) := by decide

/-- A placed word meets a chip in continuous-read mode. -/
abbrev InContinuousRead (w : Word) : Prop :=
  let s := placedOn w { indirect with chip := { indirect.chip with crm := true } }
  PlacedOutside s ∧ busUp s = true ∧ s.regs.sr.busy = false ∧ s.chip.crm = true

/-- The other modes: the bus down, a transaction in flight, continuous-read mode with an instruction phase
and without one, and outside it an unknown byte and another shape. -/
theorem test_hyp_PlacedDescriptorOutsideTheTable_started :
    (PlacedOutside (placedOn 0x05000106 uninit) ∧ busUp (placedOn 0x05000106 uninit) = false) ∧
    (PlacedOutside (placedOn 0x05000106 { indirect with
      regs := { indirect.regs with sr := { indirect.regs.sr with busy := true } } })) ∧
    InContinuousRead 0x05000106 ∧ InContinuousRead 0x05000006 ∧
    PlacedOutside (placed 0x0500019F) ∧ PlacedOutside (placed 0x05000106) ∧
    (busUp indirect = true ∧ indirect.regs.sr.busy = false ∧ indirect.chip.crm = false) ∧
    see (step (placed 0x0500019F)) (fun t => (t.trace.length, t.marks.map (·.code))) =
      some (1, [.unknownCmd]) ∧
    faultCode (step (placed 0x05000106)) = some .shape :=
  ⟨by decide, by decide, by decide, by decide, by decide, by decide, by decide, by decide, by decide⟩

theorem test_hyp_LatchAndWakeCommands :
    ∀ s ∈ [indirect, asleep indirect],
      busUp s = true ∧ s.regs.sr.busy = false ∧ s.chip.crm = false ∧ s.chip.pending = .none := by
  decide

theorem test_hyp_StatusReadCommands :
    ∀ s ∈ [indirect, withPending (.erase 0 4096) (staged 0 2 [] indirect)],
      BusIdle s ∧ s.chip.crm = false ∧ s.chip.pwr = .active ∧ crSshift s.regs.cr = false := by decide

/-- The premises of `ReadIdCommand` at an address. -/
abbrev IdReadable (ar : Word) : Prop :=
  let s := toggled (staged ar 1 [] indirect)
  BusIdle s ∧ ChipReady s.chip ∧ dcrFsize s.regs.dcr = BitVec.ofNat 5 Config.fsize ∧
  crSshift s.regs.cr = true ∧ 1 ≤ s.regs.dlr.toNat ∧
  (s.regs.ar &&& 0x00FFFFFF = 0 ∨ s.regs.ar &&& 0x00FFFFFF ≠ 0)

/-- The 24 bits sent are 0, with and without a bit above them, and are not. -/
theorem test_hyp_ReadIdCommand :
    IdReadable 0 ∧ IdReadable 0x01000000 ∧ IdReadable 1 ∧ IdReadable 0x00FFFFFF :=
  ⟨by decide, by decide, by decide, by decide⟩

theorem test_hyp_QuadReadCommand :
    let s := staged 0x7FFFFF 0 [] indirect
    BusIdle s ∧ ChipReady s.chip ∧ Configured s ∧ sr2Qe s.chip.sr2 = true ∧
    s.regs.ar.toNat + (s.regs.dlr.toNat + 1) ≤ Config.capacity := by decide

/-- The second clause past the capacity: the first byte lies below it. -/
theorem test_hyp_QuadReadCommand_past :
    let s := staged 0x7FFFFF 2 [] indirect
    BusIdle s ∧ ChipReady s.chip ∧ Configured s ∧ sr2Qe s.chip.sr2 = true ∧
    (s.regs.ar &&& 0x00FFFFFF).toNat + 0 < Config.capacity := by decide

theorem test_hyp_WriteStatus2Command :
    ∀ s ∈ [indirect, withVwe indirect, withSr1 0x02 indirect], let u := staged 0 0 [0x02] s
      busUp u = true ∧ u.regs.sr.busy = false ∧ ChipReady u.chip ∧ u.regs.dlr = 0 ∧
      u.regs.fifo = [0x02] := by decide

/-- The premises of `QuadPageProgramCommand` for two bytes at an address. -/
abbrev Programmable (s : State) (ar : Word) : Prop :=
  let u := staged ar 1 [0xAB, 0xCD] s
  busUp u = true ∧ u.regs.sr.busy = false ∧ ChipReady u.chip ∧
  dcrFsize u.regs.dcr = BitVec.ofNat 5 Config.fsize ∧ sr2Qe u.chip.sr2 = true ∧
  u.regs.dlr = BitVec.ofNat 32 (2 - 1) ∧ u.regs.fifo = [0xAB, 0xCD]

/-- Protected, without WEL, crossing a page, past the capacity, and accepted at a page's end, the last
also beside a range that covers no address; with no range nothing is covered. -/
theorem test_hyp_QuadPageProgramCommand :
    Programmable (protecting 0x1FF 1 indirect) 0x1FE ∧ Programmable indirect 0x1FE ∧
    Programmable (withSr1 0x02 indirect) 0x1FF ∧ Programmable (withSr1 0x02 indirect) 0x800000 ∧
    Programmable (withSr1 0x02 indirect) 0x7FFFFE ∧ indirect.chip.prot = [] :=
  ⟨by decide, by decide, by decide, by decide, by decide, by decide⟩

/-- The protected byte is one of those to be programmed; an empty range covers none of them. -/
theorem test_hyp_QuadPageProgramCommand_covered :
    (∃ r ∈ (protecting 0x1FF 1 indirect).chip.prot, ∃ x,
      r.base ≤ x ∧ x < r.base + r.n ∧ 0x1FE ≤ x ∧ x < 0x1FE + 2) ∧
    ¬ ∃ r ∈ (protecting 0x1FF 0 indirect).chip.prot, ∃ x,
      r.base ≤ x ∧ x < r.base + r.n ∧ 0x1FE ≤ x ∧ x < 0x1FE + 2 := by
  refine ⟨⟨⟨0x1FF, 1⟩, by decide, 0x1FF, by decide⟩, ?_⟩
  simp [protecting]
  omega

/-- Protected, without WEL and accepted in the last block, and past the capacity. -/
theorem test_hyp_EraseCommands :
    (∀ s ∈ [protecting 0x7FFFFF 1 indirect, indirect, withSr1 0x02 indirect],
      let u := staged 0x7FF000 0 [] s
      busUp u = true ∧ u.regs.sr.busy = false ∧ ChipReady u.chip ∧
      dcrFsize u.regs.dcr = BitVec.ofNat 5 Config.fsize ∧ u.regs.ar.toNat < 8388608) ∧
    (let u := staged 0x800000 0 [] (withSr1 0x02 indirect);
      busUp u = true ∧ u.regs.sr.busy = false ∧ ChipReady u.chip ∧
      dcrFsize u.regs.dcr = BitVec.ofNat 5 Config.fsize ∧ sr1Wel u.chip.sr1 = true ∧
      8388608 ≤ (u.regs.ar &&& 0x00FFFFFF).toNat) := by decide

/-- The last byte of the array is protected, so that its block and the whole array are. -/
theorem test_hyp_EraseCommands_covered :
    ∃ r ∈ (protecting 0x7FFFFF 1 indirect).chip.prot, ∃ x,
      r.base ≤ x ∧ x < r.base + r.n ∧ 0x7FF000 ≤ x ∧ x < 8388608 :=
  ⟨⟨0x7FFFFF, 1⟩, by decide, 0x7FFFFF, by decide⟩

/-- No access; the first window read, and one in continuous-read mode. -/
theorem test_hyp_MemoryMappedReadCommand :
    (indirect.window = none ∧ indirect.regs.sr.busy = false) ∧
    ∀ b ∈ [false, true],
      let s := { memMapped with
        window := some ⟨0x7FFFFC, 4⟩, chip := { memMapped.chip with crm := b }
        regs := { memMapped.regs with siooSent := b } }
      WindowReady s ∧ WindowChip s ∧ crSshift s.regs.cr = false ∧
      (0x7FFFFC : Word).toNat + 4 ≤ Config.capacity := by decide

/-- An access that passes the capacity by one byte. -/
theorem test_hyp_MemoryMappedReadCommand_range :
    let s := { memMapped with window := some ⟨0x7FFFFE, 4⟩ }
    s.regs.sr.busy = false ∧ Config.capacity < (0x7FFFFD : Word).toNat + 4 ∧
    faultCode (exec .mmread s) = some .mmRange := by decide

theorem test_hyp_BusFaultsComeFirst :
    busUp uninit = false ∧ busUp busReady = true ∧
    busUp (inFlightAt indirect) = true ∧ (inFlightAt indirect).regs.sr.busy = true := by decide

/-- One state for each check of R295, each with the premises of the checks before it met. -/
theorem test_hyp_ChipChecksInOrder :
    (let s := { indirect with chip := { indirect.chip with crm := true } };
      CanStart .qread s ∧ s.chip.crm = true) ∧
    (let s := staged 1 1 [] indirect;
      CanStart .rdid s ∧ s.chip.crm = false ∧ rowOperands .rdid s.regs = false) ∧
    (let s := asleep indirect;
      CanStart .qread s ∧ s.chip.crm = false ∧ rowOperands .qread s.regs = true ∧
      s.chip.pwr = .deepPd) ∧
    (let s := withPending (.erase 0 4096) indirect;
      CanStart .qread s ∧ s.chip.crm = false ∧ rowOperands .qread s.regs = true ∧
      s.chip.pwr = .active ∧ s.chip.pending ≠ .none) ∧
    (let s := staged 0 0 [0] { indirect with chip := { indirect.chip with sr2 := 0xFD } };
      CanStart .qpp s ∧ s.chip.crm = false ∧ rowOperands .qpp s.regs = true ∧
      s.chip.pwr = .active ∧ s.chip.pending = .none ∧ sr2Qe s.chip.sr2 = false) :=
  ⟨by decide, by decide, by decide, by decide, by decide⟩

/-- A program of 256 bytes fits its row, one of 257 does not (R145). -/
theorem test_row_of_qpp :
    rowOperands .qpp (staged 0 255 [] indirect).regs = true ∧
    rowOperands .qpp (staged 0 256 [] indirect).regs = false := by decide

theorem test_hyp_NextCommandConsumesVwe :
    (∃ t, exec .wren (withVwe indirect) = .next t) ∧
    (∃ t, exec .rdpd (asleep indirect) = .next t) ∧
    ∃ t, exec .mmread { memMapped with window := some ⟨0, 1⟩ } = .next t :=
  ⟨⟨_, rfl⟩, ⟨_, rfl⟩, ⟨_, rfl⟩⟩

theorem test_hyp_LateSampleToggle :
    (let s := staged 0 1 [] indirect;
      BusIdle s ∧ ChipReady s.chip ∧ crSshift s.regs.cr = false ∧ s.regs.dlr = 1 ∧ s.regs.ar = 0) ∧
    (let s := toggled (staged 0x7FFFFE 1 [] indirect);
      BusIdle s ∧ ChipReady s.chip ∧ crSshift s.regs.cr = true ∧ sr2Qe s.chip.sr2 = true ∧
      s.regs.ar.toNat + (s.regs.dlr.toNat + 1) ≤ Config.capacity) ∧
    (let s := toggled indirect;
      BusIdle s ∧ s.chip.crm = false ∧ s.chip.pwr = .active ∧ crSshift s.regs.cr = true) := by decide

theorem test_hyp_CompletionStep :
    ∀ p ∈ [Pending.program 0 [0], .erase 0 8388608, .wrsr2 0 true, .wrsr2 0 false],
      let s := scheduled [true] (withPending p indirect)
      s.schedule = true :: [] ∧ s.chip.pending ≠ .none := by decide

/-- An erase that is polled. -/
def polled (l : List Bool) : State :=
  { scheduled l (withPending (.erase 0x1000 4096) (withSr1 0x02 indirect)) with
    seq := .polling .done, current := some .chipErase }

theorem test_hyp_StuckChipPollsForever :
    let s := polled [false, false, true]
    s.seq = .polling .done ∧ BusIdle s ∧ Configured s ∧ s.chip.crm = false ∧ s.chip.pwr = .active ∧
    s.chip.pending ≠ .none ∧ sr1Busy s.chip.sr1 = true ∧
    s.schedule = List.replicate 2 false ++ [true] := by decide

theorem test_hyp_PollEndsAtTheFirstIdleRead :
    ∀ k ∈ [1, 3], let s := polled (List.replicate (k - 1) false ++ [true])
    s.seq = .polling .done ∧ BusIdle s ∧ Configured s ∧ s.chip.crm = false ∧ s.chip.pwr = .active ∧
    s.chip.pending ≠ .none ∧ sr1Busy s.chip.sr1 = true ∧ 1 ≤ k ∧
    s.schedule = List.replicate (k - 1) false ++ true :: [] := by decide

/-- `init` on a chip whose status write completes at the third opportunity. -/
theorem test_hyp_PollEndsAtTheFirstIdleRead_init :
    let s := scheduled [false, false, true] (asleep busReady)
    s.seq = .idle ∧ s.life = .busReady ∧ BusIdle s ∧ Configured s ∧ s.chip.crm = false ∧
    s.chip.pending = .none ∧ s.schedule = false :: false :: (List.replicate 0 false ++ true :: []) ∧
    see (exec .init s) (fun t => (t.seq, t.life, t.rx)) = some (.polling .init, .busReady, [0x01]) := by
  decide

/-- `program_page` of one chunk, and of two with the chip slow in both. -/
theorem test_hyp_PollEndsAtTheFirstIdleRead_program :
    IndirectReady indirect ∧ sr2Qe indirect.chip.sr2 = true ∧ indirect.chip.prot = [] ∧
    (0x7FFFFF : Word).toNat + [(0xAB : Byte)].length ≤ 8388608 ∧
    pageChunks 0x7FFFFF [0xAB] = (0x7FFFFF, [0xAB]) :: [] ∧
    pageChunks 0x1FF [0xAB, 0xCD] = (0x1FF, [0xAB]) :: [(0x200, [0xCD])] ∧
    (scheduled [false, false, false, true, false, false] indirect).schedule =
      false :: false :: (List.replicate 1 false ++ true :: false :: false :: []) := by decide

/-- The state a next outcome holds. -/
def reached (o : Result) : State :=
  match o with
  | .next t => t
  | .fault _ | .refused _ => uninit

/-- The poll's completion step is taken at once, and nothing is pending in any later state. -/
theorem test_hyp_PollEndsAtTheFirstIdleRead_completes :
    BlockInv (polled [true]) ∧ (polled [true]).seq = .polling .done ∧ ChipCompletes (polled [true]) := by
  refine ⟨by decide, rfl, ?_⟩
  have h0 : step (polled [true]) = .next (reached (step (polled [true]))) := rfl
  have h1 : step (reached (step (polled [true]))) =
      .next (reached (step (reached (step (polled [true]))))) := rfl
  have h2 : step (reached (step (reached (step (polled [true]))))) =
      .next (reached (step (reached (step (polled [true]))))) := rfl
  have p1 : (reached (step (polled [true]))).chip.pending = .none := rfl
  have p2 : (reached (step (reached (step (polled [true]))))).chip.pending = .none := rfl
  generalize reached (step (reached (step (polled [true])))) = b at h1 h2 p2
  generalize reached (step (polled [true])) = a at h0 h1 p1
  have stay : ∀ n t, Host.Core.run Sys2Proof.core n b = .next t → t = b := by
    intro n
    induction n with
    | zero => rintro t h; cases h; rfl
    | succ n ih => intro t h; rw [run_succ h2] at h; exact ih t h
  intro n t h hp
  match n, h with
  | 0, h => cases h; exact ⟨0, rfl⟩
  | 1, h => rw [run_succ h0] at h; cases h; exact absurd p1 hp
  | n + 2, h =>
    rw [run_succ h0, run_succ h1] at h
    rw [stay n t h] at hp
    exact absurd p2 hp

theorem test_hyp_WaitBusyOnAnIdleChip :
    let s := withSr1 0xFE indirect
    IndirectReady s ∧ sr1Busy s.chip.sr1 = false := by decide

/-- Also each operand at the last value its field admits and at the first it does not. -/
theorem test_hyp_BusBringup :
    uninit.seq = .idle ∧ uninit.life = .uninit ∧
    bringupFits 255 31 7 1 = true ∧ bringupFits 256 0 0 0 = false ∧ bringupFits 0 32 0 0 = false ∧
    bringupFits 0 0 8 0 = false ∧ bringupFits 0 0 0 2 = false := by decide

theorem test_hyp_InitCompletes :
    let s := scheduled [true] (asleep busReady)
    s.seq = .idle ∧ s.life = .busReady ∧ BusIdle s ∧ Configured s ∧ s.chip.crm = false ∧
    s.chip.pending = .none ∧ s.schedule = true :: [] := by decide

theorem test_hyp_InitFaultsAfterABadLaunch :
    (let s := { busReady with chip := { busReady.chip with crm := true } };
      s.seq = .idle ∧ s.life = .busReady ∧ BusIdle s ∧ s.chip.crm = true) ∧
    (let s := withPending (.erase 0x1000 4096) busReady;
      s.seq = .idle ∧ s.life = .busReady ∧ BusIdle s ∧ s.chip.crm = false ∧
      s.chip.pending ≠ .none ∧ s.chip.pwr = .active) := by decide

/-- A state of a run that polls in `init` with the write complete. -/
def initPolling : State :=
  { busReady with seq := .polling .init, current := some .init }

theorem test_hyp_AfterInit :
    BlockInv initPolling ∧ initPolling.life = .busReady ∧
    see (step initPolling) (fun t => t.life) = some .indirect := by decide

theorem test_hyp_IntoMemoryMapped :
    indirect.seq = .idle ∧ indirect.life = .indirect ∧ indirect.regs.sr.busy = false ∧
    busUp (inFlightAt indirect) = true ∧ (inFlightAt indirect).regs.sr.busy = true := by decide

/-- The widths 0, 3 and 5 beside 1, 2 and 4, and offsets at the window's end, meet each branch. -/
theorem test_hyp_MmLoad :
    memMapped.seq = .idle ∧ memMapped.life = .memMapped ∧ WindowReady memMapped ∧
    WindowChip memMapped ∧ crSshift memMapped.regs.cr = false ∧
    refCode (exec (.mmLoad 0 0) memMapped) = some .operand ∧
    refCode (exec (.mmLoad 0 5) memMapped) = some .operand ∧
    refCode (exec (.mmLoad 0x7FFFFE 4) memMapped) = some .misaligned ∧
    faultCode (exec (.mmLoad 0x800000 4) memMapped) = some .mmRange ∧
    see (exec (.mmLoad 0x7FFFFC 4) memMapped) (fun t => t.rx) = some [0xFF, 0xFF, 0xFF, 0xFF] := by
  decide

theorem test_hyp_MmStoreFaults :
    memMapped.seq = .idle ∧ memMapped.life = .memMapped ∧ indirect.seq = .idle ∧
    indirect.life ≠ .memMapped := by decide

theorem test_hyp_ReadBytes :
    IndirectReady indirect ∧ sr2Qe indirect.chip.sr2 = true ∧ 1 ≤ 8388608 ∧
    (0 : Word).toNat + 8388608 ≤ 8388608 ∧ (0x7FFFFF : Word).toNat + 1 ≤ 8388608 := by decide

theorem test_hyp_RangeChecks :
    indirect.seq = .idle ∧ indirect.life = .indirect ∧
    8388608 < (0x7FFFFF : Word).toNat + 2 ∧ 8388608 < (0x800000 : Word).toNat + [(0 : Byte)].length ∧
    8388608 < (0x800000 : Word).toNat + 1 := by decide

/-- Two chunks, and an empty program. -/
theorem test_hyp_ProgramPageCompletes :
    let s := scheduled [true, true] indirect
    IndirectReady s ∧ sr2Qe s.chip.sr2 = true ∧ s.chip.prot = [] ∧ s.chip.array.wf = true ∧
    (0x1FF : Word).toNat + [(0xAB : Byte), 0xCD].length ≤ 8388608 ∧
    s.schedule = List.replicate (pageChunks 0x1FF [0xAB, 0xCD]).length true ++ [] ∧
    indirect.schedule = List.replicate (pageChunks 0 []).length true ++ [] := by decide

theorem test_hyp_BlockErase4kCompletes :
    (let s := scheduled [true] indirect;
      IndirectReady s ∧ s.chip.prot = [] ∧ s.cfg.eraseWren = true ∧
      (0x7FFFFF : Word).toNat < 8388608 ∧ s.schedule = true :: []) ∧
    (let s := withSr1 0x02 { scheduled [true] indirect with cfg := ⟨false, 0, 0, 0⟩ };
      IndirectReady s ∧ s.chip.prot = [] ∧ s.cfg.eraseWren = false ∧ sr1Wel s.chip.sr1 = true ∧
      s.schedule = true :: []) := by decide

theorem test_hyp_ChipEraseCompletes :
    let s := scheduled [true] indirect
    IndirectReady s ∧ s.chip.prot = [] ∧ s.cfg.eraseWren = true ∧ s.schedule = true :: [] := by decide

theorem test_hyp_ErasePollsWhileTheChipIsBusy :
    let s := scheduled [false, false] indirect
    IndirectReady s ∧ s.chip.prot = [] ∧ s.cfg.eraseWren = true ∧ s.schedule = false :: false :: [] ∧
    (0x7FFFFF : Word).toNat < 8388608 := by decide

theorem test_hyp_EraseWithoutWriteEnableDoesNothing :
    let s := { indirect with cfg := ⟨false, 0, 0, 0⟩ }
    IndirectReady s ∧ s.chip.prot = [] ∧ s.cfg.eraseWren = false ∧ sr1Wel s.chip.sr1 = false ∧
    sr1Busy s.chip.sr1 = false ∧ (0x7FFFFF : Word).toNat < 8388608 := by decide

theorem test_hyp_ProgramThenReadBack :
    let s := scheduled [true] indirect
    IndirectReady s ∧ sr2Qe s.chip.sr2 = true ∧ s.chip.prot = [] ∧ s.chip.array.wf = true ∧
    (0x7FFFFF : Word).toNat + [(0xAB : Byte)].length ≤ 8388608 ∧
    s.schedule = List.replicate (pageChunks 0x7FFFFF [0xAB]).length true ++ [] ∧
    s.chip.array.read 0x7FFFFF = 0xFF := by decide

theorem test_hyp_EraseThenReadAllOnes :
    let s := scheduled [true] indirect
    IndirectReady s ∧ sr2Qe s.chip.sr2 = true ∧ s.chip.prot = [] ∧ s.cfg.eraseWren = true ∧
    s.schedule = true :: [] ∧ (0x1FFF : Word).toNat < 8388608 ∧
    (0x1FFF : Word).toNat / 4096 = (0x1000 : Word).toNat / 4096 ∧
    (0x1FFF : Word).toNat / 4096 = ((0x1000 : Word).toNat + 4096 - 1) / 4096 ∧
    (0 : Word).toNat + 8388608 ≤ 8388608 := by decide

/-- The premise of `ReadIds`, `StatusRegisterReads` and `WriteEnableAndDisable`. -/
theorem test_hyp_ReadIds : IndirectReady indirect ∧ IndirectReady (withSr1 0xFC indirect) := by decide

theorem test_hyp_LifecycleAdmission :
    ∀ s ∈ [uninit, busReady, indirect, memMapped], s.seq = .idle := by decide

theorem test_hyp_CoreInvariantIsKept :
    CoreInv indirect ∧ ∃ t, step indirect = .next t := ⟨by decide, _, rfl⟩

/-- The block invariant holds in each lifecycle state, and in a poll of each kind. -/
theorem test_hyp_BlockInvariantIsKept :
    ∀ s ∈ [uninit, busReady, indirect, memMapped, initPolling, polled [],
        { polled [] with seq := .polling (.program [(0x100, [0xAB])]) }], BlockInv s := by decide

theorem test_hyp_BlockInvariantIsKept_step : ∃ t, step indirect = .next t := ⟨_, rfl⟩

theorem test_hyp_InvariantsAtLaunch :
    sampleLaunch.array.wf = true ∧ sampleLaunch.prot = [] := by decide

/-- A request that returns. -/
theorem test_hyp_OperationsReturnQuiet :
    let s := (asking (0x0A :: noWords) indirect)
    BlockInv s ∧ see (step s) (fun t => t.results) = some [⟨some .writeEnable, .unit⟩] := by decide

theorem test_hyp_LifecycleEdges :
    (BlockInv (asking (0x00 :: noWords) uninit) ∧
      see (step (asking (0x00 :: noWords) uninit)) (fun t => t.life) = some .busReady) ∧
    (BlockInv (asking (0x01 :: noWords) (scheduled [true] busReady)) ∧
      see (step (asking (0x01 :: noWords) (scheduled [true] busReady))) (fun t => t.life) =
        some .indirect) ∧
    BlockInv (asking (0x02 :: noWords) indirect) ∧
    see (step (asking (0x02 :: noWords) indirect)) (fun t => t.life) = some .memMapped :=
  ⟨by decide, by decide, by decide, by decide⟩

theorem test_hyp_MemMappedIsFinalAndReadOnly :
    let s := (asking (0x0D :: words 0xC8 0x01 0 0 0x04 0 0 0) memMapped)
    BlockInv s ∧ s.life = .memMapped ∧
    see (step s) (fun t => t.rx) = some [0x11, 0x22, 0x33, 0x44] := by decide

theorem test_hyp_OnlyWrenSetsWel :
    let s := (asking (0x0A :: noWords) indirect)
    sr1Wel s.chip.sr1 = false ∧ see (step s) (fun t => sr1Wel t.chip.sr1) = some true := by decide

/-- Nothing pending, and a non-volatile status write pending. -/
theorem test_hyp_ResetsOfTheBlockAndTheChip :
    indirect.chip.pending = .none ∧
    (withPending (.wrsr2 0x02 false) indirect).chip.pending = .wrsr2 0x02 false := by decide

/-- R80: a power-cycle ends BUSY and WEL, keeps SR1[7:2], and SR2 is its non-volatile value again. -/
theorem test_power_cycle_status :
    let s := withSr1 0x9F { indirect with chip := { indirect.chip with sr2 := 0x02, nvSr2 := 0x40 } }
    (powerCycle ⟨0, .active, fun _ => 0⟩ s).chip.sr1 = 0x9C ∧
    (powerCycle ⟨0, .active, fun _ => 0⟩ s).chip.sr2 = 0x40 ∧
    (systemReset ⟨0, .active, fun _ => 0⟩ s).chip.sr1 = 0x9F ∧
    (systemReset ⟨0, .active, fun _ => 0⟩ s).chip.sr2 = 0x02 := by decide

theorem test_hyp_ResetInsideAProgramOrErase :
    (let k := (withPending (.program 0x7FFFFF [0xAB]) indirect).chip;
      k.array.wf = true ∧ pendingInRange k.pending = true ∧ k.pending = .program 0x7FFFFF [0xAB] ∧
      0x7FFFFF < 8388608) ∧
    (let k := (withPending (.erase 0 8388608) indirect).chip;
      k.array.wf = true ∧ pendingInRange k.pending = true ∧ k.pending = .erase 0 8388608 ∧
      0 + 8388608 ≤ 8388608) := by decide

/-- A run's observation holds its marks and its fault (00 R4). -/
theorem test_observation_of_a_refusal_and_a_fault :
    (observeRun (step (asking (0x07 :: noWords) uninit))).map (fun o => o.marks.map (·.code)) =
      some [.lifecycle] ∧
    (observeRun (exec (.mmStore 0 1 0) memMapped)).map (fun o => o.fault.map (·.code)) =
      some (some .mmStore) := by decide

end Sys2Proof.Tests
end

section
/-! PROOF. A step runs what stands where it fetches (00_scope.md rule R4; log 3). -/

namespace Sys2Proof.Machine

/-- The turns of PERIPH and CHIP take no request from HOST. -/
@[simp] theorem quiesce_host (s : State) : (quiesce s).host = s.host := by
  simp [quiesce]

theorem quiesce_idle {s : State} (hb : s.regs.sr.busy = false) (hp : s.chip.pending = .none) :
    quiesce s = s := by
  rw [quiesce, periphEnd_idle hb, chipChance_idle hp]

theorem takeRequest_of_host {s : State} {frame : List Byte} {rest : List (List Byte)}
    (hh : s.host = frame :: rest) : takeRequest s = { s with host := rest } := by
  simp [takeRequest, hh]

theorem step_request {s : State} {frame : List Byte} {rest : List (List Byte)} {i : Instr}
    (hs : s.seq = .idle) (hh : s.host = frame :: rest) (hd : decode (.request frame) = .ok i) :
    step s = settle (exec i (takeRequest (quiesce s))) := by
  simp [step, hs, hh, hd]

theorem step_launch {s : State} {i : Instr} (hs : s.seq = .launch)
    (hd : decode (.descriptor s.regs.ccr) = .ok i) : step s = settle (exec i (takeLaunch s)) := by
  simp [step, hs, hd]

/-- Settles O9: the equations of a step that fetches a request and of one that starts a placed
descriptor; with nothing in flight the turns of PERIPH and CHIP leave the state alone. -/
theorem stepRunsTheDecodedInstruction : Obligations.StepRunsTheDecodedInstruction := by
  refine ⟨fun s frame rest i hs hh hd => ⟨step_request hs hh hd, fun hb hp => ?_⟩,
    fun s i hs hd => step_launch hs hd⟩
  rw [step_request hs hh hd, quiesce_idle hb hp, takeRequest_of_host hh]

end Sys2Proof.Machine
end

section
/-! PROOF. What the start of any transaction leaves, of a row's command, of a word outside the table or of
the window, answered or refused: one relation, which the properties of every step are derived from. -/

namespace Sys2Proof.Machine

theorem Reaches.mono {R Q : State → State → Prop} {s : State} {o : Result} (ho : Reaches R s o)
    (h : ∀ t, R s t → Q s t) : Reaches Q s o := by
  cases o with
  | next t => exact h t ho
  | fault f => trivial
  | refused r => exact fun c x hx => h _ (ho c x hx)

/-- What a transaction's start can change: the chip by its answer, four fields of the registers, the two
traces, which grow, and what the peripheral received; and WEL rises only beside a `WREN` (10 R71). -/
structure TxnLeaves (s t : State) : Prop where
  chip : t.chip = s.chip ∨ ∃ c, Answered c s.chip t.chip
  frame : t = { s with
    chip := t.chip, draws := t.draws, rx := t.rx, trace := t.trace, windowTrace := t.windowTrace
    regs := { s.regs with
      ccr := t.regs.ccr, siooSent := t.regs.siooSent, fifo := t.regs.fifo, sr := t.regs.sr } }
  trace : s.trace <+: t.trace
  windowTrace : s.windowTrace <+: t.windowTrace
  wel : sr1Wel s.chip.sr1 = false → sr1Wel t.chip.sr1 = true →
    ∃ b, bareTxn 0x06 b ∈ t.trace.drop s.trace.length

/-- A command that started: its own record stands in the trace, a bare one if it is `WREN`. -/
theorem Started.leaves {c : BusCmd} {s t : State} (h : Started c s t) : TxnLeaves s t := by
  obtain ⟨hchip, r, ht, hwren⟩ := h
  have htrace : t.trace = s.trace ++ [r] := by rw [ht]
  refine ⟨hchip.imp_right fun h => ⟨c, h⟩, by rw [ht], by rw [htrace]; exact List.prefix_append _ _,
    by rw [ht], fun h0 h1 => ?_⟩
  rcases hchip with hk | hk
  · rw [hk, h0] at h1
    cases h1
  · by_cases hc : c = .wren
    · rw [htrace, List.drop_left, hwren hc]
      exact ⟨_, List.mem_singleton_self _⟩
    · rw [hk.wel hc, h0] at h1
      cases h1

/-- A transaction that is recorded and leaves the chip as it was. -/
theorem TxnLeaves.of_chip {s t : State} (hchip : t.chip = s.chip) (frame : t = { s with
      trace := t.trace, windowTrace := t.windowTrace
      regs := { s.regs with
        ccr := t.regs.ccr, siooSent := t.regs.siooSent, fifo := t.regs.fifo, sr := t.regs.sr } })
    (trace : s.trace <+: t.trace) (windowTrace : s.windowTrace <+: t.windowTrace) :
    TxnLeaves s t := by
  refine ⟨.inl hchip, by rw [frame], trace, windowTrace, fun h0 h1 => ?_⟩
  rw [hchip, h0] at h1
  cases h1

/-- A row's command, answered or refused (40 R171). -/
theorem startIndirect_leaves (c : BusCmd) (s : State) : Reaches TxnLeaves s (startIndirect c s) := by
  cases ho : startIndirect c s with
  | next t => exact (startIndirect_next ho).leaves
  | fault f => trivial
  | refused r =>
    intro e x hx
    obtain ⟨-, t, ht⟩ := startIndirect_refused ho hx
    rw [ht]
    exact .of_chip rfl rfl (List.prefix_append _ _) List.prefix_rfl

/-- A word outside the table, which is refused or faults (30 R148). -/
theorem startUnlisted_leaves (e : DescError) (s : State) :
    Reaches TxnLeaves s (startUnlisted e s) := by
  cases ho : startUnlisted e s with
  | next t => exact absurd ho startUnlisted_next
  | fault f => trivial
  | refused r =>
    intro c x hx
    obtain ⟨t, ht⟩ := startUnlisted_refused ho hx
    rw [ht]
    exact .of_chip rfl rfl (List.prefix_append _ _) List.prefix_rfl

/-- A window access, answered or refused (41 R217). -/
theorem startWindow_leaves (a : WindowAccess) (s : State) :
    Reaches TxnLeaves s (startWindow a s) := by
  cases ho : startWindow a s with
  | next t =>
    obtain ⟨hchip, ht, hw⟩ := startWindow_next ho
    refine ⟨hchip.imp_right fun h => ⟨_, h⟩, by rw [ht], by rw [ht], hw, fun h0 h1 => ?_⟩
    rcases hchip with hk | hk
    · rw [hk, h0] at h1
      cases h1
    · rw [hk.wel (by decide), h0] at h1
      cases h1
  | fault f => trivial
  | refused r =>
    intro e x hx
    obtain ⟨-, hs⟩ | ⟨t, ht⟩ := startWindow_refused ho hx
    · rw [hs]
      exact .of_chip rfl rfl List.prefix_rfl List.prefix_rfl
    · rw [ht]
      exact .of_chip rfl rfl List.prefix_rfl (List.prefix_append _ _)

end Sys2Proof.Machine
end

section
/-! PROOF. What every step keeps from any state: the core invariant (10_state.md rules R41, R42, R51,
R67). -/

namespace Sys2Proof.Machine

/-! ### The two control registers -/

/-- The bits of `CR` that the block ever sets: `EN`, `SSHIFT`, `FTHRES`, `PRESCALER` (10 R41). -/
def crUsed : Word := 0xFF001F11

/-- Words within a mask stay within it under OR, and under AND with anything. -/
theorem or_masked {a b m : Word} (ha : a &&& m = a) (hb : b &&& m = b) :
    (a ||| b) &&& m = a ||| b := by
  rw [BitVec.and_or_distrib_right, ha, hb]

theorem and_masked {a m : Word} (b : Word) (ha : a &&& m = a) : (a &&& b) &&& m = a &&& b := by
  rw [BitVec.and_assoc, BitVec.and_comm b m, ← BitVec.and_assoc, ha]

/-- Writing the late-sample toggle sets no other bit of `CR` (10 R46). -/
theorem crWithSshift_used {w : Word} (h : w &&& crUsed = w) (b : Bool) :
    crWithSshift w b &&& crUsed = crWithSshift w b := by
  cases b
  · exact and_masked _ h
  · exact or_masked h (by decide)

/-- An operand that `bus_bringup` admits is one of its field's values (41 R210). -/
theorem setWidth_of_lt {k : Nat} {w : Word} (hk : k ≤ 32) (h : w.toNat < 2 ^ k) :
    (w.setWidth k).setWidth 32 = w := by
  apply BitVec.eq_of_toNat_eq
  have h32 : 2 ^ k ≤ 2 ^ 32 := Nat.pow_le_pow_right (by decide) hk
  simp only [BitVec.toNat_setWidth]
  rw [Nat.mod_eq_of_lt h, Nat.mod_eq_of_lt (by omega)]

/-- `bus_bringup` sets no bit of `CR` but `EN` and its two fields (41 R210). -/
theorem bringupCr_used {p f cs ck : Word} (h : bringupFits p f cs ck = true) :
    bringupCr p f &&& crUsed = bringupCr p f := by
  simp only [bringupFits, Bool.and_eq_true, decide_eq_true_eq] at h
  obtain ⟨⟨⟨hp, hf⟩, -⟩, -⟩ := h
  have prescaler : ∀ q : BitVec 8, (q.setWidth 32 <<< 24) &&& crUsed = q.setWidth 32 <<< 24 := by decide
  have threshold : ∀ q : BitVec 5, (q.setWidth 32 <<< 8) &&& crUsed = q.setWidth 32 <<< 8 := by decide
  have h1 := prescaler (p.setWidth 8)
  have h2 := threshold (f.setWidth 5)
  rw [setWidth_of_lt (by decide) hp] at h1
  rw [setWidth_of_lt (by decide) hf] at h2
  exact or_masked (or_masked h1 h2) (by decide)

/-- The bits the block uses are not reserved (10 R41). -/
theorem crUsed_not_reserved {w : Word} (h : w &&& crUsed = w) : w &&& crMask = w := by
  rw [← h, BitVec.and_assoc]
  rfl

/-! ### The chip's part -/

/-- The chip's part of the core invariant: the array canonical, BUSY exact (10 R60, R67). -/
def ChipInv (k : Chip) : Prop :=
  k.array.wf = true ∧ pendingInRange k.pending = true ∧ sr1Busy k.sr1 = decide (k.pending ≠ .none)

/-- The registers' part of the core invariant (10 R41, R42, R51). -/
abbrev RegsInv (r : Regs) : Prop :=
  r.cr &&& crUsed = r.cr ∧ r.dcr &&& dcrMask = r.dcr ∧
    r.psmkr = 0 ∧ r.psmar = 0 ∧ r.pir = 0 ∧ r.lptr = 0

theorem coreInv_iff (s : State) : CoreInv s ↔ ChipInv s.chip ∧ RegsInv s.regs := by
  simp only [CoreInv, ChipInv, RegsInv, crUsed, and_assoc]

/-- A program that the chip accepts stays in its page, and so inside the array (43 R301). -/
theorem pendingInRange_of_page {p : Pending}
    (h : ∀ a d, p = .program a d → a % 256 + d.length ≤ 256 ∧ a < 8388608) :
    pendingInRange p = true := by
  cases p with
  | program a d =>
    obtain ⟨hpage, ha⟩ := h a d rfl
    exact decide_eq_true (by unfold Config.capacity; omega)
  | _ => rfl

/-- An answer leaves the array, and BUSY rises with a pending operation (10 R67). -/
theorem ChipInv.answered {c : BusCmd} {k k' : Chip} (h : Answered c k k') (hk : ChipInv k) :
    ChipInv k' := by
  obtain ⟨hwf, hrange, hbusy⟩ := hk
  have harray : k'.array = k.array := by rw [h.frame]
  refine ⟨by rw [harray]; exact hwf, ?_⟩
  rcases h.pending with ⟨hp, hb⟩ | ⟨hp, hb, hpage⟩
  · rw [hp, hb]
    exact ⟨hrange, hbusy⟩
  · exact ⟨pendingInRange_of_page hpage, by simp [hp, hb]⟩

/-- After an internal operation nothing is pending and BUSY shows it (43 R307). -/
theorem ChipInv.settled {k : Chip} (h : k.array.wf = true) : ChipInv (chipSettle k) :=
  ⟨h, rfl, sr1Busy_withBusy _ _⟩

/-- The completion step programs or erases inside the array, and then nothing is pending (43 R307). -/
theorem ChipInv.complete {k : Chip} (hk : ChipInv k) : ChipInv (chipComplete k) := by
  obtain ⟨hwf, hrange, hbusy⟩ := id hk
  unfold chipComplete
  split
  · exact hk
  · rename_i a d hp
    rw [hp] at hrange
    exact ChipInv.settled (Memory.wf_program _ hwf (of_decide_eq_true hrange))
  · exact ChipInv.settled (Memory.wf_erase _ _ hwf)
  · exact ChipInv.settled hwf
  · exact ChipInv.settled hwf

/-- CHIP's opportunity either leaves the chip alone or completes its operation (43 R307). -/
theorem chipChance_chip (s : State) :
    (chipChance s).chip = s.chip ∨ (chipChance s).chip = chipComplete s.chip := by
  unfold chipChance
  split
  · exact .inl rfl
  · cases chipMoves s
    · exact .inl rfl
    · exact .inr rfl

/-! ### The whole -/

/-- The core invariant carries over the start of any transaction. -/
theorem CoreInv.started {s t : State} (hs : CoreInv s) (h : TxnLeaves s t) : CoreInv t := by
  rw [coreInv_iff] at hs ⊢
  obtain ⟨hk, hr⟩ := hs
  refine ⟨?_, by rw [h.frame]; exact hr⟩
  rcases h.chip with hc | ⟨c, hc⟩
  · rw [hc]; exact hk
  · exact hk.answered hc

/-- A write of `CR` by a word of used bits keeps the core invariant (10 R41). -/
theorem CoreInv.writeCr {s : State} (hs : CoreInv s) {v : Word} (hv : v &&& crUsed = v) :
    CoreInv (writeCr v s) := by
  rw [coreInv_iff] at hs ⊢
  obtain ⟨hk, -, hr⟩ := hs
  refine ⟨hk, ?_, hr⟩
  rw [writeCr_regs, crUsed_not_reserved hv]
  exact hv

/-- `bus_bringup` writes used bits of `CR` and no reserved bit of `DCR` (41 R210). -/
theorem CoreInv.bringup {s : State} (hs : CoreInv s) {p f cs ck : Word}
    (hf : bringupFits p f cs ck = true) :
    CoreInv (Machine.writeCr (bringupCr p f)
      (writeDcr (bringupDcr cs ck) { s with clkEn := true, pinsAf := true })) := by
  refine CoreInv.writeCr ?_ (bringupCr_used hf)
  rw [coreInv_iff] at hs ⊢
  obtain ⟨hk, hcr, -, hr⟩ := hs
  exact ⟨hk, hcr, by rw [writeDcr_regs, BitVec.and_assoc, BitVec.and_self], hr⟩

/-- The core invariant is kept across each named operation of the machine. -/
theorem coreInv_closed : StepClosed (fun s t => CoreInv s → CoreInv t) where
  refl _ h := h
  trans h1 h2 h := h2 (h1 h)
  dlr _ _ h := h
  abr _ _ h := h
  ccr _ _ h := h
  ar _ _ h := h
  push _ _ h := h
  drain _ _ h := h
  fcr _ _ h := h
  sshift b s h := h.writeCr (crWithSshift_used ((coreInv_iff s).1 h).2.1 b)
  periph s h := by
    unfold periphEnd
    split <;> exact h
  chance s h := by
    rw [coreInv_iff] at h ⊢
    refine ⟨?_, by rw [chipChance_regs]; exact h.2⟩
    rcases chipChance_chip s with hc | hc <;> rw [hc]
    · exact h.1
    · exact h.1.complete
  delay _ h := h
  bringup _ _ _ _ _ hf h := h.bringup hf
  finish _ _ h := h
  seq _ _ h := h
  current _ _ h := h
  window _ _ h := h
  life _ _ h := h
  host _ h := h
  mark _ _ h := h
  indirect c s := (startIndirect_leaves c s).mono fun _ h hs => hs.started h
  unlisted e s := (startUnlisted_leaves e s).mono fun _ h hs => hs.started h
  windowRead a s := (startWindow_leaves a s).mono fun _ h hs => hs.started h

/-- Settles O50: each named operation keeps the core invariant, so every step does. -/
theorem coreInvariantIsKept : Obligations.CoreInvariantIsKept :=
  fun _ _ hs ht => coreInv_closed.holds ht hs

end Sys2Proof.Machine
end
section
/-! PROOF. What a run has recorded only grows (60_exceptions.md rule R325), and WEL rises only in a step
that sends a `WREN` (10_state.md rule R71). -/

namespace Sys2Proof.Machine

/-! ### The records -/

/-- The records grow, and the parameters, the ID bytes and the protection stay (10 R66, R68, 60 R325). -/
abbrev RecordsGrow (s t : State) : Prop :=
  s.trace <+: t.trace ∧ s.results <+: t.results ∧ s.marks <+: t.marks ∧ s.delays <+: t.delays ∧
    s.windowTrace <+: t.windowTrace ∧ t.cfg = s.cfg ∧ t.chip.mfrId = s.chip.mfrId ∧
    t.chip.devId = s.chip.devId ∧ t.chip.prot = s.chip.prot

theorem RecordsGrow.refl (s : State) : RecordsGrow s s :=
  ⟨List.prefix_rfl, List.prefix_rfl, List.prefix_rfl, List.prefix_rfl, List.prefix_rfl, rfl, rfl, rfl,
    rfl⟩

theorem RecordsGrow.trans {s t u : State} (h1 : RecordsGrow s t) (h2 : RecordsGrow t u) :
    RecordsGrow s u := by
  obtain ⟨t1, r1, m1, d1, w1, c1, i1, j1, p1⟩ := h1
  obtain ⟨t2, r2, m2, d2, w2, c2, i2, j2, p2⟩ := h2
  exact ⟨t1.trans t2, r1.trans r2, m1.trans m2, d1.trans d2, w1.trans w2, c2.trans c1, i2.trans i1,
    j2.trans j1, p2.trans p1⟩

/-- The completion step writes the array, SR1, SR2 with its non-volatile value, and `PENDING` alone
(43 R307). -/
theorem chipComplete_frame (k : Chip) : chipComplete k = { k with
    array := (chipComplete k).array, sr1 := (chipComplete k).sr1, sr2 := (chipComplete k).sr2
    nvSr2 := (chipComplete k).nvSr2, pending := (chipComplete k).pending } := by
  unfold chipComplete
  split <;> rfl

theorem RecordsGrow.chance (s : State) : RecordsGrow s (chipChance s) := by
  simp only [RecordsGrow, chipChance_trace, chipChance_results, chipChance_marks, chipChance_delays,
    chipChance_windowTrace, chipChance_cfg, List.prefix_rfl, true_and]
  rcases chipChance_chip s with hc | hc <;> rw [hc]
  · exact ⟨rfl, rfl, rfl⟩
  · rw [chipComplete_frame]
    exact ⟨rfl, rfl, rfl⟩

/-- The start of a transaction appends to the two traces alone. -/
theorem RecordsGrow.started {s t : State} (h : TxnLeaves s t) : RecordsGrow s t := by
  have hk : t.chip.mfrId = s.chip.mfrId ∧ t.chip.devId = s.chip.devId ∧ t.chip.prot = s.chip.prot := by
    rcases h.chip with hc | ⟨c, hc⟩
    · rw [hc]; exact ⟨rfl, rfl, rfl⟩
    · rw [hc.frame]; exact ⟨rfl, rfl, rfl⟩
  have hf := h.frame
  exact ⟨h.trace, by rw [hf], by rw [hf], by rw [hf], h.windowTrace, by rw [hf], hk⟩

/-- The records grow across each named operation: a return, a mark, a delay and a transaction append to
theirs, and the others change none. -/
theorem recordsGrow_closed : StepClosed RecordsGrow where
  refl := .refl
  trans := .trans
  dlr _ s := .refl s
  abr _ s := .refl s
  ccr _ s := .refl s
  ar _ s := .refl s
  push _ s := .refl s
  drain _ s := .refl s
  fcr _ s := .refl s
  sshift _ s := .refl s
  periph s := by
    unfold periphEnd
    split <;> exact .refl s
  chance := .chance
  delay _ := ⟨List.prefix_rfl, List.prefix_rfl, List.prefix_rfl,
    List.prefix_append _ _, List.prefix_rfl, rfl, rfl, rfl, rfl⟩
  bringup _ _ _ _ s _ := .refl s
  finish _ _ := ⟨List.prefix_rfl, List.prefix_append _ _, List.prefix_rfl,
    List.prefix_rfl, List.prefix_rfl, rfl, rfl, rfl, rfl⟩
  seq _ s := .refl s
  current _ s := .refl s
  window _ s := .refl s
  life _ s := .refl s
  host s := .refl s
  mark _ _ := ⟨List.prefix_rfl, List.prefix_rfl, List.prefix_append _ _,
    List.prefix_rfl, List.prefix_rfl, rfl, rfl, rfl, rfl⟩
  indirect c s := (startIndirect_leaves c s).mono fun _ => .started
  unlisted e s := (startUnlisted_leaves e s).mono fun _ => .started
  windowRead a s := (startWindow_leaves a s).mono fun _ => .started

/-- Settles O11: the records grow across each named operation, so across every step. -/
theorem recordsAreOnlyAppended : Obligations.RecordsAreOnlyAppended :=
  fun _ _ ht => recordsGrow_closed.holds ht

/-! ### WEL -/

/-- The trace grows, and by a `WREN` when WEL rises (10 R71). -/
structure WelByWren (s t : State) : Prop where
  trace : s.trace <+: t.trace
  wel : sr1Wel s.chip.sr1 = false → sr1Wel t.chip.sr1 = true →
    ∃ b, bareTxn 0x06 b ∈ t.trace.drop s.trace.length

/-- An operation that emits nothing and does not set WEL. -/
theorem WelByWren.of_silent {s t : State} (htrace : t.trace = s.trace)
    (hwel : sr1Wel t.chip.sr1 = true → sr1Wel s.chip.sr1 = true) : WelByWren s t :=
  ⟨by rw [htrace], fun h0 h1 => by rw [hwel h1] at h0; cases h0⟩

/-- WEL rises in one of two halves, and what that half has sent stands in the whole. -/
theorem WelByWren.trans {s t u : State} (h1 : WelByWren s t) (h2 : WelByWren t u) :
    WelByWren s u := by
  refine ⟨h1.trace.trans h2.trace, fun hs hu => ?_⟩
  cases ht : sr1Wel t.chip.sr1 with
  | true =>
    obtain ⟨b, hb⟩ := h1.wel hs ht
    exact ⟨b, (h2.trace.drop _).subset hb⟩
  | false =>
    obtain ⟨b, hb⟩ := h2.wel ht hu
    exact ⟨b, (List.drop_suffix_drop_left _ h1.trace.length_le).subset hb⟩

/-- The completion step never sets WEL (43 R307). -/
theorem chipComplete_wel (k : Chip) (h : sr1Wel (chipComplete k).sr1 = true) : sr1Wel k.sr1 = true := by
  unfold chipComplete at h
  split at h
  case h_1 => exact h
  case h_4 => simpa [chipSettle, sr1Wel_withBusy] using h
  all_goals simp [chipSettle, sr1Wel_withBusy, sr1Wel_withWel] at h

/-- Of the named operations only the start of a transaction can set WEL (10 R71). -/
theorem welByWren_closed : StepClosed WelByWren where
  refl _ := .of_silent rfl id
  trans := .trans
  dlr _ _ := .of_silent rfl id
  abr _ _ := .of_silent rfl id
  ccr _ _ := .of_silent rfl id
  ar _ _ := .of_silent rfl id
  push _ _ := .of_silent rfl id
  drain _ _ := .of_silent rfl id
  fcr _ _ := .of_silent rfl id
  sshift _ _ := .of_silent rfl id
  periph s := .of_silent (periphEnd_trace s) (by rw [periphEnd_chip]; exact id)
  chance s := by
    refine .of_silent (chipChance_trace s) fun h => ?_
    rcases chipChance_chip s with hc | hc <;> rw [hc] at h
    · exact h
    · exact chipComplete_wel _ h
  delay _ := .of_silent rfl id
  bringup _ _ _ _ _ _ := .of_silent rfl id
  finish _ _ := .of_silent rfl id
  seq _ _ := .of_silent rfl id
  current _ _ := .of_silent rfl id
  window _ _ := .of_silent rfl id
  life _ _ := .of_silent rfl id
  host _ := .of_silent rfl id
  mark _ _ := .of_silent rfl id
  indirect c s := (startIndirect_leaves c s).mono fun _ h => ⟨h.trace, h.wel⟩
  unlisted e s := (startUnlisted_leaves e s).mono fun _ h => ⟨h.trace, h.wel⟩
  windowRead a s := (startWindow_leaves a s).mono fun _ h => ⟨h.trace, h.wel⟩

/-- Settles O57: across each named operation WEL rises only beside a `WREN` in the trace, and so across
every step. -/
theorem onlyWrenSetsWel : Obligations.OnlyWrenSetsWel := by
  intro s t ht h0 h1
  obtain ⟨b, hb⟩ := (welByWren_closed.holds ht).wel h0 h1
  exact ⟨_, b, hb, rfl⟩

end Sys2Proof.Machine
end
section
/-! PROOF. The start of a transaction on a bus that is down or taken, the launch, the flags of `SR`, and
the two resets (10_state.md rules R43, R44, R52, R53, R80). -/

namespace Sys2Proof.Machine

/-! ### The bus faults -/

theorem startIndirect_busDown (c : BusCmd) {s : State} (h : busUp s = false) :
    startIndirect c s = raiseFault .busDown (some s.trace.length) s := by
  simp [startIndirect, h]

theorem startIndirect_inFlight (c : BusCmd) {s : State} (h : busUp s = true)
    (hb : s.regs.sr.busy = true) :
    startIndirect c s = raiseFault .periphBusyWrite (some s.trace.length) s := by
  simp [startIndirect, h, hb]

/-- A bus command but `MMREAD` starts an indirect transaction (40 R171). -/
theorem exec_indirect {c : BusCmd} (hc : c ≠ .mmread) (s : State) :
    exec c.instr s = startIndirect c s := by
  cases c <;> first | rfl | exact absurd rfl hc

/-- Settles O21: the first two checks of an indirect transaction's start. -/
theorem busFaultsComeFirst : Obligations.BusFaultsComeFirst := by
  intro c s hc
  rw [exec_indirect hc]
  exact ⟨startIndirect_busDown c, startIndirect_inFlight c⟩

/-! ### The launch -/

/-- At a launch BUSY is 0 whatever SR1 the chip has (10 R61, R80). -/
theorem sr1Busy_and_FC (v : Byte) : sr1Busy (v &&& 0xFC) = false := by
  revert v; decide

theorem sr1Wel_and_FC (v : Byte) : sr1Wel (v &&& 0xFC) = false := by
  revert v; decide

theorem launch_coreInv {d : Launch} (h : d.array.wf = true) : CoreInv (.launch d) := by
  rw [coreInv_iff]
  exact ⟨⟨h, rfl, sr1Busy_and_FC _⟩, (by decide : RegsInv Regs.reset)⟩

theorem launch_blockInv {d : Launch} (h : d.array.wf = true) (hp : d.prot = []) :
    BlockInv (.launch d) :=
  ⟨launch_coreInv h, rfl, rfl, rfl, hp, (by decide : crSshift Regs.reset.cr = false),
    fun hl => absurd rfl hl, rfl, rfl⟩

/-- Settles O52: every field of a launch is its reset value, and the chip's draws do not break the
invariants. -/
theorem invariantsAtLaunch : Obligations.InvariantsAtLaunch := by
  have uninit (d : Launch) : LaunchUninit (.launch d) := ⟨rfl, rfl, rfl, rfl, rfl⟩
  refine ⟨launch_blockInv rfl rfl, uninit _, fun d h => ?_⟩
  exact ⟨launch_coreInv h, uninit d, rfl, rfl, fun hp => ⟨hp, launch_blockInv h hp⟩⟩

/-! ### `SR` and `FCR` -/

/-- The bits of `SR`: its six flags, two zeros, the level, and zeros (10 R43). -/
theorem readSr_getLsbD (r : Regs) (i : Nat) : (readSr r).getLsbD i =
    if i < 6 then [r.sr.tef, r.sr.tcf, srFtf r, r.sr.smf, r.sr.tof, r.sr.busy].getD i false
    else if i < 8 then false
    else (srFlevel r).getLsbD (i - 8) := by
  simp only [readSr, BitVec.getLsbD_append, Nat.sub_sub]
  rcases i with _ | _ | _ | _ | _ | _ | i
  · simp
  · simp
  · simp
  · simp
  · simp
  · simp
  · have zeros : i + 1 + 1 + 1 + 1 + 1 + 1 < 8 ↔ i < 2 := by omega
    by_cases h : i < 2
    · simp [h, zeros]
    · have level : i - 2 < 6 ↔ i < 8 := by omega
      by_cases h8 : i < 8
      · simp [h, h8, zeros, level]
      · simp [h, h8, zeros, level, BitVec.getLsbD_of_ge, show 6 ≤ i - 2 by omega]

theorem readSr_level (r : Regs) : (readSr r).extractLsb' 8 6 = srFlevel r := by
  apply BitVec.eq_of_getLsbD_eq
  intro i hi
  have h6 : ¬ 8 + i < 6 := by omega
  simp [readSr_getLsbD, hi, h6]

/-- Bits 7:6 of `SR` read 0 (10 R43). -/
theorem readSr_reserved (r : Regs) : (readSr r).extractLsb' 6 2 = 0 := by
  apply BitVec.eq_of_getLsbD_eq
  intro i hi
  have h8 : 6 + i < 8 := by omega
  simp [readSr_getLsbD, h8]

/-- Bits 31:14 of `SR` read 0 (10 R43). -/
theorem readSr_high (r : Regs) : (readSr r).extractLsb' 14 18 = 0 := by
  apply BitVec.eq_of_getLsbD_eq
  intro i hi
  have h6 : ¬ 14 + i < 6 := by omega
  simp [readSr_getLsbD, h6, BitVec.getLsbD_of_ge, show 6 ≤ 14 + i - 8 by omega]

theorem srFlevel_toNat (r : Regs) : (srFlevel r).toNat = min r.fifo.length 32 := by
  simp only [srFlevel, Config.fifoDepth, BitVec.toNat_ofNat]
  omega

/-- Settles O58: `fcrClear` written out, and the fields of the word that a read of `SR` gives. -/
theorem flagClear : Obligations.FlagClear := by
  refine ⟨fun v s => ⟨rfl, rfl, rfl⟩, fun r => ?_⟩
  have flag := readSr_getLsbD r
  exact ⟨flag 0, flag 1, flag 2, flag 3, flag 4, flag 5, readSr_reserved r,
    by rw [regValue, readSr_level, srFlevel_toNat], readSr_high r⟩

/-! ### The resets -/

theorem and_FC_high (v : Byte) : (v &&& 0xFC).extractLsb' 2 6 = v.extractLsb' 2 6 := by
  revert v; decide

/-- No internal operation, no byte of the array at stake (20 R101). -/
theorem interruptArray_idle (f : Nat → Byte) {k : Chip} (h : k.pending = .none) :
    interruptArray f k = k.array := by
  simp [interruptArray, h, interruptedRange, Memory.fill]

theorem survivingSr2_write (d : ResetDraws) {k : Chip} {v : Byte} (h : k.pending = .wrsr2 v false) :
    survivingSr2 d k = d.sr2 := by
  simp [survivingSr2, h]

theorem survivingSr2_keeps (d : ResetDraws) {k : Chip} (h : ∀ v, k.pending ≠ .wrsr2 v false) :
    survivingSr2 d k = k.nvSr2 := by
  unfold survivingSr2
  split
  · rename_i v hv
    exact absurd hv (h v)
  all_goals rfl

/-- What both resets do to the chip (10 R80). -/
abbrev ChipAfterReset (d : ResetDraws) (s t : State) : Prop :=
  t.chip.vwe = false ∧ t.chip.pwr = d.pwr ∧ t.chip.prot = s.chip.prot ∧
    t.chip.sr1.extractLsb' 2 6 = s.chip.sr1.extractLsb' 2 6 ∧
    t.chip.mfrId = s.chip.mfrId ∧ t.chip.devId = s.chip.devId ∧
    (s.chip.pending = .none → t.chip.array = s.chip.array)

theorem systemReset_chip (d : ResetDraws) (s : State) : ChipAfterReset d s (systemReset d s) :=
  ⟨rfl, rfl, rfl, rfl, rfl, rfl, interruptArray_idle _⟩

theorem powerCycle_chip (d : ResetDraws) (s : State) : ChipAfterReset d s (powerCycle d s) :=
  ⟨rfl, rfl, rfl, and_FC_high _, rfl, rfl, interruptArray_idle _⟩

theorem resetBlock_uninit (s : State) (k : Chip) : LaunchUninit { resetBlock s with chip := k } :=
  ⟨rfl, rfl, rfl, rfl, rfl⟩

/-- Settles O59: the block's part is one for both resets; a system reset leaves the chip's volatile state
alone, and a power-cycle clears it and restores what survives of SR2. -/
theorem resetsOfTheBlockAndTheChip : Obligations.ResetsOfTheBlockAndTheChip := by
  intro d s
  refine ⟨resetBlock_uninit s _, resetBlock_uninit s _, rfl, rfl, rfl, rfl, rfl, rfl, rfl, rfl,
    sr1Busy_and_FC _, sr1Wel_and_FC _, fun h => ?_, fun v h => ?_, ?_⟩
  · exact ⟨survivingSr2_keeps d h, survivingSr2_keeps d h⟩
  · exact ⟨survivingSr2_write d h, survivingSr2_write d h⟩
  · simp only [List.mem_cons, List.not_mem_nil, or_false]
    rintro t (rfl | rfl)
    · exact systemReset_chip d s
    · exact powerCycle_chip d s

end Sys2Proof.Machine
end
section
/-! PROOF. The admission table of 10_state.md rule R32: REF_LIFECYCLE comes from the table alone. -/

namespace Sys2Proof.Machine

/-- The outcome is not a refusal with REF_LIFECYCLE. -/
def NotLifecycle (o : Result) : Prop := ∀ t, o ≠ .refused (.lifecycle t)

theorem NotLifecycle.next (s : State) : NotLifecycle (.next s) := by
  intro t h
  cases h

theorem NotLifecycle.fault (f : Fault) : NotLifecycle (.fault f) := by
  intro t h
  cases h

theorem NotLifecycle.raiseFault (c : FaultCode) (i : Option Nat) (s : State) :
    NotLifecycle (raiseFault c i s) := .fault _

theorem refusalOf_ne_lifecycle {c : RefCode} (h : c ≠ .lifecycle) (x t : Stopped) :
    refusalOf c x ≠ .lifecycle t := by
  cases c <;> first | exact absurd rfl h | nofun

theorem NotLifecycle.refuse {c : RefCode} (h : c ≠ .lifecycle) (i : Option Nat) (s : State) :
    NotLifecycle (refuse c i s) :=
  fun _ ht => refusalOf_ne_lifecycle h _ _ (Host.Outcome.refused.inj ht)

theorem NotLifecycle.refuseRequest {c : RefCode} (h : c ≠ .lifecycle) (i : Instr) (s : State) :
    NotLifecycle (refuseRequest c i s) :=
  fun _ ht => refusalOf_ne_lifecycle h _ _ (Host.Outcome.refused.inj ht)

theorem NotLifecycle.andThen {o : Result} {k : State → Result} (ho : NotLifecycle o)
    (hk : ∀ s, NotLifecycle (k s)) : NotLifecycle (andThen o k) := by
  cases o with
  | next s => exact hk s
  | fault f => exact .fault f
  | refused r => exact ho

/-! ### Transactions -/

/-- The refusals of a command's own rule: a protected range, or an address past `CAPACITY`
(43 R301 to R303). -/
theorem chipRule_refuse {c : BusCmd} {x : BusTxn} {n : Nat} {k : Chip} {r : RefCode}
    (h : chipRule c x n k = .refuse r) : r = .protection ∨ r = .range := by
  cases c
  case qpp =>
    simp only [chipRule, chipQpp] at h
    (repeat' split at h) <;> cases h
    · exact .inl rfl
    · exact .inr rfl
  case se4k =>
    simp only [chipRule, chipSe4k] at h
    (repeat' split at h) <;> cases h
    · exact .inl rfl
    · exact .inr rfl
  case ce =>
    simp only [chipRule, chipCe] at h
    (repeat' split at h) <;> cases h
    exact .inl rfl
  case wrsr2 =>
    simp only [chipRule, chipWrsr2] at h
    (repeat' split at h) <;> cases h
  all_goals cases h

/-- The refusals a chip answers with: its rule's, and an unknown command (43 R295). -/
theorem chipTake_refuse {c : BusCmd} {x : BusTxn} {n : Nat} {k : Chip} {r : RefCode}
    (h : chipTake c x n k = .refuse r) : r = .unknownCmd ∨ r = .protection ∨ r = .range := by
  unfold chipTake chipContinuation at h
  (repeat' split at h) <;> try cases h
  · exact .inl rfl
  · cases hr : chipRule c x n k with
    | refuse e =>
      rw [hr] at h
      cases h
      exact .inr (chipRule_refuse hr)
    | _ => rw [hr] at h; cases h

theorem descriptorRefusal_ne_lifecycle (w : Word) : descriptorRefusal w ≠ some .lifecycle := by
  unfold descriptorRefusal
  split <;> nofun

theorem chipTake_ne_lifecycle {c : BusCmd} {x : BusTxn} {n : Nat} {k : Chip} {r : RefCode}
    (h : chipTake c x n k = .refuse r) : r ≠ .lifecycle := by
  rcases chipTake_refuse h with rfl | rfl | rfl <;> decide

theorem NotLifecycle.startIndirect (c : BusCmd) (s : State) : NotLifecycle (startIndirect c s) := by
  unfold Machine.startIndirect
  extract_lets idx d s1 n out t s2
  split
  · exact .raiseFault _ _ _
  · split
    · exact .raiseFault _ _ _
    · split
      · exact .refuse (by decide) _ _
      · split
        · exact .next _
        · exact .next _
        · exact .raiseFault _ _ _
        · rename_i r hr
          exact .refuse (chipTake_ne_lifecycle hr) _ _

theorem NotLifecycle.startWindow (a : WindowAccess) (s : State) : NotLifecycle (startWindow a s) := by
  unfold Machine.startWindow
  split
  · exact .raiseFault _ _ _
  · split
    · rename_i r hr
      refine .refuse ?_ _ _
      rintro rfl
      exact descriptorRefusal_ne_lifecycle _ hr
    · split
      · exact .raiseFault _ _ _
      · split
        · exact .raiseFault _ _ _
        · split
          · exact .raiseFault _ _ _
          · extract_lets t s1
            split
            · exact .next _
            · exact .next _
            · exact .raiseFault _ _ _
            · rename_i r hr
              exact .refuse (chipTake_ne_lifecycle hr) _ _

theorem NotLifecycle.bus (c : BusCmd) (s : State) : NotLifecycle (execBus c s) := by
  by_cases hc : c = .mmread
  · subst hc
    show NotLifecycle (execMmread s)
    unfold execMmread
    split
    · split
      · exact .raiseFault _ _ _
      · exact .next _
    · split
      · exact .startWindow _ _
      · split
        · exact .raiseFault _ _ _
        · exact .startWindow _ _
  · cases c <;> first | exact .startIndirect _ s | exact absurd rfl hc

theorem NotLifecycle.txn (c : BusCmd) (x : TxnArgs) (s : State) : NotLifecycle (txn c x s) := by
  unfold Machine.txn
  split
  · exact .raiseFault _ _ _
  · split
    · exact .raiseFault _ _ _
    · exact (NotLifecycle.bus c _).andThen fun _ => .next _

/-! ### Polls -/

theorem NotLifecycle.pollThen (w : PollCont) {k : State → Result} (hk : ∀ s, NotLifecycle (k s))
    (s : State) : NotLifecycle (pollThen w k s) := by
  refine (NotLifecycle.txn _ _ _).andThen fun s => ?_
  split
  · exact .next _
  · exact hk s

theorem NotLifecycle.pollDone (s : State) : NotLifecycle (pollDone s) :=
  .pollThen _ (fun _ => .next _) s

theorem NotLifecycle.programChunks :
    ∀ (l : List (Nat × List Byte)) (s : State), NotLifecycle (programChunks l s)
  | [], _ => .next _
  | (_, _) :: l, s =>
    ((NotLifecycle.txn _ _ s).andThen fun _ => .txn _ _ _).andThen fun t =>
      .pollThen _ (NotLifecycle.programChunks l) t

theorem NotLifecycle.eraseWren (s : State) : NotLifecycle (eraseWren s) := by
  unfold Machine.eraseWren
  split
  · exact .txn _ _ s
  · exact .next s

/-! ### Requests -/

theorem NotLifecycle.request {i : Instr} {body : State → Result} {s : State}
    (ha : admitted i s.life = true) (hb : ∀ t, NotLifecycle (body t)) :
    NotLifecycle (request i body s) := by
  unfold Machine.request
  rw [ha]
  split
  · exact .refuseRequest (by decide) _ _
  · exact hb _

theorem request_not_admitted {i : Instr} {s : State} (hs : s.seq = .idle)
    (ha : admitted i s.life = false) (body : State → Result) :
    request i body s = .refused (.lifecycle ⟨some (.op i), none, s⟩) := by
  simp [request, hs, ha, refuseRequest, refusalOf]

/-- The table admits operations of HOST's alone (00 R5). -/
theorem not_bus_of_admitted {i : Instr} {l : Lifecycle} (h : admitted i l = true) (c : BusCmd) :
    i ≠ c.instr := by
  rintro rfl
  cases c <;> cases h

/-- A request that the table refuses is refused with REF_LIFECYCLE, and no state changes (10 R32). -/
theorem exec_not_admitted {i : Instr} {s : State} (hi : ∀ c : BusCmd, i ≠ c.instr)
    (hs : s.seq = .idle) (ha : admitted i s.life = false) :
    exec i s = .refused (.lifecycle ⟨some (.op i), none, s⟩) := by
  cases i <;> unfold exec
  case wren => exact absurd rfl (hi .wren)
  case vwren => exact absurd rfl (hi .vwren)
  case rdpd => exact absurd rfl (hi .rdpd)
  case wrsr2 => exact absurd rfl (hi .wrsr2)
  case rdsr1 => exact absurd rfl (hi .rdsr1)
  case rdsr2 => exact absurd rfl (hi .rdsr2)
  case rdid => exact absurd rfl (hi .rdid)
  case qread => exact absurd rfl (hi .qread)
  case qpp => exact absurd rfl (hi .qpp)
  case se4k => exact absurd rfl (hi .se4k)
  case ce => exact absurd rfl (hi .ce)
  case mmread => exact absurd rfl (hi .mmread)
  all_goals exact request_not_admitted hs ha _

/-- A request that the table admits is not refused with REF_LIFECYCLE (10 R32). -/
theorem exec_admitted {i : Instr} {s : State} (ha : admitted i s.life = true) :
    NotLifecycle (exec i s) := by
  cases i <;> unfold exec
  case busBringup p f cs ck =>
    refine .request ha fun t => ?_
    split
    · exact .refuseRequest (by decide) _ _
    · exact .next _
  case init =>
    refine .request ha fun t => (NotLifecycle.txn _ _ _).andThen fun _ => ?_
    refine (NotLifecycle.txn _ _ _).andThen fun _ => (NotLifecycle.txn _ _ _).andThen fun _ => ?_
    exact .pollThen _ (fun _ => .next _) _
  case intoMemoryMapped =>
    refine .request ha fun t => ?_
    split
    · exact .raiseFault _ _ _
    · exact .next _
  case readBytes a n =>
    refine .request ha fun t => ?_
    split
    · exact .refuseRequest (by decide) _ _
    · split
      · exact .refuseRequest (by decide) _ _
      · exact (NotLifecycle.txn _ _ _).andThen fun _ => .next _
  case programPage a d =>
    refine .request ha fun t => ?_
    split
    · exact .refuseRequest (by decide) _ _
    · exact .programChunks _ _
  case blockErase4k a =>
    refine .request ha fun t => ?_
    split
    · exact .refuseRequest (by decide) _ _
    · exact (NotLifecycle.eraseWren _).andThen fun _ => (NotLifecycle.txn _ _ _).andThen .pollDone
  case chipErase =>
    exact .request ha fun t =>
      (NotLifecycle.eraseWren _).andThen fun _ => (NotLifecycle.txn _ _ _).andThen .pollDone
  case waitBusy => exact .request ha .pollDone
  case mmLoad a w =>
    refine .request ha fun t => ?_
    split
    · exact .refuseRequest (by decide) _ _
    · split
      · exact .refuseRequest (by decide) _ _
      · split
        · exact .fault _
        · exact (NotLifecycle.startWindow _ _).andThen fun _ => .next _
  case mmStore a w v => exact .request ha fun _ => .fault _
  case readIds | readStatusRegister1 | readStatusRegister2 | writeEnable | writeDisable =>
    exact .request ha fun t => (NotLifecycle.txn _ _ _).andThen fun _ => .next _
  all_goals cases ha

/-- A row of the table of 10 R32: the operation is admitted in one lifecycle state and refused in the
others. -/
theorem exec_admission {i : Instr} {l : Lifecycle} (h : ∀ l', admitted i l' = (l' == l)) {s : State}
    (hs : s.seq = .idle) :
    if s.life = l then ∀ t, exec i s ≠ .refused (.lifecycle t)
    else exec i s = .refused (.lifecycle ⟨some (.op i), none, s⟩) := by
  have hi := not_bus_of_admitted (i := i) (l := l) (by simp [h])
  split
  · rename_i hl
    exact exec_admitted (by simp [h, hl])
  · rename_i hl
    exact exec_not_admitted hi hs (by simp [h, hl])

/-- Settles O49: each operation's row of the table, `exec_admission`. -/
theorem lifecycleAdmission : Obligations.LifecycleAdmission := by
  intro s hs
  have row {i : Instr} {l : Lifecycle} (h : ∀ l', admitted i l' = (l' == l)) := exec_admission h hs
  refine ⟨fun _ _ _ _ => row fun _ => rfl, row fun _ => rfl, ?_, fun _ _ => row fun _ => rfl,
    fun _ _ => row fun _ => rfl, fun _ => row fun _ => rfl, fun _ _ => row fun _ => rfl,
    fun _ _ _ => row fun _ => rfl⟩
  intro i hi
  simp only [List.mem_cons, List.not_mem_nil, or_false] at hi
  rcases hi with rfl | rfl | rfl | rfl | rfl | rfl | rfl | rfl <;> exact row fun _ => rfl

end Sys2Proof.Machine
end
section
/-! PROOF. How an operation of a run ends: it returns only when nothing is in flight or pending
(10_state.md rule R37, 60_exceptions.md rule R333), and the lifecycle moves only at a return, along its
edges (10_state.md rule R31). -/

namespace Sys2Proof.Machine

/-! ### Between two transactions of an operation -/

/-- Nothing is in flight at PERIPH, and nothing is pending at the chip (60 R333). -/
abbrev Quiet (s : State) : Prop :=
  s.regs.sr.busy = false ∧ s.chip.pending = .none ∧ sr1Busy s.chip.sr1 = false

/-- BUSY of SR1 shows exactly a pending operation (10 R67). -/
abbrev BusyExact (k : Chip) : Prop := sr1Busy k.sr1 = decide (k.pending ≠ .none)

/-- An operation can issue its next transaction, and a status read of its poll is answered truly. -/
abbrev Running (s : State) : Prop :=
  BusIdle s ∧ Configured s ∧ ChipAwake s.chip ∧ BusyExact s.chip

/-- Nothing has returned, and the lifecycle and the sequencer stand where they stood. -/
abbrev SameRun (s t : State) : Prop := t.results = s.results ∧ t.life = s.life ∧ t.seq = s.seq

theorem Running.quiet {s : State} (h : Running s) (hp : s.chip.pending = .none) : Quiet s := by
  obtain ⟨⟨-, hbusy, -⟩, -, -, hb⟩ := h
  exact ⟨hbusy, hp, by simp [hb, hp]⟩

theorem Running.chipReady {s : State} (h : Running s) (hp : s.chip.pending = .none) :
    ChipReady s.chip := by
  obtain ⟨-, -, ⟨hcrm, hpwr⟩, -⟩ := h
  exact ⟨hcrm, hpwr, hp⟩

theorem chipComplete_awake {k : Chip} (h : ChipAwake k) : ChipAwake (chipComplete k) := by
  rw [chipComplete_frame]
  exact h

theorem chipComplete_busyExact {k : Chip} (h : BusyExact k) : BusyExact (chipComplete k) := by
  unfold chipComplete
  split
  · exact h
  all_goals exact sr1Busy_withBusy _ _

/-- The completion step writes SR2 only for a status write (43 R307). -/
theorem chipComplete_sr2 {k : Chip} (h : ∀ v b, k.pending ≠ .wrsr2 v b) :
    (chipComplete k).sr2 = k.sr2 := by
  unfold chipComplete
  split
  case h_4 v hp => exact absurd hp (h v true)
  case h_5 v hp => exact absurd hp (h v false)
  all_goals rfl

theorem Running.chance {s : State} (h : Running s) : Running (chipChance s) := by
  obtain ⟨⟨hup, hbus⟩, hcfg, hawake, hexact⟩ := h
  refine ⟨⟨by simpa [busUp] using hup, by rw [chipChance_regs]; exact hbus⟩,
    by unfold Configured; rw [chipChance_regs]; exact hcfg, ?_⟩
  rcases chipChance_chip s with hc | hc <;> rw [hc]
  · exact ⟨hawake, hexact⟩
  · exact ⟨chipComplete_awake hawake, chipComplete_busyExact hexact⟩

theorem SameRun.chance (s : State) : SameRun s (chipChance s) :=
  ⟨chipChance_results s, chipChance_life s, chipChance_seq s⟩

/-! ### How a step ends -/

/-- An operation has returned, with nothing in flight or pending (10 R37, 60 R333). -/
structure Returned (s t : State) (i : Option Instr) (r : OpResult) : Prop where
  results : t.results = s.results ++ [⟨i, r⟩]
  seq : t.seq = .idle
  current : t.current = none
  quiet : Quiet t

/-- The lifecycle at a return: it stays, or moves along an edge of 10 R31 by the edge's own operation. -/
inductive LifeMove (s t : State) : Option Instr → OpResult → Prop where
  | stays {i : Option Instr} {r : OpResult} (h : t.life = s.life) : LifeMove s t i r
  | busBringup (p f cs ck : Word) (hs : s.life = .uninit) (ht : t.life = .busReady) :
    LifeMove s t (some (.busBringup p f cs ck)) .unit
  | init (hs : s.life = .busReady) (ht : t.life = .indirect)
    (hq : s.seq = .polling .init ∨ s.seq = .idle) : LifeMove s t (some .init) .unit
  | intoMemoryMapped (hs : s.life = .indirect) (ht : t.life = .memMapped) :
    LifeMove s t (some .intoMemoryMapped) .unit

/-- What a step of a run does: nothing returns and the lifecycle stays, or one operation returns. -/
inductive Advances (s t : State) : Prop where
  | goesOn (results : t.results = s.results) (life : t.life = s.life)
  | returns {i : Option Instr} {r : OpResult} (returned : Returned s t i r) (life : LifeMove s t i r)

theorem Advances.refl (s : State) : Advances s s := .goesOn rfl rfl

theorem LifeMove.of_sameRun {s s' t : State} {i : Option Instr} {r : OpResult} (h : SameRun s s')
    (ht : LifeMove s' t i r) : LifeMove s t i r := by
  obtain ⟨-, hlife, hseq⟩ := h
  cases ht with
  | stays ht => exact .stays (ht.trans hlife)
  | busBringup p f cs ck hs ht => exact .busBringup p f cs ck (hlife ▸ hs) ht
  | init hs ht hq => exact .init (hlife ▸ hs) ht (hseq ▸ hq)
  | intoMemoryMapped hs ht => exact .intoMemoryMapped (hlife ▸ hs) ht

theorem Advances.of_sameRun {s s' t : State} (h : SameRun s s') (ht : Advances s' t) :
    Advances s t := by
  cases ht with
  | goesOn hr hl => exact .goesOn (hr.trans h.1) (hl.trans h.2.1)
  | returns hr hl =>
    obtain ⟨hres, hseq, hcur, hq⟩ := hr
    exact .returns ⟨by rw [hres, h.1], hseq, hcur, hq⟩ (hl.of_sameRun h)

theorem Reaches.of_sameRun {s s' : State} {o : Result} (h : SameRun s s')
    (ho : Reaches Advances s' o) : Reaches Advances s o := by
  cases o with
  | next t => exact Advances.of_sameRun h ho
  | fault f => trivial
  | refused r => exact fun c x hx => (ho c x hx).of_sameRun h

/-- A refused request changes nothing, be it recorded as begun or not (60 R324). -/
theorem Reaches.advances_refused (c : RefCode) (i : Instr) (s : State) (j : Option Instr) :
    Reaches Advances { s with current := j } (Machine.refuseRequest c i s) := by
  intro c' x hx
  cases c <;> cases hx <;> exact .goesOn rfl rfl

/-- What an admitted request does is what its body does (10 R32, R33). -/
theorem request_advances {s : State} {i : Instr} {body : State → Result} (hs : s.seq = .idle)
    (ha : admitted i s.life = true)
    (hb : Reaches Advances { s with current := some i } (body { s with current := some i })) :
    Reaches Advances s (request i body s) := by
  rw [request_admitted hs ha]
  exact Reaches.of_sameRun (s' := { s with current := some i }) ⟨rfl, rfl, rfl⟩ hb

theorem Returned.finish {s t : State} (hr : t.results = s.results) (hq : Quiet t) (r : OpResult) :
    Returned s (Machine.finish r t) t.current r :=
  ⟨by rw [← hr]; rfl, rfl, rfl, hq⟩

/-- A return from a quiet state, with the lifecycle as it stood. -/
theorem Reaches.finish {s t : State} (h : SameRun s t) (hq : Quiet t) (r : OpResult) :
    Reaches Advances s (.next (Machine.finish r t)) :=
  Advances.returns (.finish h.1 hq r) (.stays h.2.1)

/-- A mark gives the request up and changes no record of a return (60 R325). -/
theorem Advances.mark {s : State} {c : RefCode} {x : Stopped} (h : Advances s x.state) :
    Advances s (markRefusal c x) := by
  cases h with
  | goesOn hr hl => exact .goesOn hr hl
  | returns hr hl =>
    obtain ⟨hres, -, -, hq⟩ := hr
    refine .returns ⟨hres, rfl, rfl, hq⟩ ?_
    cases hl with
    | stays h => exact .stays h
    | busBringup p f cs ck hs ht => exact .busBringup p f cs ck hs ht
    | init hs ht hq => exact .init hs ht hq
    | intoMemoryMapped hs ht => exact .intoMemoryMapped hs ht

theorem settle_advances {s t : State} {o : Result} (ho : Reaches Advances s o)
    (ht : settle o = .next t) : Advances s t := by
  cases o with
  | next u => cases ht; exact ho
  | fault f => cases ht
  | refused r =>
    unfold settle at ht
    dsimp only at ht
    split at ht
    · rename_i c x hx
      cases ht
      exact (ho c x hx).mark
    · cases ht

/-! ### Polls -/

/-- What a poll's last read leaves: an idle chip, and all but the latch `VWE` as it stood. -/
structure PollEnded (s t : State) : Prop where
  same : SameRun s t
  current : t.current = s.current
  running : Running t
  chip : t.chip = { s.chip with vwe := false }
  idle : t.chip.pending = .none

/-- The state after the status read of a poll, before CHIP's opportunity (40 R183). -/
def statusRead (s : State) : State :=
  { s with
    regs := { afterTxn 0x05000105 s.regs with dlr := 0 }
    chip := { s.chip with vwe := false }
    rx := [s.chip.sr1]
    trace := s.trace ++ [statusTxn 0x05 [s.chip.sr1] false] }

theorem pollThen_eq {s : State} (h : Running s) (w : PollCont) (k : State → Result) :
    pollThen w k s =
      if s.chip.pending = .none then k (statusRead s)
      else .next { chipChance (statusRead s) with seq := .polling w } := by
  obtain ⟨hbus, hcfg, hawake, hexact⟩ := h
  have hread := pollThen_read hbus hcfg hawake w k
  by_cases hp : s.chip.pending = .none
  · have hidle : chipChance (statusRead s) = statusRead s := chipChance_idle hp
    rw [if_pos hp, ← hidle]
    rwa [if_neg (by simp [hexact, hp])] at hread
  · rw [if_neg hp]
    rwa [if_pos (by simp [hexact, hp])] at hread

/-- A poll goes on while the chip is busy, and what follows it runs on an idle chip (40 R183, R187). -/
theorem pollThen_advances {s : State} (h : Running s) (w : PollCont) {k : State → Result}
    (hk : ∀ t, PollEnded s t → Reaches Advances t (k t)) :
    Reaches Advances s (pollThen w k s) := by
  rw [pollThen_eq h]
  split
  · rename_i hp
    have same : SameRun s (statusRead s) := ⟨rfl, rfl, rfl⟩
    exact (hk _ ⟨same, rfl, h, rfl, hp⟩).of_sameRun same
  · exact Advances.goesOn (chipChance_results _) (chipChance_life _)

theorem pollDone_advances {s : State} (h : Running s) : Reaches Advances s (pollDone s) :=
  pollThen_advances h _ fun _ ht => .finish ⟨rfl, rfl, rfl⟩ (ht.running.quiet ht.idle) _

/-- The poll of `init` returns in INDIRECT (41 R212). -/
theorem initPoll_advances {s : State} (h : Running s) (hl : s.life = .busReady)
    (hc : s.current = some .init) (hs : s.seq = .polling .init ∨ s.seq = .idle) :
    Reaches Advances s (pollThen .init finishInit s) := by
  refine pollThen_advances h _ fun t ⟨same, hcur, hrun, _, hp⟩ => ?_
  obtain ⟨-, hlife, hseq⟩ := same
  refine Advances.returns (.finish (s := t) (t := { t with life := .indirect }) rfl (hrun.quiet hp) _) ?_
  show LifeMove t _ t.current .unit
  rw [hcur, hc]
  exact .init (hlife.trans hl) rfl (by rw [hseq]; exact hs)

/-! ### Programs -/

/-- A chunk is not empty, stays in its page, and starts inside the array (42 R246). -/
def ChunkFits (c : Nat × List Byte) : Prop :=
  1 ≤ c.2.length ∧ c.1 % 256 + c.2.length ≤ 256 ∧ c.1 < 8388608

/-- The loop's invariant: its next chunk stays in its page, and ends there unless it is the last
(42 R245). -/
theorem chunkLoop_fits :
    ∀ (fuel a : Nat) (data : List Byte) (chunk : Nat),
      (data.length ≠ 0 → 1 ≤ chunk ∧ chunk ≤ data.length ∧ a % 256 + chunk ≤ 256 ∧
        (chunk < data.length → (a + chunk) % 256 = 0)) →
      a + data.length ≤ 8388608 → ∀ c ∈ chunkLoop fuel a data chunk, ChunkFits c
  | 0, _, _, _, _, _, _, hc => by cases hc
  | fuel + 1, a, data, chunk, h, ha, c, hc => by
    unfold chunkLoop at hc
    split at hc
    · cases hc
    · rename_i hd
      obtain ⟨h1, hlen, hpage, hnext⟩ := h hd
      rcases List.mem_cons.1 hc with rfl | hc
      · simp only [ChunkFits, List.length_take]
        omega
      · refine chunkLoop_fits fuel _ _ _ (fun hrest => ?_) ?_ c hc
        · simp only [Config.pageSize, List.length_drop] at hrest ⊢
          omega
        · simp only [List.length_drop]
          omega

theorem pageChunks_fits {a : Nat} {data : List Byte} (h : a + data.length ≤ 8388608) :
    ∀ c ∈ pageChunks a data, ChunkFits c := by
  refine chunkLoop_fits _ _ _ _ (fun hd => ?_) h
  simp only [Config.pageSize]
  omega

/-- The chip accepts a program that is write-enabled: awake, unprotected, QE set, and no status write
pending that could clear QE (43 R295, R301). -/
abbrev ProgramReady (k : Chip) : Prop :=
  sr2Qe k.sr2 = true ∧ k.prot = [] ∧ ∀ v b, k.pending ≠ .wrsr2 v b

theorem chipChance_programReady {s : State} (h : ProgramReady s.chip) :
    sr2Qe (chipChance s).chip.sr2 = true ∧ (chipChance s).chip.prot = [] := by
  obtain ⟨hqe, hprot, hpend⟩ := h
  rcases chipChance_chip s with hc | hc <;> rw [hc]
  · exact ⟨hqe, hprot⟩
  · exact ⟨by rw [chipComplete_sr2 hpend]; exact hqe, by rw [chipComplete_frame]; exact hprot⟩

/-- A write-enable sets WEL, and the operation runs on (43 R298). -/
theorem txnBare_wren_next {s : State} (h : Running s) (hp : s.chip.pending = .none) :
    ∃ t, txnBare .wren s = .next t ∧ SameRun s t ∧ Running t ∧
      t.chip = { s.chip with sr1 := sr1WithWel s.chip.sr1 true, vwe := false } := by
  have hw := txnBare_wren h.1 h.2.1 (h.chipReady hp)
  obtain ⟨hbus, hcfg, hawake, hexact⟩ := h
  exact ⟨_, hw, ⟨rfl, rfl, rfl⟩, ⟨hbus, hcfg, hawake, (sr1Busy_withWel _ _).trans hexact⟩, rfl⟩

/-- One chunk's write-enable and program run, and the program then stands pending (42 R245). -/
theorem programChunk_next {s : State} (h : Running s) (hp : s.chip.pending = .none)
    (hqe : sr2Qe s.chip.sr2 = true) (hprot : s.chip.prot = []) {a : Nat} {d : List Byte}
    (hc : ChunkFits (a, d)) :
    ∃ t, programChunk a d s = .next (chipChance t) ∧ SameRun s t ∧ Running t ∧
      ProgramReady t.chip := by
  obtain ⟨hd, hpage, ha⟩ := hc
  obtain ⟨u, hu, same, hrun, hk⟩ := txnBare_wren_next h hp
  have hready := hrun.chipReady (by rw [hk]; exact hp)
  have hqe' : sr2Qe u.chip.sr2 = true := by rw [hk]; exact hqe
  have hwel : sr1Wel u.chip.sr1 = true := by rw [hk]; exact sr1Wel_withWel _ _
  have hprot' : u.chip.prot = [] := by rw [hk]; exact hprot
  have hq := txn_qpp hrun.1 hrun.2.1 hready hqe' hwel hprot' hd hpage ha
  unfold programChunk
  rw [hu, andThen_next]
  obtain ⟨hbus, hcfg, hawake, -⟩ := hrun
  exact ⟨_, hq, same, ⟨hbus, hcfg, hawake, sr1Busy_withBusy _ _⟩, hqe', hprot', fun _ _ => by simp⟩

/-- The chunks run one after another on an idle chip, and the last one's poll returns (42 R245). -/
theorem programChunks_advances :
    ∀ (l : List (Nat × List Byte)) {s : State}, (∀ c ∈ l, ChunkFits c) → Running s →
      s.chip.pending = .none → sr2Qe s.chip.sr2 = true → s.chip.prot = [] →
      Reaches Advances s (programChunks l s)
  | [], _, _, h, hp, _, _ => .finish ⟨rfl, rfl, rfl⟩ (h.quiet hp) _
  | (a, d) :: l, s, hl, h, hp, hqe, hprot => by
    obtain ⟨u, hu, same, hrun, hprog⟩ :=
      programChunk_next h hp hqe hprot (hl _ (List.mem_cons_self ..))
    obtain ⟨hqe', hprot'⟩ := chipChance_programReady hprog
    have after : SameRun s (chipChance u) := by
      obtain ⟨h1, h2, h3⟩ := same
      rw [SameRun, chipChance_results, chipChance_life, chipChance_seq]
      exact ⟨h1, h2, h3⟩
    unfold programChunks
    rw [hu, andThen_next]
    refine (pollThen_advances hrun.chance _ fun t ht => ?_).of_sameRun after
    exact programChunks_advances l (fun c hc => hl c (List.mem_cons_of_mem _ hc)) ht.running ht.idle
      (by rw [ht.chip]; exact hqe') (by rw [ht.chip]; exact hprot')

end Sys2Proof.Machine
end
section
/-! PROOF. Each operation of a run, from a state that meets the block invariant, and what every step of a
run does to the returns and the lifecycle. -/

namespace Sys2Proof.Machine

/-! ### Erases -/

/-- An answered transaction of `Txn`, but for `RDID`, leaves the operation running (40 R170). -/
theorem txn_running {c : BusCmd} {x : TxnArgs} {s : State} {k : Chip} {bytes : List Byte}
    (hc : c ≠ .mmread) (hs : lateSampled c = false) (h : Running s) (hx : argsFit c x)
    (hchip : chipTake c (txnRecord c x false (sentBytes c x)) x.n s.chip = .answer k bytes)
    (hlen : c.descriptor.fmode = .indirectRead → bytes.length = x.n)
    (hk : ChipAwake k ∧ BusyExact k) : ∃ t, txn c x s = .next t ∧ SameRun s t ∧ Running t := by
  obtain ⟨hbus, hcfg, -⟩ := h
  have ht := txn_spec c x s k bytes hc hbus (by rw [hs]; exact hcfg.2.1) hcfg.1 hx
    (by rw [hs]; exact hchip) hlen
  exact ⟨_, ht, SameRun.chance _, Running.chance ⟨hbus, hcfg, hk⟩⟩

/-- A command whose rule does nothing, for want of WEL, only clears `VWE` (43 R302, R303, R309). -/
theorem chipTake_unlatched {c : BusCmd} {x : TxnArgs} {k : Chip} (h : ChipReady k)
    (hc : c ≠ .vwren) (hop : operandsFit c (txnRecord c x false []) 0 = true)
    (hq : (c == .qread || c == .qpp || c == .mmread) = false)
    (hrule : chipRule c (txnRecord c x false []) 0 k = .answer k []) :
    chipTake c (txnRecord c x false []) 0 k = .answer { k with vwe := false } [] := by
  obtain ⟨hcrm, hpwr, hpend⟩ := h
  rw [chipTake_rule hcrm (txnRecord_instr ..) (txnRecord_shape ..) hop (.inl hpwr) (.inl hpend)
    (.inl ((txnRecord_hasQuad ..).trans hq)), hrule, afterRule, if_neg hc]

/-- `SE4K` starts, or is ignored for want of WEL, and the chip stays awake with BUSY exact (43 R302). -/
theorem chipTake_se4k_answer (x : TxnArgs) {k : Chip} (h : ChipReady k) (hb : BusyExact k)
    (hp : k.prot = []) (ha : x.addr.toNat < Config.capacity) :
    ∃ k', chipTake .se4k (txnRecord .se4k x false []) 0 k = .answer k' [] ∧
      ChipAwake k' ∧ BusyExact k' := by
  obtain ⟨hcrm, hpwr, -⟩ := id h
  have hfree := protects_nil hp (blockBase x.addr.toNat) Config.eraseBlock
  cases hw : sr1Wel k.sr1 with
  | true => exact ⟨_, chipTake_se4k x false h hw ha hfree, ⟨hcrm, hpwr⟩, sr1Busy_withBusy _ _⟩
  | false =>
    refine ⟨_, chipTake_unlatched h (by decide) rfl rfl ?_, ⟨hcrm, hpwr⟩, hb⟩
    simp [chipRule, chipSe4k, txnRecord_address (c := .se4k) (by decide), hfree, hw]

/-- The same of `CE` (43 R303). -/
theorem chipTake_ce_answer (x : TxnArgs) {k : Chip} (h : ChipReady k) (hb : BusyExact k)
    (hp : k.prot = []) :
    ∃ k', chipTake .ce (txnRecord .ce x false []) 0 k = .answer k' [] ∧
      ChipAwake k' ∧ BusyExact k' := by
  obtain ⟨hcrm, hpwr, -⟩ := id h
  have hfree := protects_nil hp 0 Config.capacity
  cases hw : sr1Wel k.sr1 with
  | true => exact ⟨_, chipTake_ce x false h hw hfree, ⟨hcrm, hpwr⟩, sr1Busy_withBusy _ _⟩
  | false =>
    refine ⟨_, chipTake_unlatched h (by decide) rfl rfl ?_, ⟨hcrm, hpwr⟩, hb⟩
    simp [chipRule, chipCe, hfree, hw]

/-- An erase's own write-enable, or none where `ERASE_WREN` is false (42 R255). -/
theorem eraseWren_next {s : State} (h : Running s) (hp : s.chip.pending = .none) :
    ∃ t, eraseWren s = .next t ∧ SameRun s t ∧ Running t ∧ t.chip.pending = .none ∧
      t.chip.prot = s.chip.prot := by
  unfold eraseWren
  split
  · obtain ⟨t, ht, same, hrun, hk⟩ := txnBare_wren_next h hp
    exact ⟨t, ht, same, hrun, by rw [hk]; exact hp, by rw [hk]⟩
  · exact ⟨s, rfl, ⟨rfl, rfl, rfl⟩, h, hp, rfl⟩

/-- An erase operation after its range check: write-enable, erase command, poll (42 R250, R253). -/
theorem erase_advances {s : State} {erase : State → Result} (h : Running s)
    (hp : s.chip.pending = .none) (hprot : s.chip.prot = [])
    (he : ∀ t, Running t → t.chip.pending = .none → t.chip.prot = [] →
      ∃ u, erase t = .next u ∧ SameRun t u ∧ Running u) :
    Reaches Advances s
      (andThen (eraseWren s) fun t => andThen (erase t) fun u => pollDone u) := by
  obtain ⟨t, ht, same, hrun, hpend, hprot'⟩ := eraseWren_next h hp
  obtain ⟨u, hu, same', hrun'⟩ := he t hrun hpend (hprot'.trans hprot)
  rw [ht, andThen_next, hu, andThen_next]
  exact ((pollDone_advances hrun').of_sameRun same').of_sameRun same

/-! ### The window -/

theorem chipTake_mmread_answer {x : BusTxn} {n : Nat} {k k' : Chip} {b : List Byte}
    (h : chipTake .mmread x n k = .answer k' b) : k'.pending = k.pending ∧ k'.sr1 = k.sr1 := by
  unfold chipTake chipContinuation at h
  (repeat' split at h) <;> cases h <;> exact ⟨rfl, rfl⟩

/-- A window read leaves the pending operation and SR1 as they were (43 R306). -/
theorem startWindow_pending {a : WindowAccess} {s t : State} (h : startWindow a s = .next t) :
    t.chip.pending = s.chip.pending ∧ t.chip.sr1 = s.chip.sr1 := by
  unfold startWindow at h
  extract_lets tx s1 at h
  (repeat' split at h) <;> cases h
  case h_1 hk => exact chipTake_mmread_answer hk
  case h_2 => exact ⟨rfl, rfl⟩

theorem periphEnd_busy (s : State) : (periphEnd s).regs.sr.busy = false := by
  unfold periphEnd
  split
  · rfl
  · rename_i h
    simpa using h

/-- The window read of `mm_load`, which returns with the transaction ended (41 R217). -/
theorem windowRead_advances {s : State} (hp : s.chip.pending = .none) (hb : sr1Busy s.chip.sr1 = false)
    (a : WindowAccess) :
    Reaches Advances s (andThen (startWindow a s) fun t =>
      .next (finish (.word (leValue t.rx)) { periphEnd t with window := none })) := by
  cases ho : startWindow a s with
  | next t =>
    obtain ⟨-, ht, -⟩ := startWindow_next ho
    obtain ⟨hpend, hsr1⟩ := startWindow_pending ho
    refine Reaches.finish (t := { periphEnd t with window := none }) ⟨?_, ?_, ?_⟩
      ⟨periphEnd_busy t, ?_, ?_⟩ _
    · exact (periphEnd_results t).trans (by rw [ht])
    · exact (periphEnd_life t).trans (by rw [ht])
    · exact (periphEnd_seq t).trans (by rw [ht])
    · show (periphEnd t).chip.pending = .none
      rw [periphEnd_chip, hpend, hp]
    · show sr1Busy (periphEnd t).chip.sr1 = false
      rw [periphEnd_chip, hsr1, hb]
  | fault f => trivial
  | refused r =>
    intro c x hx
    obtain ⟨-, hs⟩ | ⟨t, ht⟩ := startWindow_refused ho hx
    · rw [hs]
      exact .refl s
    · rw [ht]
      exact .goesOn rfl rfl

/-! ### What the block invariant gives an operation -/

/-- From BUS_READY on the bus is up and configured (60 R340). -/
theorem BlockInv.bus {s : State} (h : BlockInv s) (hl : s.life ≠ .uninit) :
    BusIdle s ∧ Configured s := by
  obtain ⟨⟨-, -, -, hcr, -⟩, hbusy, hfifo, -, -, hsshift, hbus, -, -⟩ := h
  obtain ⟨hup, hsize⟩ := hbus hl
  exact ⟨⟨hup, hbusy, hfifo⟩, hsize, hsshift, crUsed_not_reserved hcr⟩

/-- An awake chip then serves an operation, and BUSY is exact. -/
theorem BlockInv.running {s : State} (h : BlockInv s) (hl : s.life ≠ .uninit)
    (hk : ChipAwake s.chip) : Running s := by
  obtain ⟨hbus, hcfg⟩ := h.bus hl
  obtain ⟨⟨-, -, hexact, -⟩, -⟩ := h
  exact ⟨hbus, hcfg, hk, hexact⟩

/-- With no operation in progress nothing is in flight or pending (40 R181, R188). -/
theorem BlockInv.quiet {s : State} (h : BlockInv s) (hs : s.seq = .idle) : Quiet s := by
  obtain ⟨⟨-, -, hexact, -⟩, hbusy, -, -, -, -, -, -, hchip⟩ := h
  have hp : s.chip.pending = .none := by
    unfold chipFits at hchip
    simp only [hs, Bool.and_eq_true, beq_iff_eq] at hchip
    exact hchip.2
  exact ⟨hbusy, hp, by simp [hexact, hp]⟩

/-- In INDIRECT the chip is awake with QE set, and no status write is pending (41 R214). -/
theorem BlockInv.indirect {s : State} (h : BlockInv s) (hl : s.life = .indirect) :
    Running s ∧ ProgramReady s.chip := by
  obtain ⟨-, -, -, -, hprot, -, -, -, hchip⟩ := id h
  unfold chipFits at hchip
  simp only [hl, Bool.and_eq_true, beq_iff_eq] at hchip
  obtain ⟨⟨⟨⟨hcrm, hpwr⟩, hqe⟩, hpend⟩, -⟩ := hchip
  refine ⟨h.running (by rw [hl]; decide) ⟨hcrm, hpwr⟩, hqe, hprot, fun v b hv => ?_⟩
  rw [hv] at hpend
  cases hpend

theorem BlockInv.busReady_crm {s : State} (h : BlockInv s) (hl : s.life = .busReady) :
    s.chip.crm = false := by
  obtain ⟨-, -, -, -, -, -, -, -, hchip⟩ := h
  unfold chipFits at hchip
  simp only [hl, Bool.and_eq_true, beq_iff_eq] at hchip
  exact hchip.1

/-! ### The operations -/

/-- The three transactions of `init`: each leaves the operation running (41 R212). -/
theorem txnBare_rdpd_next {s : State} (hbus : BusIdle s) (hcfg : Configured s)
    (hcrm : s.chip.crm = false) (hp : s.chip.pending = .none) (hb : sr1Busy s.chip.sr1 = false) :
    ∃ t, txnBare .rdpd s = .next t ∧ SameRun s t ∧ t.current = s.current ∧ Running t ∧
      t.chip.pending = .none := by
  have ht := txnBare_rdpd hbus hcfg hcrm hp
  exact ⟨_, ht, ⟨rfl, rfl, rfl⟩, rfl, ⟨hbus, hcfg, ⟨hcrm, rfl⟩, by simp [BusyExact, hp, hb]⟩, hp⟩

theorem txnBare_vwren_next {s : State} (h : Running s) (hp : s.chip.pending = .none) :
    ∃ t, txnBare .vwren s = .next t ∧ SameRun s t ∧ t.current = s.current ∧ Running t ∧
      t.chip.pending = .none ∧ t.chip.vwe = true := by
  have ht := txnBare_vwren h.1 h.2.1 (h.chipReady hp)
  exact ⟨_, ht, ⟨rfl, rfl, rfl⟩, rfl, h, hp, rfl⟩

theorem txn_wrsr2_next {s : State} (h : Running s) (hp : s.chip.pending = .none)
    (hv : s.chip.vwe = true) (v : Byte) :
    ∃ t, txn .wrsr2 { out := [v], n := 1 } s = .next t ∧ SameRun s t ∧ t.current = s.current ∧
      Running t := by
  have ht := txn_wrsr2 h.1 h.2.1 (h.chipReady hp) hv v
  obtain ⟨hbus, hcfg, hawake, -⟩ := h
  exact ⟨_, ht, SameRun.chance _, chipChance_current _,
    Running.chance ⟨hbus, hcfg, hawake, sr1Busy_withBusy _ _⟩⟩

/-- `init` wakes the chip, starts its status write, and returns from its poll (41 R212). -/
theorem init_advances {s : State} (h : BlockInv s) (hs : s.seq = .idle) (hl : s.life = .busReady) :
    Reaches Advances s (execInit s) := by
  unfold execInit
  refine request_advances hs (by rw [hl]; rfl) ?_
  obtain ⟨-, hp, hb⟩ := h.quiet hs
  obtain ⟨hbus, hcfg⟩ := h.bus (by rw [hl]; decide)
  obtain ⟨t, ht, same, hcur, hrun, hpt⟩ := txnBare_rdpd_next (s := { s with current := some .init })
    hbus hcfg (h.busReady_crm hl) hp hb
  obtain ⟨u, hu, same', hcur', hrun', hpu, hvwe⟩ := txnBare_vwren_next (s := delayWake t) hrun hpt
  obtain ⟨v, hv, same'', hcur'', hrun''⟩ := txn_wrsr2_next hrun' hpu hvwe Config.qeValue
  have all : SameRun s v :=
    ⟨same''.1.trans (same'.1.trans same.1), same''.2.1.trans (same'.2.1.trans same.2.1),
      same''.2.2.trans (same'.2.2.trans same.2.2)⟩
  rw [ht, andThen_next, hu, andThen_next, hv, andThen_next]
  refine (initPoll_advances hrun'' (all.2.1.trans hl) ?_ (.inr (all.2.2.trans hs))).of_sameRun all
  rw [hcur'', hcur', delayWake_current, hcur]

/-- `bus_bringup` takes the block to BUS_READY (41 R210). -/
theorem busBringup_advances {s : State} {p f cs ck : Word} (h : Quiet s) (hs : s.seq = .idle)
    (hl : s.life = .uninit) : Reaches Advances s (execBusBringup p f cs ck s) := by
  unfold execBusBringup
  refine request_advances hs (by rw [hl]; rfl) ?_
  split
  · exact .advances_refused _ _ _ _
  · exact Advances.returns ⟨rfl, rfl, rfl, h⟩ (.busBringup p f cs ck hl rfl)

/-- `into_memory_mapped` takes the block to MEMMAPPED (41 R215). -/
theorem intoMemoryMapped_advances {s : State} (h : Quiet s) (hs : s.seq = .idle)
    (hl : s.life = .indirect) : Reaches Advances s (execIntoMemoryMapped s) := by
  unfold execIntoMemoryMapped
  refine request_advances hs (by rw [hl]; rfl) ?_
  split
  · trivial
  · exact Advances.returns ⟨rfl, rfl, rfl, h⟩ (.intoMemoryMapped hl rfl)

/-- A window load returns in MEMMAPPED, or is refused or faults before its read (41 R218). -/
theorem mmLoad_advances {s : State} {a w : Word} (hq : Quiet s) (hs : s.seq = .idle)
    (hl : s.life = .memMapped) : Reaches Advances s (execMmLoad a w s) := by
  obtain ⟨-, hp, hb⟩ := hq
  unfold execMmLoad
  refine request_advances hs (by rw [hl]; rfl) ?_
  split
  · exact .advances_refused _ _ _ _
  · split
    · exact .advances_refused _ _ _ _
    · split
      · trivial
      · refine Reaches.of_sameRun ?_ (windowRead_advances ?_ ?_ _)
        · exact ⟨rfl, rfl, rfl⟩
        · exact hp
        · exact hb

theorem mmStore_advances {s : State} {a w v : Word} (hs : s.seq = .idle)
    (hl : s.life = .memMapped) : Reaches Advances s (execMmStore a w v s) := by
  unfold execMmStore
  refine request_advances hs (by rw [hl]; rfl) ?_
  trivial

/-- A write of the toggle reads back (10 R46). -/
theorem crSshift_withSshift (w : Word) (b : Bool) :
    crSshift (crWithSshift w b &&& crMask) = b := by
  cases b <;> simp [crSshift, crWithSshift, withBit, crMask]

section
variable {s : State} (h : Running s) (hp : s.chip.pending = .none) (hs : s.seq = .idle)
  (hl : s.life = .indirect)
include h hp hs hl

theorem readBytes_advances (hqe : sr2Qe s.chip.sr2 = true) (a : Word) (n : Nat) :
    Reaches Advances s (execReadBytes a n s) := by
  unfold execReadBytes
  refine request_advances hs (by rw [hl]; rfl) ?_
  split
  · exact .advances_refused _ _ _ _
  · split
    · exact .advances_refused _ _ _ _
    · rename_i hn hr
      have hr' : a.toNat + n ≤ Config.capacity := by simpa [outOfRange] using hr
      obtain ⟨hbus, hcfg, -⟩ := id h
      have ht := txn_qread (s := { s with current := some (.readBytes a n) }) hbus hcfg
        (h.chipReady hp) hqe (by omega) hr'
      rw [ht, andThen_next]
      refine .finish ?_ ?_ _
      · exact ⟨rfl, rfl, rfl⟩
      · exact h.quiet hp

theorem programPage_advances (hqe : sr2Qe s.chip.sr2 = true) (hprot : s.chip.prot = []) (a : Word)
    (d : List Byte) : Reaches Advances s (execProgramPage a d s) := by
  unfold execProgramPage
  refine request_advances hs (by rw [hl]; rfl) ?_
  split
  · exact .advances_refused _ _ _ _
  · rename_i hr
    have hr' : a.toNat + d.length ≤ Config.capacity := by simpa [outOfRange] using hr
    exact programChunks_advances _ (pageChunks_fits hr') h hp hqe hprot

theorem blockErase4k_advances (hprot : s.chip.prot = []) (a : Word) :
    Reaches Advances s (execBlockErase4k a s) := by
  unfold execBlockErase4k
  refine request_advances hs (by rw [hl]; rfl) ?_
  split
  · exact .advances_refused _ _ _ _
  · rename_i hr
    have hr' : a.toNat < Config.capacity := by
      simp only [outOfRange, decide_eq_true_eq] at hr
      omega
    have h24 : (a.setWidth 24).toNat < Config.capacity := by
      unfold Config.capacity at hr' ⊢
      simp only [BitVec.toNat_setWidth]
      omega
    refine erase_advances h hp hprot fun t ht hpt hprot' => ?_
    obtain ⟨k, hk, hk'⟩ := chipTake_se4k_answer { addr := a.setWidth 24 } (ht.chipReady hpt)
      ht.2.2.2 hprot' h24
    exact txn_running (by decide) rfl ht ⟨fun _ => rfl, fun h => absurd rfl h, by simp, by simp,
      fun _ => h24⟩ hk nofun hk'

theorem chipErase_advances (hprot : s.chip.prot = []) : Reaches Advances s (execChipErase s) := by
  unfold execChipErase
  refine request_advances hs (by rw [hl]; rfl) ?_
  refine erase_advances h hp hprot fun t ht hpt hprot' => ?_
  obtain ⟨k, hk, hk'⟩ := chipTake_ce_answer {} (ht.chipReady hpt) ht.2.2.2 hprot'
  exact txn_running (by decide) rfl ht (by simp [argsFit, BusCmd.descriptor, Descriptor.bare]) hk
    nofun hk'

theorem readIds_advances : Reaches Advances s (execReadIds s) := by
  obtain ⟨hbus, ⟨hsize, -⟩, -⟩ := id h
  have ht := txn_rdid (s := writeSshift true { s with current := some .readIds }) hbus hsize
    (crSshift_withSshift _ _) (h.chipReady hp)
  unfold execReadIds
  refine request_advances hs (by rw [hl]; rfl) ?_
  rw [ht, andThen_next]
  refine .finish ?_ ?_ _
  · exact ⟨rfl, rfl, rfl⟩
  · exact h.quiet hp

end

/-- A request that is one transaction and returns what it read (43 R282 to R288). -/
theorem oneTxn_advances {s : State} {i : Instr} {f : State → Result} {r : State → OpResult}
    (hs : s.seq = .idle) (ha : admitted i s.life = true)
    (hf : ∃ t, f { s with current := some i } = .next t ∧ SameRun s t ∧ Quiet t) :
    Reaches Advances s (request i (fun t => andThen (f t) fun u => .next (finish (r u) u)) s) := by
  obtain ⟨t, ht, same, hq⟩ := hf
  rw [request_admitted hs ha, ht, andThen_next]
  exact .finish same hq _

/-- A status read of an idle chip (43 R296). -/
theorem txnRead1_rdsr1_quiet {s : State} (h : Running s) (hp : s.chip.pending = .none) :
    ∃ t, txnRead1 .rdsr1 s = .next t ∧ SameRun s t ∧ Quiet t := by
  have ht := txnRead1_rdsr1 h.1 h.2.1 h.2.2.1
  rw [chipChance_idle (by exact hp)] at ht
  exact ⟨_, ht, ⟨rfl, rfl, rfl⟩, h.quiet hp⟩

/-- A read of SR2 on an idle chip (43 R297). -/
theorem txnRead1_rdsr2_quiet {s : State} (h : Running s) (hp : s.chip.pending = .none) :
    ∃ t, txnRead1 .rdsr2 s = .next t ∧ SameRun s t ∧ Quiet t := by
  have ht := txnRead1_rdsr2 h.1 h.2.1 h.2.2.1
  rw [chipChance_idle (by exact hp)] at ht
  exact ⟨_, ht, ⟨rfl, rfl, rfl⟩, h.quiet hp⟩

theorem txnBare_wren_quiet {s : State} (h : Running s) (hp : s.chip.pending = .none) :
    ∃ t, txnBare .wren s = .next t ∧ SameRun s t ∧ Quiet t := by
  obtain ⟨t, ht, same, hrun, hk⟩ := txnBare_wren_next h hp
  exact ⟨t, ht, same, hrun.quiet (by rw [hk]; exact hp)⟩

theorem waitBusy_advances {s : State} (h : Running s) (hs : s.seq = .idle)
    (hl : s.life = .indirect) : Reaches Advances s (execWaitBusy s) := by
  unfold execWaitBusy
  refine request_advances hs (by rw [hl]; rfl) ?_
  exact pollDone_advances h

/-- A request of a run returns quietly, polls, is refused, or faults (10 R37). -/
theorem exec_advances {s : State} (h : BlockInv s) (hs : s.seq = .idle) {i : Instr}
    (hi : ∀ c : BusCmd, i ≠ c.instr) : Reaches Advances s (exec i s) := by
  have hq := h.quiet hs
  cases ha : admitted i s.life with
  | false =>
    rw [exec_not_admitted hi hs ha]
    exact Reaches.advances_refused .lifecycle i s s.current
  | true =>
    cases hl : s.life with
    | uninit =>
      rw [hl] at ha
      cases i with
      | busBringup p f cs ck => exact busBringup_advances hq hs hl
      | _ => cases ha
    | busReady =>
      rw [hl] at ha
      cases i with
      | init => exact init_advances h hs hl
      | _ => cases ha
    | memMapped =>
      rw [hl] at ha
      cases i with
      | mmLoad a w => exact mmLoad_advances hq hs hl
      | mmStore a w v => exact mmStore_advances hs hl
      | _ => cases ha
    | indirect =>
      obtain ⟨hrun, hqe, hprot, -⟩ := h.indirect hl
      obtain ⟨-, hp, -⟩ := id hq
      rw [hl] at ha
      cases i with
      | intoMemoryMapped => exact intoMemoryMapped_advances hq hs hl
      | readBytes a n => exact readBytes_advances hrun hp hs hl hqe a n
      | programPage a d => exact programPage_advances hrun hp hs hl hqe hprot a d
      | blockErase4k a => exact blockErase4k_advances hrun hp hs hl hprot a
      | chipErase => exact chipErase_advances hrun hp hs hl hprot
      | readIds => exact readIds_advances hrun hp hs hl
      | readStatusRegister1 =>
        exact oneTxn_advances hs (by rw [hl]; rfl)
          (txnRead1_rdsr1_quiet (s := { s with current := some .readStatusRegister1 }) hrun hp)
      | readStatusRegister2 =>
        exact oneTxn_advances hs (by rw [hl]; rfl)
          (txnRead1_rdsr2_quiet (s := { s with current := some .readStatusRegister2 }) hrun hp)
      | writeEnable =>
        exact oneTxn_advances hs (by rw [hl]; rfl)
          (txnBare_wren_quiet (s := { s with current := some .writeEnable }) hrun hp)
      | writeDisable =>
        exact oneTxn_advances hs (by rw [hl]; rfl)
          (txnBare_wren_quiet (s := { s with current := some .writeDisable }) hrun hp)
      | waitBusy => exact waitBusy_advances hrun hs hl
      | _ => cases ha

/-! ### The step -/

theorem frame_instr_not_bus {f : Frame} {i : Instr} (h : f.instr = .ok i) (c : BusCmd) :
    i ≠ c.instr := by
  unfold Frame.instr at h
  dsimp only at h
  (repeat' split at h) <;> cases h
  all_goals cases c <;> nofun

/-- HOST's frames ask for no bus command (00 R5). -/
theorem decode_request_not_bus {frame : List Byte} {i : Instr} (h : decode (.request frame) = .ok i)
    (c : BusCmd) : i ≠ c.instr := by
  unfold decode decodeRequest at h
  cases hf : Frame.ofBytes frame with
  | none => simp [hf] at h
  | some f =>
    cases hi : f.instr with
    | error e => simp [hf, hi] at h
    | ok i' =>
      simp only [hf, hi, Except.ok.injEq] at h
      exact h ▸ frame_instr_not_bus hi c

theorem decode_request_error {frame : List Byte} {e : DescError} :
    decode (.request frame) ≠ .error (.descriptor e) := by
  unfold decode
  dsimp only
  split <;> nofun

/-- What a running poll's next iteration does in a run (40 R183, R188). -/
theorem pollStep_advances {s : State} (h : BlockInv s) {w : PollCont} (hs : s.seq = .polling w) :
    Reaches Advances s (pollStep w s) := by
  obtain ⟨-, -, -, -, -, -, -, hseq, -⟩ := id h
  unfold seqFits at hseq
  rw [hs] at hseq
  cases w with
  | init =>
    simp only [Bool.and_eq_true, beq_iff_eq] at hseq
    obtain ⟨⟨⟨hl, hcur⟩, hpwr⟩, -⟩ := hseq
    have hrun := h.running (by rw [hl]; decide) ⟨h.busReady_crm hl, hpwr⟩
    exact initPoll_advances hrun hl hcur (.inl hs)
  | program l =>
    simp only [Bool.and_eq_true, beq_iff_eq, List.all_eq_true, decide_eq_true_eq] at hseq
    obtain ⟨hl, hfits⟩ := hseq
    obtain ⟨hrun, hqe, hprot, -⟩ := h.indirect hl
    refine pollThen_advances hrun _ fun t ht => ?_
    refine programChunks_advances l (fun c hc => ?_) ht.running ht.idle (by rw [ht.chip]; exact hqe)
      (by rw [ht.chip]; exact hprot)
    obtain ⟨⟨hd, hpage⟩, ha⟩ := hfits c hc
    exact ⟨hd, hpage, ha⟩
  | done =>
    simp only [beq_iff_eq] at hseq
    exact pollDone_advances (h.indirect hseq).1

theorem rejectRequest_advances (e : RequestError) (frame : List Byte) (s : State) :
    Reaches Advances s (rejectRequest e frame s) := by
  cases e <;> (intro c x hx; cases hx; exact .refl s)

/-- What a step of a run does to the returns and the lifecycle. -/
theorem step_advances {s t : State} (h : BlockInv s) (ht : step s = .next t) : Advances s t := by
  cases hs : s.seq with
  | polling w =>
    simp only [step, hs] at ht
    exact settle_advances (pollStep_advances h hs) ht
  | launch =>
    obtain ⟨-, -, -, -, -, -, -, hseq, -⟩ := h
    simp [seqFits, hs] at hseq
  | idle =>
    obtain ⟨hbusy, hp, -⟩ := h.quiet hs
    simp only [step, hs, quiesce_idle hbusy hp] at ht
    have same : SameRun s (takeRequest s) := ⟨rfl, rfl, rfl⟩
    split at ht
    · cases ht
      exact .refl s
    · refine Advances.of_sameRun same ?_
      split at ht
      · rename_i hd
        exact settle_advances (exec_advances (s := takeRequest s) h hs (decode_request_not_bus hd)) ht
      · exact settle_advances (rejectRequest_advances _ _ _) ht
      · rename_i hd
        exact absurd hd decode_request_error

/-- Settles O54: a step of a run returns nothing, or one operation, quietly. -/
theorem operationsReturnQuiet : Obligations.OperationsReturnQuiet := by
  intro s t h ht hne
  cases step_advances h ht with
  | goesOn hr _ => exact absurd hr hne
  | returns hr _ =>
    obtain ⟨hres, hseq, hcur, hbusy, hp, hb⟩ := hr
    exact ⟨hseq, hcur, hbusy, hp, hb, by simp [hres]⟩

/-- Settles O55: the lifecycle moves only at a return, and `LifeMove` has the three edges. -/
theorem lifecycleEdges : Obligations.LifecycleEdges := by
  refine ⟨fun s t h ht hne => ?_, fun _ _ => ⟨rfl, rfl⟩⟩
  cases step_advances h ht with
  | goesOn _ hl => exact absurd hl hne
  | returns hr hl =>
    obtain ⟨hres, -⟩ := hr
    cases hl with
    | stays hl => exact absurd hl hne
    | busBringup p f cs ck hs ht => exact .inl ⟨hs, ht, p, f, cs, ck, hres⟩
    | init hs ht hq => exact .inr (.inl ⟨hs, ht, hq, hres⟩)
    | intoMemoryMapped hs ht => exact .inr (.inr ⟨hs, ht, hres⟩)

end Sys2Proof.Machine
end
section
/-! PROOF. The wire and the address spaces (20_memory.md rules R92, R103, R104; 10_state.md rule R40). -/

namespace Sys2Proof.Machine

/-! ### The order of bits on the lanes -/

/-- What the lanes show in clock `i` of a value of `k` bytes: the bits from the top down, as many as the
width has lines, the highest lane first (20 R92). -/
def laneBits (w : Width) (k : Nat) {n : Nat} (v : BitVec n) (i : Nat) : List Bool :=
  (List.range (lines w)).map fun j => v.getLsbD (8 * k - 1 - lines w * i - j)

/-- A byte takes a whole number of clocks over each width. -/
theorem lines_mul_phaseCycles {w : Width} (hw : w ≠ .none) : lines w * phaseCycles w 1 = 8 := by
  cases w with
  | none => exact absurd rfl hw
  | _ => rfl

theorem byteClocks_eq (w : Width) (b : Byte) :
    byteClocks w b = (List.range (phaseCycles w 1)).map (laneBits w 1 b) := by
  cases w <;> rfl

/-- The clocks of the top byte of `k + 1` are the first of the value's (20 R92). -/
theorem laneBits_top {w : Width} (hw : w ≠ .none) (k : Nat) (v : Word) {i : Nat}
    (hi : i < phaseCycles w 1) :
    laneBits w 1 (v.extractLsb' (8 * k) 8) i = laneBits w (k + 1) v i := by
  refine List.map_congr_left fun j hj => ?_
  have hlane : lines w * i + j < 8 := by
    have := List.mem_range.1 hj
    calc lines w * i + j < lines w * (i + 1) := by rw [Nat.mul_succ]; omega
      _ ≤ lines w * phaseCycles w 1 := Nat.mul_le_mul_left _ hi
      _ = 8 := lines_mul_phaseCycles hw
  rw [BitVec.getLsbD_extractLsb', show 8 * (k + 1) - 1 - lines w * i - j =
    8 * k + (8 * 1 - 1 - lines w * i - j) by omega]
  simp; omega

/-- The clocks after the top byte are those of the bytes below it. -/
theorem laneBits_below {w : Width} (hw : w ≠ .none) (k : Nat) (v : Word) (i : Nat) :
    laneBits w (k + 1) v (phaseCycles w 1 + i) = laneBits w k v i := by
  refine List.map_congr_left fun j _ => ?_
  rw [Nat.mul_add (lines w), lines_mul_phaseCycles hw]
  congr 1
  omega

/-- The low `k` bytes of a value go out from the top bit down, over any width (20 R92). -/
theorem bytesClocks_msbFirst {w : Width} (hw : w ≠ .none) (v : Word) :
    ∀ k : Nat, bytesClocks w (bytesMsbFirst k v) =
      (List.range (phaseCycles w 1 * k)).map (laneBits w k v)
  | 0 => rfl
  | k + 1 => by
    have ih := bytesClocks_msbFirst hw v k
    simp only [bytesClocks] at ih
    rw [bytesClocks, bytesMsbFirst, List.flatMap_cons, ih, byteClocks_eq, Nat.mul_succ,
      Nat.add_comm (phaseCycles w 1 * k), List.range_add, List.map_append, List.map_map]
    congr 1
    · exact List.map_congr_left fun i hi => laneBits_top hw k v (List.mem_range.1 hi)
    · exact List.map_congr_left fun i _ => (laneBits_below hw k v i).symm

/-- Settles O6: the clocks of three bytes over each width, by `bytesClocks_msbFirst`. -/
theorem bitsGoMostSignificantFirst : Obligations.BitsGoMostSignificantFirst := by
  intro a
  have order {w : Width} (hw : w ≠ .none) := bytesClocks_msbFirst hw a 3
  exact ⟨order (w := .single) nofun, order (w := .dual) nofun, order (w := .quad) nofun⟩

/-! ### The address spaces -/

/-- Settles O7: the sizes and the ranges of the four classes, added up. -/
theorem geometryCoversTheChip : Obligations.GeometryCoversTheChip := by
  refine ⟨?_, rfl, ?_⟩
  · simp [geometrySize, Config.geometry, Config.capacity]
  · simp [sectorRanges, Config.geometry]

theorem windowOffset_inside {cfg : Params} {addr : Word}
    (h : cfg.mmBase.toNat ≤ addr.toNat ∧ addr.toNat < cfg.mmBase.toNat + 8388608) :
    windowOffset cfg addr = some (addr - cfg.mmBase) := if_pos h

theorem windowOffset_outside {cfg : Params} {addr : Word}
    (h : ¬ (cfg.mmBase.toNat ≤ addr.toNat ∧ addr.toNat < cfg.mmBase.toNat + 8388608)) :
    windowOffset cfg addr = none := if_neg h

/-- The registers stand in the order of their offsets, one word apart (10 R40). -/
theorem Reg.all_getElem (r : Reg) : Reg.all[r.offset / 4]? = some r := by
  cases r <;> rfl

theorem Reg.offset_injective {r r' : Reg} (h : r.offset = r'.offset) : r = r' := by
  have hr := Reg.all_getElem r
  rw [h, Reg.all_getElem] at hr
  exact (Option.some.inj hr).symm

/-- A register is found at its address and nowhere else (10 R40). -/
theorem regAt_eq_some (cfg : Params) (addr : Word) (r : Reg) :
    regAt cfg addr = some r ↔ addr.toNat = cfg.regBase.toNat + r.offset := by
  have found {r' : Reg} (h : regAt cfg addr = some r') :
      addr.toNat = cfg.regBase.toNat + r'.offset := by
    unfold regAt at h
    have hit := List.find?_some h
    exact (beq_iff_eq.1 hit).symm
  refine ⟨found, fun h => ?_⟩
  cases hr : regAt cfg addr with
  | none =>
    have hmiss := List.find?_eq_none.1 hr r (List.mem_of_getElem? (Reg.all_getElem r))
    simp [h] at hmiss
  | some r' =>
    have := found hr
    rw [Reg.offset_injective (r := r') (r' := r) (by omega)]

/-- Settles O8: the bounds of the window, and the register at each offset. -/
theorem addressMapOfWindowAndRegisters : Obligations.AddressMapOfWindowAndRegisters := by
  refine ⟨fun cfg addr w v => ⟨fun h => ?_, fun h => ?_⟩, regAt_eq_some⟩
  · simp [cpuLoad, cpuStore, windowOffset_inside h]
  · simp [cpuLoad, cpuStore, windowOffset_outside h]

end Sys2Proof.Machine
end
section
/-! PROOF. What a reset inside a program or an erase leaves in the array (20_memory.md rule R101; log 24),
and the array in MEMMAPPED (20_memory.md rule R113, 41_lifecycle.md rule R216). -/

namespace Sys2Proof.Machine

/-! ### The interrupted range -/

/-- Filling sets each byte of the range and leaves every other byte. -/
theorem Memory.read_fill :
    ∀ (bytes : List Byte) {m : Memory} {a : Nat} (x : Nat), m.wf = true →
      a + bytes.length ≤ Config.capacity →
      (m.fill a bytes).read x =
        if a ≤ x ∧ x < a + bytes.length then bytes.getD (x - a) Config.erased else m.read x
  | [], _, a, x, _, _ => by
    have outside : ¬ (a ≤ x ∧ x < a + 0) := by omega
    exact (if_neg outside).symm
  | b :: bs, m, a, x, hm, ha => by
    rw [List.length_cons] at ha
    have ih := Memory.read_fill bs x (Memory.wf_set b hm (by omega : a < _)) (a := a + 1) (by omega)
    rw [Memory.fill, ih, Memory.read_set hm, List.length_cons]
    rcases Nat.lt_trichotomy x a with hx | rfl | hx
    · rw [if_neg (by omega), if_neg (by omega), if_neg (by omega)]
    · rw [if_neg (by omega), if_pos rfl, if_pos (by omega), Nat.sub_self]
      rfl
    · obtain ⟨i, rfl⟩ := Nat.exists_eq_add_of_lt hx
      have tail : a + i + 1 - a = i + 1 ∧ a + i + 1 - (a + 1) = i := by omega
      simp only [tail, List.getD_cons_succ, if_neg (by omega : ¬ a + i + 1 = a)]
      exact if_congr (by omega) rfl rfl

/-- The interrupted range is a draw, byte by byte, and the rest of the array stays (20 R101). -/
theorem read_interruptArray (f : Nat → Byte) {k : Chip} {r : Range} (hwf : k.array.wf = true)
    (hr : interruptedRange k.pending = r) (hcap : r.base + r.n ≤ Config.capacity) (x : Nat) :
    (interruptArray f k).read x =
      if r.base ≤ x ∧ x < r.base + r.n then f x else k.array.read x := by
  have hlen : ((List.range r.n).map fun i => f (r.base + i)).length = r.n := by simp
  rw [interruptArray, hr, Memory.read_fill _ x hwf (by rw [hlen]; exact hcap), hlen]
  split
  · rename_i hx
    have hin : x - r.base < r.n := by omega
    simp [List.getD_eq_getElem?_getD, hin, show r.base + (x - r.base) = x by omega]
  · rfl

/-- A page is the addresses that share its number (42 R248). -/
theorem mem_page_iff (a x : Nat) :
    a - a % Config.pageSize ≤ x ∧ x < a - a % Config.pageSize + Config.pageSize ↔
      a / 256 = x / 256 := by
  unfold Config.pageSize
  omega

/-- Settles O60: either reset leaves `interruptArray`, whose range is the program's page or the erase's
own range. -/
theorem resetInsideAProgramOrErase : Obligations.ResetInsideAProgramOrErase := by
  intro d s hwf _ t ht
  have harray : t.chip.array = interruptArray d.interrupted s.chip := by
    simp only [List.mem_cons, List.not_mem_nil, or_false] at ht
    rcases ht with rfl | rfl <;> rfl
  rw [harray]
  refine ⟨fun a data x hp ha => ?_, fun a n x hp hn => ?_⟩
  · have hr : interruptedRange s.chip.pending = ⟨a - a % Config.pageSize, Config.pageSize⟩ := by
      rw [hp]; rfl
    have hcap : a - a % Config.pageSize + Config.pageSize ≤ Config.capacity := by
      unfold Config.pageSize Config.capacity
      omega
    rw [read_interruptArray _ hwf hr hcap]
    exact if_congr (mem_page_iff a x) rfl rfl
  · have hr : interruptedRange s.chip.pending = ⟨a, n⟩ := by rw [hp]; rfl
    exact read_interruptArray _ hwf hr hn x

/-! ### MEMMAPPED -/

/-- What a step in MEMMAPPED keeps: the lifecycle, the sequencer at rest, the trace, the word in `CCR`,
and the chip but for its two latches. -/
structure WindowKeeps (s t : State) : Prop where
  life : t.life = s.life
  seq : t.seq = .idle
  trace : t.trace = s.trace
  ccr : t.regs.ccr = s.regs.ccr
  chip : t.chip = { s.chip with crm := t.chip.crm, vwe := t.chip.vwe }

theorem WindowKeeps.refl {s : State} (hs : s.seq = .idle) : WindowKeeps s s := ⟨rfl, hs, rfl, rfl, rfl⟩

theorem WindowKeeps.trans {s t u : State} (h1 : WindowKeeps s t) (h2 : WindowKeeps t u) :
    WindowKeeps s u :=
  ⟨h2.life.trans h1.life, h2.seq, h2.trace.trans h1.trace, h2.ccr.trans h1.ccr,
    h2.chip.trans (by rw [h1.chip])⟩

theorem Reaches.keeps {s t : State} {o : Result} (h : WindowKeeps s t) (ho : Reaches WindowKeeps t o) :
    Reaches WindowKeeps s o := by
  cases o with
  | next u => exact h.trans ho
  | fault f => trivial
  | refused r => exact fun c x hx => h.trans (ho c x hx)

/-- A read of the chip's array changes the two latches alone (43 R306, R309). -/
theorem chipTake_mmread_frame {x : BusTxn} {n : Nat} {k k' : Chip} {b : List Byte}
    (h : chipTake .mmread x n k = .answer k' b) : k' = { k with crm := k'.crm, vwe := k'.vwe } := by
  unfold chipTake chipContinuation at h
  (repeat' split at h) <;> cases h <;> rfl

theorem startWindow_chip {a : WindowAccess} {s t : State} (h : startWindow a s = .next t) :
    t.chip = { s.chip with crm := t.chip.crm, vwe := t.chip.vwe } := by
  unfold startWindow at h
  extract_lets tx s1 at h
  (repeat' split at h) <;> cases h
  case h_1 hk => exact chipTake_mmread_frame hk
  case h_2 => rfl

/-- PERIPH's step changes two flags of `SR`, and no descriptor register. -/
theorem periphEnd_ccr (s : State) : (periphEnd s).regs.ccr = s.regs.ccr := by
  unfold periphEnd
  split <;> rfl

/-- The window read of `mm_load`, returned or refused (41 R217). -/
theorem windowRead_keeps {s : State} (hs : s.seq = .idle) (a : WindowAccess) :
    Reaches WindowKeeps s (andThen (startWindow a s) fun t =>
      .next (finish (.word (leValue t.rx)) { periphEnd t with window := none })) := by
  cases ho : startWindow a s with
  | next t =>
    obtain ⟨-, ht, -⟩ := startWindow_next ho
    have hchip := startWindow_chip ho
    refine ⟨?_, rfl, ?_, ?_, ?_⟩
    · exact (periphEnd_life t).trans (by rw [ht])
    · exact (periphEnd_trace t).trans (by rw [ht])
    · exact (periphEnd_ccr t).trans (by rw [ht])
    · show (periphEnd t).chip =
        { s.chip with crm := (periphEnd t).chip.crm, vwe := (periphEnd t).chip.vwe }
      rw [periphEnd_chip]
      exact hchip
  | fault f => trivial
  | refused r =>
    intro c x hx
    obtain ⟨-, hx⟩ | ⟨t, ht⟩ := startWindow_refused ho hx
    · rw [hx]
      exact .refl hs
    · rw [ht]
      exact ⟨rfl, hs, rfl, rfl, rfl⟩

theorem refuseRequest_keeps {s : State} (hs : s.seq = .idle) (c : RefCode) (i : Instr) :
    Reaches WindowKeeps s (refuseRequest c i s) := by
  intro c' x hx
  cases c <;> cases hx <;> exact .refl hs

theorem rejectRequest_keeps {s : State} (hs : s.seq = .idle) (e : RequestError) (frame : List Byte) :
    Reaches WindowKeeps s (rejectRequest e frame s) := by
  cases e <;> (intro c x hx; cases hx; exact .refl hs)

/-- A load returns, is refused or faults before its read, or is refused by it (41 R218). -/
theorem mmLoad_keeps {s : State} {a w : Word} (hs : s.seq = .idle) (hl : s.life = .memMapped) :
    Reaches WindowKeeps s (execMmLoad a w s) := by
  unfold execMmLoad
  rw [request_admitted hs (by rw [hl]; rfl)]
  split
  · exact refuseRequest_keeps hs _ _
  · split
    · exact refuseRequest_keeps hs _ _
    · split
      · trivial
      · refine Reaches.keeps ?_ (windowRead_keeps ?_ _)
        · exact ⟨rfl, hs, rfl, rfl, rfl⟩
        · exact hs

/-- In MEMMAPPED only the two accesses of the CPU are admitted (10 R32), and a store faults (41 R219). -/
theorem exec_memMapped_keeps {s : State} (hs : s.seq = .idle) (hl : s.life = .memMapped) {i : Instr}
    (hi : ∀ c : BusCmd, i ≠ c.instr) : Reaches WindowKeeps s (exec i s) := by
  cases ha : admitted i s.life with
  | false =>
    rw [exec_not_admitted hi hs ha]
    exact refuseRequest_keeps hs .lifecycle i
  | true =>
    rw [hl] at ha
    cases i with
    | mmLoad a w => exact mmLoad_keeps hs hl
    | mmStore a w v =>
      rw [exec, execMmStore, request_admitted hs (by rw [hl]; rfl)]
      trivial
    | _ => cases ha

/-- A step's state from an outcome: what holds of the state a refusal leaves must hold beside its mark. -/
theorem settle_reaches {R : State → State → Prop} {s t : State} {o : Result} (ho : Reaches R s o)
    (hmark : ∀ c x, R s x.state → R s (markRefusal c x)) (ht : settle o = .next t) : R s t := by
  cases o with
  | next u => cases ht; exact ho
  | fault f => cases ht
  | refused r =>
    unfold settle at ht
    dsimp only at ht
    split at ht
    · rename_i c x hx
      cases ht
      exact hmark c x (ho c x hx)
    · cases ht

theorem settle_keeps {s t : State} {o : Result} (ho : Reaches WindowKeeps s o)
    (ht : settle o = .next t) : WindowKeeps s t :=
  settle_reaches ho (fun _ _ ⟨hlife, _, htrace, hccr, hchip⟩ => ⟨hlife, rfl, htrace, hccr, hchip⟩) ht

/-- In MEMMAPPED no poll runs and no descriptor is placed (41 R215). -/
theorem BlockInv.memMapped_idle {s : State} (h : BlockInv s) (hl : s.life = .memMapped) :
    s.seq = .idle := by
  obtain ⟨-, -, -, -, -, -, -, hseq, -⟩ := h
  unfold seqFits at hseq
  split at hseq
  case h_1 hs => exact hs
  all_goals simp [hl] at hseq

/-- A step of a run in MEMMAPPED serves at most one request, with PERIPH and CHIP at rest (41 R216). -/
theorem step_memMapped_keeps {s t : State} (h : BlockInv s) (hl : s.life = .memMapped)
    (ht : step s = .next t) : WindowKeeps s t := by
  have hs := h.memMapped_idle hl
  obtain ⟨hbusy, hp, -⟩ := h.quiet hs
  simp only [step, hs, quiesce_idle hbusy hp] at ht
  split at ht
  · cases ht
    exact .refl hs
  · have taken : WindowKeeps s (takeRequest s) := ⟨rfl, hs, rfl, rfl, rfl⟩
    refine taken.trans ?_
    split at ht
    · rename_i hd
      exact settle_keeps
        (exec_memMapped_keeps (s := takeRequest s) hs hl (decode_request_not_bus hd)) ht
    · exact settle_keeps (rejectRequest_keeps (s := takeRequest s) hs _ _) ht
    · rename_i hd
      exact absurd hd decode_request_error

/-- Settles O56: what `WindowKeeps` says of a step in MEMMAPPED. -/
theorem memMappedIsFinalAndReadOnly : Obligations.MemMappedIsFinalAndReadOnly := by
  intro s t h hl ht
  obtain ⟨hlife, hseq, htrace, hccr, hchip⟩ := step_memMapped_keeps h hl ht
  exact ⟨hlife.trans hl, hseq, htrace, hccr, hchip⟩

end Sys2Proof.Machine
end
section
/-! PROOF. An operation that programs or erases, completed before its poll, and what `read_bytes` then
returns (20_memory.md rules R111, R112). -/

namespace Sys2Proof.Machine

/-! ### An internal operation that the chip completes before its first status read -/

/-- The state after a command that starts an internal operation at the chip, before CHIP's opportunity:
the command's word, length and address in the registers, its record in the trace. -/
def opStarted (ccr dlr ar : Word) (p : Pending) (x : BusTxn) (s : State) : State :=
  { s with
    regs := { afterTxn ccr s.regs with dlr := dlr, ar := ar }
    chip := chipStart p { s.chip with vwe := false }
    rx := []
    trace := s.trace ++ [x] }

/-- The state after CHIP's completion step, taken at its opportunity (43 R307). -/
def completed (s : State) : State :=
  { s with chip := chipComplete s.chip, schedule := s.schedule.tail, chances := s.chances + 1 }

/-- The state after an internal operation's command, its completion and the one status read of its poll. -/
def opPolled (ccr dlr ar : Word) (p : Pending) (x : BusTxn) (s : State) : State :=
  statusRead (completed (opStarted ccr dlr ar p x s))

/-- An array operation can issue its next command: the bus is idle, and the chip is ready, unprotected and
has QE set (43 R295). -/
abbrev ArrayReady (s : State) : Prop :=
  BusIdle s ∧ Configured s ∧ ChipReady s.chip ∧ sr2Qe s.chip.sr2 = true ∧ s.chip.prot = []

theorem chipComplete_pending (k : Chip) : (chipComplete k).pending = .none := by
  unfold chipComplete
  split
  · assumption
  all_goals rfl

theorem chipChance_completes {s : State} (hp : s.chip.pending ≠ .none) {rest : List Bool}
    (hs : s.schedule = true :: rest) : chipChance s = completed s := by
  rw [chipChance_cons hp hs, completed, hs]
  rfl

section
variable {ccr dlr ar : Word} {p : Pending} {x : BusTxn} {s : State}

theorem opStarted_running (h : ArrayReady s) (hp : p ≠ .none) :
    Running (opStarted ccr dlr ar p x s) := by
  obtain ⟨hbus, hcfg, ⟨hcrm, hpwr, -⟩, -⟩ := h
  exact ⟨hbus, hcfg, ⟨hcrm, hpwr⟩, (sr1Busy_withBusy _ _).trans (decide_eq_true hp).symm⟩

/-- A poll whose operation the chip has completed goes on after one status read (40 R183, R187). -/
theorem pollThen_completed (h : ArrayReady s) (hp : p ≠ .none) {rest : List Bool}
    (hs : s.schedule = true :: rest) (w : PollCont) (k : State → Result) :
    pollThen w k (chipChance (opStarted ccr dlr ar p x s)) = k (opPolled ccr dlr ar p x s) := by
  have hrun := (opStarted_running (ccr := ccr) (dlr := dlr) (ar := ar) (x := x) h hp).chance
  rw [chipChance_completes (s := opStarted ccr dlr ar p x s) hp hs] at hrun ⊢
  rw [pollThen_eq hrun]
  exact if_pos (chipComplete_pending _)

/-- After a program or an erase the next command can be issued. -/
theorem opPolled_ready (h : ArrayReady s) (hp : ∀ v b, p ≠ .wrsr2 v b) :
    ArrayReady (opPolled ccr dlr ar p x s) := by
  obtain ⟨hbus, hcfg, ⟨hcrm, hpwr, -⟩, hqe, hprot⟩ := h
  have hsr2 := chipComplete_sr2 (k := chipStart p { s.chip with vwe := false }) hp
  have hframe := chipComplete_frame (chipStart p { s.chip with vwe := false })
  refine ⟨hbus, hcfg, ⟨?_, ?_, chipComplete_pending _⟩, ?_, ?_⟩
  · exact (congrArg Chip.crm hframe).trans hcrm
  · exact (congrArg Chip.pwr hframe).trans hpwr
  · exact (congrArg sr2Qe hsr2).trans hqe
  · exact (congrArg Chip.prot hframe).trans hprot

end

/-- A return changes nothing that the next command needs. -/
theorem ArrayReady.finish {s : State} (h : ArrayReady s) (r : OpResult) :
    ArrayReady (Machine.finish r s) := h

/-! ### The write-enable -/

/-- The state after a write-enable (43 R298). -/
def wrenSent (s : State) : State :=
  { s with
    regs := afterTxn 0x00000106 s.regs
    chip := { s.chip with sr1 := sr1WithWel s.chip.sr1 true, vwe := false }
    rx := []
    trace := s.trace ++ [bareTxn 0x06 false] }

theorem txnBare_wren_eq {s : State} (h : ArrayReady s) : txnBare .wren s = .next (wrenSent s) := by
  obtain ⟨hbus, hcfg, hchip, -⟩ := h
  exact txnBare_wren hbus hcfg hchip

theorem wrenSent_ready {s : State} (h : ArrayReady s) : ArrayReady (wrenSent s) := h

theorem wrenSent_wel (s : State) : sr1Wel (wrenSent s).chip.sr1 = true := sr1Wel_withWel _ _

/-! ### `read_bytes` -/

/-- A request that INDIRECT admits runs its body (10 R32, R33). -/
theorem request_indirect {i : Instr} {s : State} (hs : s.seq = .idle) (hl : s.life = .indirect)
    (ha : admitted i .indirect = true) (body : State → Result) :
    request i body s = body { s with current := some i } :=
  request_admitted hs (by rw [hl]; exact ha) body

/-- `read_bytes` inside the array returns its bytes, in address order (42 R240). -/
theorem exec_readBytes {s : State} (hs : s.seq = .idle) (hl : s.life = .indirect) (h : ArrayReady s)
    {a : Word} {n : Nat} (hn : 1 ≤ n) (ha : a.toNat + n ≤ Config.capacity) :
    ∃ t, exec (.readBytes a n) s = .next t ∧
      t.results = s.results ++
        [⟨some (.readBytes a n), .bytes (s.chip.array.readRange a.toNat n)⟩] := by
  obtain ⟨hbus, hcfg, hready, hqe, -⟩ := h
  have hread := txn_qread (s := { s with current := some (.readBytes a n) }) hbus hcfg hready hqe hn ha
  have hrange : outOfRange a n = false := by simpa [outOfRange] using ha
  rw [exec, execReadBytes, request_indirect hs hl rfl, if_neg (by omega), hrange,
    if_neg Bool.false_ne_true, hread, andThen_next]
  exact ⟨_, rfl, rfl⟩

/-! ### Programs -/

/-- The state after one chunk that completes before its poll (42 R245). -/
def chunkPolled (s : State) (c : Nat × List Byte) : State :=
  opPolled 0x03002532 (BitVec.ofNat 32 (c.2.length - 1)) (BitVec.ofNat 32 c.1) (.program c.1 c.2)
    (qppTxn (BitVec.ofNat 32 c.1) c.2 false) (wrenSent s)

/-- One chunk, completed before its poll, is programmed into the array (42 R249). -/
theorem chunkPolled_array (s : State) (c : Nat × List Byte) :
    (chunkPolled s c).chip.array = s.chip.array.program c.1 c.2 := rfl

theorem chunkPolled_schedule (s : State) (c : Nat × List Byte) :
    (chunkPolled s c).schedule = s.schedule.tail := rfl

theorem chunkPolled_ready {s : State} (h : ArrayReady s) (c : Nat × List Byte) :
    ArrayReady (chunkPolled s c) :=
  opPolled_ready (wrenSent_ready h) nofun

/-- One chunk's write-enable, program and poll, the program completing before the poll (42 R245, R247). -/
theorem programChunk_completes {s : State} {a : Nat} {d : List Byte} (hfit : ChunkFits (a, d))
    (h : ArrayReady s) {rest : List Bool} (hs : s.schedule = true :: rest) (w : PollCont)
    (k : State → Result) :
    andThen (programChunk a d s) (pollThen w k) = k (chunkPolled s (a, d)) := by
  have hready := wrenSent_ready h
  obtain ⟨hbus, hcfg, hchip, hqe, hprot⟩ := id hready
  obtain ⟨hd, hpage, ha⟩ := hfit
  have hqpp := txn_qpp hbus hcfg hchip hqe (wrenSent_wel s) hprot hd hpage ha
  rw [programChunk, txnBare_wren_eq h, andThen_next, hqpp, andThen_next]
  exact pollThen_completed (p := .program a d) hready nofun hs w k

/-- What programs that complete before their polls leave (42 R245). -/
theorem programChunks_eq :
    ∀ (cs : List (Nat × List Byte)) {s : State} {rest : List Bool}, (∀ c ∈ cs, ChunkFits c) →
      ArrayReady s → s.schedule = List.replicate cs.length true ++ rest →
      programChunks cs s = .next (finish .unit (cs.foldl chunkPolled s))
  | [], _, _, _, _, _ => rfl
  | (a, d) :: cs, s, rest, hfit, h, hs => by
    have hchunk := programChunk_completes (hfit _ (List.mem_cons_self ..)) h hs (.program cs)
      (programChunks cs)
    have hs' : (chunkPolled s (a, d)).schedule = List.replicate cs.length true ++ rest := by
      rw [chunkPolled_schedule, hs]
      rfl
    exact hchunk.trans (programChunks_eq cs (fun c hc => hfit c (List.mem_cons_of_mem _ hc))
      (chunkPolled_ready h _) hs')

/-- Chunks that complete one after another keep the lifecycle and the readiness for the next command, and
are programmed in their order. -/
theorem foldl_chunkPolled (cs : List (Nat × List Byte)) {s : State} (h : ArrayReady s) :
    ArrayReady (cs.foldl chunkPolled s) ∧
      (cs.foldl chunkPolled s).life = s.life ∧
      (cs.foldl chunkPolled s).chip.array =
        cs.foldl (fun m c => m.program c.1 c.2) s.chip.array := by
  induction cs generalizing s with
  | nil => exact ⟨h, rfl, rfl⟩
  | cons c cs ih =>
    obtain ⟨hready, hlife, harray⟩ := ih (chunkPolled_ready h c)
    rw [chunkPolled_array] at harray
    exact ⟨hready, hlife, harray⟩

/-- Programming two byte strings, the second behind the first, programs both at once. -/
theorem Memory.program_append :
    ∀ (d e : List Byte) (m : Memory) (a : Nat),
      m.program a (d ++ e) = (m.program a d).program (a + d.length) e
  | [], _, _, _ => rfl
  | b :: d, e, m, a => by
    rw [List.cons_append, Memory.program, Memory.program_append d, Memory.program, List.length_cons,
      Nat.add_assoc, Nat.add_comm 1]

/-- The loop's chunks, programmed one after another, program its data (42 R245). -/
theorem chunkLoop_program :
    ∀ (fuel a : Nat) (data : List Byte) (chunk : Nat) (m : Memory), data.length ≤ fuel →
      (data.length ≠ 0 → 1 ≤ chunk ∧ chunk ≤ data.length) →
      (chunkLoop fuel a data chunk).foldl (fun m c => m.program c.1 c.2) m = m.program a data
  | 0, _, data, _, _, hfuel, _ => by
    rw [List.eq_nil_of_length_eq_zero (Nat.le_zero.1 hfuel)]
    rfl
  | fuel + 1, a, data, chunk, m, hfuel, hchunk => by
    unfold chunkLoop
    split
    · rename_i hd
      rw [List.eq_nil_of_length_eq_zero hd]
      rfl
    · rename_i hd
      obtain ⟨hpos, hle⟩ := hchunk hd
      have hlen : (data.take chunk).length = chunk := List.length_take_of_le hle
      rw [List.foldl_cons, chunkLoop_program fuel]
      · calc (m.program a (data.take chunk)).program (a + chunk) (data.drop chunk)
          _ = m.program a (data.take chunk ++ data.drop chunk) := by
            rw [Memory.program_append, hlen]
          _ = m.program a data := by rw [List.take_append_drop]
      · rw [List.length_drop]
        omega
      · unfold Config.pageSize
        omega

theorem pageChunks_program (a : Nat) (data : List Byte) (m : Memory) :
    (pageChunks a data).foldl (fun m c => m.program c.1 c.2) m = m.program a data := by
  refine chunkLoop_program _ _ _ _ _ (Nat.le_refl _) fun hd => ?_
  unfold Config.pageSize
  omega

/-- `program_page` whose chunks each complete before their poll: it returns with the data programmed into
the array, ready for the next request (42 R245, R249). -/
theorem exec_programPage {s : State} (hs : s.seq = .idle) (hl : s.life = .indirect) (h : ArrayReady s)
    {a : Word} {data : List Byte} {rest : List Bool} (ha : a.toNat + data.length ≤ Config.capacity)
    (hsch : s.schedule = List.replicate (pageChunks a.toNat data).length true ++ rest) :
    ∃ t, exec (.programPage a data) s = .next t ∧ t.seq = .idle ∧ t.life = .indirect ∧
      ArrayReady t ∧ t.chip.array = s.chip.array.program a.toNat data := by
  have hready : ArrayReady { s with current := some (.programPage a data) } := h
  obtain ⟨hdone, hlife, harray⟩ := foldl_chunkPolled (pageChunks a.toNat data) hready
  have hrange : outOfRange a data.length = false := by simpa [outOfRange] using ha
  rw [exec, execProgramPage, request_indirect hs hl rfl, hrange, if_neg Bool.false_ne_true,
    programChunks_eq _ (pageChunks_fits ha) hready hsch]
  exact ⟨_, rfl, rfl, hlife.trans hl, hdone, harray.trans (pageChunks_program _ _ _)⟩

/-- A read of what was just programmed (20 R111). -/
theorem readRange_program {m : Memory} (hm : m.wf = true) {a : Nat} {data : List Byte}
    (ha : a + data.length ≤ Config.capacity) :
    (m.program a data).readRange a data.length =
      (List.range data.length).map fun i => m.read (a + i) &&& data.getD i 0 := by
  refine List.map_congr_left fun i hi => ?_
  have hi := List.mem_range.1 hi
  rw [Memory.read_program data _ hm ha, if_pos (by omega), Nat.add_sub_cancel_left]
  simp [List.getD_eq_getElem?_getD, hi]

/-- On an erased range the AND is the data (20 R111). -/
theorem map_and_erased {f : Nat → Byte} {data : List Byte}
    (hf : ∀ i, i < data.length → f i = 0xFF) :
    (List.range data.length).map (fun i => f i &&& data.getD i 0) = data := by
  refine List.ext_getElem (by simp) fun i _ hi => ?_
  have hones : ∀ v : Byte, 0xFF &&& v = v := by decide
  simp only [List.getElem_map, List.getElem_range, hf i hi, hones]
  simp [List.getD_eq_getElem?_getD, hi]

/-- Settles O44: `exec_programPage`, and then `exec_readBytes` of the array it leaves. -/
theorem programThenReadBack : Obligations.ProgramThenReadBack := by
  intro a data s rest ⟨hs, hl, hbus, hchip, hcfg⟩ hqe hprot hwf hne ha hsch
  obtain ⟨t, ht, hs', hl', hready, harray⟩ :=
    exec_programPage hs hl ⟨hbus, hcfg, hchip, hqe, hprot⟩ ha hsch
  obtain ⟨u, hu, hres⟩ := exec_readBytes hs' hl' hready (List.length_pos_iff.2 hne) ha
  rw [harray, readRange_program hwf ha] at hres
  exact ⟨t, u, _, ht, hu, hres, rfl, map_and_erased⟩

/-! ### Erases -/

/-- An erase, completed before its poll, has erased its range (42 R251). -/
theorem opPolled_erase (ccr dlr ar : Word) (b n : Nat) (x : BusTxn) (s : State) :
    (opPolled ccr dlr ar (.erase b n) x s).chip.array = s.chip.array.erase b n := rfl

/-- An erase operation whose erase completes before its poll, after its write-enable (42 R250, R253). -/
theorem erase_completes {s : State} {erase : State → Result} {ccr dlr ar : Word} {b n : Nat}
    {x : BusTxn} {rest : List Bool} (h : ArrayReady s) (hw : s.cfg.eraseWren = true)
    (hs : s.schedule = true :: rest)
    (he : erase (wrenSent s) = .next (chipChance (opStarted ccr dlr ar (.erase b n) x (wrenSent s)))) :
    ∃ t, andThen (eraseWren s) (fun t => andThen (erase t) fun u => pollDone u) = .next t ∧
      t.seq = .idle ∧ t.life = s.life ∧ ArrayReady t ∧ t.chip.array = s.chip.array.erase b n := by
  have hready := wrenSent_ready h
  have hdone : ArrayReady (opPolled ccr dlr ar (.erase b n) x (wrenSent s)) :=
    opPolled_ready hready nofun
  have harray := opPolled_erase ccr dlr ar b n x (wrenSent s)
  have hpoll := pollThen_completed (ccr := ccr) (dlr := dlr) (ar := ar) (p := .erase b n) (x := x)
    hready nofun hs .done fun t => .next (finish .unit t)
  rw [eraseWren, if_pos hw, txnBare_wren_eq h, andThen_next, he, andThen_next, pollDone, hpoll]
  exact ⟨_, rfl, rfl, rfl, hdone.finish .unit, harray⟩

/-- `block_erase_4k` whose erase completes before its poll (42 R250, R251). -/
theorem exec_blockErase4k {s : State} (hs : s.seq = .idle) (hl : s.life = .indirect)
    (h : ArrayReady s) (hw : s.cfg.eraseWren = true) {rest : List Bool}
    (hsch : s.schedule = true :: rest) {a : Word} (ha : a.toNat < Config.capacity) :
    ∃ t, exec (.blockErase4k a) s = .next t ∧ t.seq = .idle ∧ t.life = .indirect ∧ ArrayReady t ∧
      t.chip.array = s.chip.array.erase (blockBase a.toNat) Config.eraseBlock := by
  have hrange : outOfRange a 1 = false := by
    simp only [outOfRange, decide_eq_false_iff_not]
    omega
  rw [exec, execBlockErase4k, request_indirect hs hl rfl]
  have h' : ArrayReady { s with current := some (.blockErase4k a) } := h
  obtain ⟨hbus, hcfg, hchip, -, hprot⟩ := wrenSent_ready h'
  rw [hrange, if_neg Bool.false_ne_true, ← hl]
  refine erase_completes (s := { s with current := some (.blockErase4k a) }) h' hw hsch
    (ccr := 0x00002520) (dlr := s.regs.dlr) (ar := a) (x := se4kTxn a false) ?_
  exact txn_se4k hbus hcfg hchip (wrenSent_wel _) hprot ha

/-- `chip_erase` whose erase completes before its poll (42 R253). -/
theorem exec_chipErase {s : State} (hs : s.seq = .idle) (hl : s.life = .indirect)
    (h : ArrayReady s) (hw : s.cfg.eraseWren = true) {rest : List Bool}
    (hsch : s.schedule = true :: rest) :
    ∃ t, exec .chipErase s = .next t ∧ t.seq = .idle ∧ t.life = .indirect ∧ ArrayReady t ∧
      t.chip.array = s.chip.array.erase 0 Config.capacity := by
  rw [exec, execChipErase, request_indirect hs hl rfl, ← hl]
  have h' : ArrayReady { s with current := some .chipErase } := h
  obtain ⟨hbus, hcfg, hchip, -, hprot⟩ := wrenSent_ready h'
  refine erase_completes (s := { s with current := some .chipErase }) h' hw hsch
    (ccr := 0x000001C7) (dlr := s.regs.dlr) (ar := s.regs.ar) (x := bareTxn 0xC7 false) ?_
  exact txnBare_ce hbus hcfg hchip (wrenSent_wel _) hprot

/-- A read inside an erased range (20 R112). -/
theorem readRange_erase (m : Memory) {b k a n : Nat} (hb : b ≤ a) (hn : a + n ≤ b + k) :
    (m.erase b k).readRange a n = List.replicate n 0xFF := by
  refine List.eq_replicate_iff.2 ⟨Memory.readRange_length .., fun v hv => ?_⟩
  obtain ⟨i, hi, rfl⟩ := List.mem_map.1 hv
  have hi := List.mem_range.1 hi
  rw [Memory.read_erase, if_pos (by omega)]
  rfl

/-- Settles O45: `exec_blockErase4k` or `exec_chipErase`, and then `exec_readBytes` of the array it
leaves. -/
theorem eraseThenReadAllOnes : Obligations.EraseThenReadAllOnes := by
  intro b n s rest ⟨hs, hl, hbus, hchip, hcfg⟩ hqe hprot hw hn hsch
  have h : ArrayReady s := ⟨hbus, hcfg, hchip, hqe, hprot⟩
  refine ⟨fun a ha hfirst hlast => ?_, fun hcap => ?_⟩
  · obtain ⟨t, ht, hs', hl', hready, harray⟩ := exec_blockErase4k hs hl h hw hsch ha
    have hlow : blockBase a.toNat ≤ b.toNat := by
      unfold blockBase Config.eraseBlock
      omega
    have hhigh : b.toNat + n ≤ blockBase a.toNat + Config.eraseBlock := by
      unfold blockBase Config.eraseBlock
      omega
    have hcap : b.toNat + n ≤ Config.capacity := by
      unfold Config.capacity
      omega
    obtain ⟨u, hu, hres⟩ := exec_readBytes hs' hl' hready hn hcap
    rw [harray, readRange_erase _ hlow hhigh] at hres
    exact ⟨t, u, ht, hu, hres⟩
  · obtain ⟨t, ht, hs', hl', hready, harray⟩ := exec_chipErase hs hl h hw hsch
    obtain ⟨u, hu, hres⟩ := exec_readBytes hs' hl' hready hn hcap
    rw [harray, readRange_erase _ (Nat.zero_le _) (by rw [Nat.zero_add]; exact hcap)] at hres
    exact ⟨t, u, ht, hu, hres⟩

end Sys2Proof.Machine
end

section
/-! PROOF. The encoding and the decoder (30_encoding.md): the descriptor word against its fields, the rows'
words, HOST's request frames, and that decoding an encoding gives the instruction back. -/

namespace Sys2Proof

/-! ### The descriptor word and its fields

`Nat.reduceAdd` is kept out of `simp` where a word is taken apart: the width of a concatenation has to stay
the sum that the lemmas on `++` match. -/

@[simp] theorem Width.ofCode_code (m : Width) : Width.ofCode m.code = m := by
  cases m <;> rfl

@[simp] theorem Width.code_ofCode (c : BitVec 2) : (Width.ofCode c).code = c := by
  revert c; decide

@[simp] theorem FMode.ofCode_code (m : FMode) : FMode.ofCode m.code = m := by
  cases m <;> rfl

@[simp] theorem FMode.code_ofCode (c : BitVec 2) : (FMode.ofCode c).code = c := by
  revert c; decide

/-- The fields of the word of the fields are the fields (30 R131): each extraction skips the fields below
its own and meets it whole. -/
theorem Descriptor.ofWord_toWord (d : Descriptor) : Descriptor.ofWord d.toWord = d := by
  cases d
  simp [ofWord, toWord, BitVec.extractLsb'_append_eq_of_le, BitVec.extractLsb'_append_eq_of_add_le,
    BitVec.getLsbD_append, -Nat.reduceAdd, -BitVec.getLsbD_eq_getElem]

theorem descriptorReserved_toWord (d : Descriptor) : descriptorReserved d.toWord = false := by
  simp [descriptorReserved, Descriptor.toWord, BitVec.getLsbD_append, -Nat.reduceAdd,
    -BitVec.getLsbD_eq_getElem]

theorem ofBool_getLsbD {n : Nat} (w : BitVec n) (i : Nat) :
    BitVec.ofBool (w.getLsbD i) = w.extractLsb' i 1 := by
  ext j hj
  obtain rfl : j = 0 := by omega
  simp

/-- A word without a reserved bit is the word of its fields (30 R131, R141): the fields and the two
reserved bits are its consecutive slices. -/
theorem Descriptor.toWord_ofWord {w : Word} (h : descriptorReserved w = false) :
    (Descriptor.ofWord w).toWord = w := by
  simp only [descriptorReserved, Bool.or_eq_false_iff] at h
  obtain ⟨h23, h29⟩ := h
  have z23 : (0 : BitVec 1) = w.extractLsb' 23 1 := by rw [← ofBool_getLsbD, h23]; rfl
  have z29 : (0 : BitVec 1) = w.extractLsb' 29 1 := by rw [← ofBool_getLsbD, h29]; rfl
  have slices : (Descriptor.ofWord w).toWord =
      w.extractLsb' 31 1 ++ w.extractLsb' 30 1 ++ w.extractLsb' 29 1 ++ w.extractLsb' 28 1
        ++ w.extractLsb' 26 2 ++ w.extractLsb' 24 2 ++ w.extractLsb' 23 1 ++ w.extractLsb' 18 5
        ++ w.extractLsb' 16 2 ++ w.extractLsb' 14 2 ++ w.extractLsb' 12 2 ++ w.extractLsb' 10 2
        ++ w.extractLsb' 8 2 ++ w.extractLsb' 0 8 := by
    simp only [toWord, ofWord, ofBool_getLsbD, Width.code_ofCode, FMode.code_ofCode, ← z23, ← z29]
  rw [slices]
  simp [BitVec.extractLsb'_append_extractLsb'_eq_extractLsb', -Nat.reduceAdd]

/-- Settles O2: each field is a slice of the word, and the slices with the two reserved bits are the
whole word. -/
theorem descriptorFieldsRoundTrip : Obligations.DescriptorFieldsRoundTrip :=
  ⟨fun d => ⟨d.ofWord_toWord, descriptorReserved_toWord d⟩, fun _ => Descriptor.toWord_ofWord⟩

/-! ### The rows' words -/

/-- A row's word in the table is the word of its fields (30 R145). -/
theorem BusCmd.toWord_descriptor (c : BusCmd) : c.descriptor.toWord = c.word := by
  cases c <;> rfl

theorem BusCmd.ofWord_word (c : BusCmd) : Descriptor.ofWord c.word = c.descriptor := by
  rw [← c.toWord_descriptor, Descriptor.ofWord_toWord]

theorem decodeDescriptor_word (c : BusCmd) : decodeDescriptor c.word = .ok c := by
  cases c <;> rfl

/-- A word is a bus command only when it equals the row's word exactly (30 R147). -/
theorem decodeDescriptor_eq_ok {w : Word} {c : BusCmd} : decodeDescriptor w = .ok c ↔ w = c.word := by
  constructor
  · intro h
    unfold decodeDescriptor at h
    split at h
    · rename_i c' hfind
      cases h
      have hword := List.find?_some hfind
      exact (eq_of_beq hword).symm
    · cases h
  · rintro rfl
    exact decodeDescriptor_word c

/-- No two rows share a word: each decodes to its own row. -/
theorem BusCmd.word_injective {c c' : BusCmd} (h : c.word = c'.word) : c = c' := by
  have hc := decodeDescriptor_word c
  rw [h, decodeDescriptor_word] at hc
  exact (Except.ok.inj hc).symm

/-- Byte 0xEB stands in two rows (30 R146, R147). -/
theorem BusCmd.eq_of_opcode_EB {c : BusCmd} (h : c.descriptor.instruction = 0xEB) :
    c = .qread ∨ c = .mmread := by
  revert h; cases c <;> decide

/-- Settles O3: exactness is `decodeDescriptor_eq_ok`, and the two rows of byte 0xEB differ in their
functional mode. -/
theorem exactWordDecode : Obligations.ExactWordDecode := by
  refine ⟨fun w c => decodeDescriptor_eq_ok, fun c c' => BusCmd.word_injective, fun w c h hEB => ?_⟩
  rw [decodeDescriptor_eq_ok] at h
  rw [h, BusCmd.ofWord_word] at hEB ⊢
  rcases BusCmd.eq_of_opcode_EB hEB with rfl | rfl <;> decide

/-! ### Request frames -/

/-- A word is that of its four bytes. -/
theorem wordLE_bytes (w : Word) :
    wordLE (w.extractLsb' 0 8) (w.extractLsb' 8 8) (w.extractLsb' 16 8) (w.extractLsb' 24 8) = w := by
  simp [wordLE, BitVec.extractLsb'_append_extractLsb'_eq_extractLsb', -Nat.reduceAdd]

theorem Frame.ofBytes_bytes (f : Frame) : Frame.ofBytes f.bytes = some f := by
  simp [Frame.bytes, bytesLE, Frame.ofBytes, wordLE_bytes, BitVec.extractLsb'_append_eq_left,
    BitVec.extractLsb'_append_eq_right, -Nat.reduceAdd]

theorem decodeRequest_bytes (f : Frame) : decodeRequest f.bytes = f.instr := by
  rw [decodeRequest, Frame.ofBytes_bytes]

theorem decode_frame {f : Frame} {i : Instr} (h : f.instr = .ok i) :
    decode (.request f.bytes) = .ok i := by
  simp [decode, decodeRequest_bytes, h]

/-- Request code 0xF is no operation's (30 R150). -/
theorem Frame.instr_reserved {f : Frame} (h : f.opk = 0xF) : f.instr = .error .unknownOp := by
  simp [Frame.instr, h]

theorem decode_frame_reserved {f : Frame} (h : f.opk = 0xF) :
    decode (.request f.bytes) = .error (.request .unknownOp) := by
  simp [decode, decodeRequest_bytes, Frame.instr_reserved h]

/-! ### Decoding an encoding -/

theorem decode_descriptor_word (c : BusCmd) : decode (.descriptor c.word) = .ok c.instr := by
  simp [decode, decodeDescriptor_word]

theorem encode_busCmd (c : BusCmd) : encode c.instr = .descriptor c.word := by
  cases c <;> rfl

theorem decode_encode_busCmd (c : BusCmd) : decode (encode c.instr) = .ok c.instr := by
  rw [encode_busCmd, decode_descriptor_word]

/-- The length of a read stands in its frame whole, above 32 bits too (00 R9; log 2). -/
theorem decode_encode_readBytes (a : Word) (n : Nat) :
    decode (encode (.readBytes a n)) = .ok (.readBytes a n) := by
  refine decode_frame ?_
  have hlast := natBytes_getLast (n / 2 ^ 32) (n / 2 ^ 32) (Nat.le_refl _)
  show (if _ then _ else _) = _
  rw [if_neg hlast, length_in_frame]
  rfl

/-- Settles O1: a bus command through its row's word, an operation through its frame. -/
theorem decodeEncodeAgree : Obligations.DecodeEncodeAgree := by
  intro i
  cases i with
  | wren => exact decode_encode_busCmd .wren
  | vwren => exact decode_encode_busCmd .vwren
  | rdpd => exact decode_encode_busCmd .rdpd
  | wrsr2 => exact decode_encode_busCmd .wrsr2
  | rdsr1 => exact decode_encode_busCmd .rdsr1
  | rdsr2 => exact decode_encode_busCmd .rdsr2
  | rdid => exact decode_encode_busCmd .rdid
  | qread => exact decode_encode_busCmd .qread
  | qpp => exact decode_encode_busCmd .qpp
  | se4k => exact decode_encode_busCmd .se4k
  | ce => exact decode_encode_busCmd .ce
  | mmread => exact decode_encode_busCmd .mmread
  | readBytes a n => exact decode_encode_readBytes a n
  | busBringup p f cs ck => exact decode_frame rfl
  | init => exact decode_frame rfl
  | intoMemoryMapped => exact decode_frame rfl
  | programPage a d => exact decode_frame rfl
  | blockErase4k a => exact decode_frame rfl
  | chipErase => exact decode_frame rfl
  | readIds => exact decode_frame rfl
  | readStatusRegister1 => exact decode_frame rfl
  | readStatusRegister2 => exact decode_frame rfl
  | writeEnable => exact decode_frame rfl
  | writeDisable => exact decode_frame rfl
  | waitBusy => exact decode_frame rfl
  | mmLoad a w => exact decode_frame rfl
  | mmStore a w v => exact decode_frame rfl

/-! ### The table's rows written out -/

/-- Settles O4: the decoder, evaluated on the 27 rows and on the reserved code. -/
theorem sampleWordsDecode : Obligations.SampleWordsDecode := by
  unfold Obligations.SampleWordsDecode
  decide

end Sys2Proof
end

section
/-! PROOF. A transaction on the lanes and the cycle sum (30_encoding.md rule R139): each phase takes the
clocks that its term of the sum says. -/

namespace Sys2Proof.Machine

/-- A byte takes `ph(m, 1)` clocks (20 R92, 30 R139). -/
theorem byteClocks_length (m : Width) (b : Byte) : (byteClocks m b).length = phaseCycles m 1 := by
  cases m <;> simp [byteClocks, phaseCycles, lines]

/-- A byte divides evenly into the clocks of every width, so a phase's clocks are its bytes' clocks. -/
theorem phaseCycles_eq_mul (m : Width) (n : Nat) : phaseCycles m n = n * phaseCycles m 1 := by
  cases m <;> simp [phaseCycles, lines] <;> omega

theorem bytesClocks_length (m : Width) (bytes : List Byte) :
    (bytesClocks m bytes).length = phaseCycles m bytes.length := by
  rw [phaseCycles_eq_mul]
  simp [bytesClocks, List.length_flatMap, byteClocks_length]

theorem bytesMsbFirst_length (k : Nat) (v : Word) : (bytesMsbFirst k v).length = k := by
  induction k with
  | zero => rfl
  | succ k ih => rw [bytesMsbFirst, List.length_cons, ih]

/-- The clocks of an address or alternate phase, 0 for an absent one (30 R130). -/
def addrCycles (p : Option BytesPhase) : Nat := p.elim 0 fun p => phaseCycles p.width p.nbytes

/-- The clocks of a transaction are those of its phases (30 R130). -/
theorem txnClocks_length (t : BusTxn) :
    (txnClocks t).length =
      t.instr.elim 0 (fun p => phaseCycles p.width 1) + addrCycles t.addr + addrCycles t.alt + t.dummy +
        t.data.elim 0 (fun p => phaseCycles p.width p.bytes.length) := by
  simp only [txnClocks, List.length_append, List.length_replicate]
  congr 4
  · cases t.instr <;> simp [byteClocks_length]
  · cases t.addr <;> simp [addrCycles, bytesClocks_length, bytesMsbFirst_length]
  · cases t.alt <;> simp [addrCycles, bytesClocks_length, bytesMsbFirst_length]
  · cases t.data <;> simp [bytesClocks_length]

@[simp] theorem phaseCycles_none (n : Nat) : phaseCycles .none n = 0 := rfl

/-- A phase of the record takes the clocks of its size field, none when its width is none (30 R138). -/
theorem addrCycles_bytesPhase (m : Width) (size : BitVec 2) (reg : Word) :
    addrCycles (bytesPhase m size reg) = phaseCycles m (sizeBytes size) := by
  by_cases hm : m = .none <;> simp [addrCycles, bytesPhase, hm]

theorem txnClocks_buildTxn_length (d : Descriptor) (ar abr : Word) (first sshift : Bool)
    (bytes : List Byte) :
    (txnClocks (buildTxn d ar abr first sshift bytes)).length =
      cycles d (if d.dmode = .none then 0 else bytes.length) first := by
  have hinstr : (if first then instrPhase d else none).elim 0 (fun p => phaseCycles p.width 1) =
      if first then phaseCycles d.imode 1 else 0 := by
    by_cases hi : d.imode = .none <;> cases first <;> simp [instrPhase, hi]
  have hdata : (dataPhase d bytes).elim 0 (fun p => phaseCycles p.width p.bytes.length) =
      phaseCycles d.dmode (if d.dmode = .none then 0 else bytes.length) := by
    by_cases hd : d.dmode = .none <;> simp [dataPhase, hd]
  rw [txnClocks_length]
  simp only [buildTxn, cycles, addrCycles_bytesPhase, hinstr, hdata]

/-- Settles O5: the clocks phase by phase, and `cycles` is the sum of R139 written out. -/
theorem wireClocksAreTheCycleSum : Obligations.WireClocksAreTheCycleSum := by
  refine fun d ar abr first sshift bytes => ⟨txnClocks_buildTxn_length .., ?_⟩
  simp only [cycles, phaseCycles, sizeBytes, ite_not, ite_and]

end Sys2Proof.Machine
end

section
/-! PROOF. What is refused where it is fetched: a request that leaves only its mark (60_exceptions.md rules
R324 and R325), and a placed descriptor word outside the table (30_encoding.md rule R148). -/

namespace Sys2Proof.Machine

/-! ### A refusal becomes its mark -/

theorem stopOf_refusalOf (c : RefCode) (t : Stopped) : stopOf (refusalOf c t) = some (c, t) := by
  cases c <;> rfl

/-- A refusal leaves its mark and the run goes on (60 R325; log 4). -/
theorem settle_refused (c : RefCode) (t : Stopped) :
    settle (.refused (refusalOf c t)) = .next (markRefusal c t) := by
  simp [settle, stopOf_refusalOf]

theorem settle_fault (f : Fault) : settle (.fault f) = .fault f := rfl

/-- Where no operation is in progress and no window access presented, the mark is all that a refusal
leaves. -/
theorem markRefusal_idle {c : RefCode} {t : Stopped} (hseq : t.state.seq = .idle)
    (hcur : t.state.current = none) (hwin : t.state.window = none) :
    markRefusal c t =
      { t.state with marks := t.state.marks ++ [⟨c, t.request, t.txn⟩] } := by
  unfold markRefusal
  rw [← hseq, ← hcur, ← hwin]

/-! ### Refused requests -/

theorem step_rejected {s : State} {frame : List Byte} {rest : List (List Byte)} {e : RequestError}
    (hs : s.seq = .idle) (hh : s.host = frame :: rest)
    (hd : decode (.request frame) = .error (.request e)) :
    step s = settle (rejectRequest e frame (takeRequest (quiesce s))) := by
  simp [step, hs, hh, hd]

/-- Settles O10: the fetch refuses a reserved code and `exec` a request it does not serve, both as a stop of
the state without the request, and `markRefusal_idle` says what that leaves. -/
theorem refusedRequestLeavesOnlyItsMark : Obligations.RefusedRequestLeavesOnlyItsMark := by
  intro s frame rest hs hb hp hcur hwin hh
  have hidle (c : RefCode) (r : Request) :
      settle (.refused (refusalOf c ⟨some r, none, { s with host := rest }⟩)) =
        .next { s with host := rest, marks := s.marks ++ [⟨c, some r, none⟩] } := by
    rw [settle_refused, markRefusal_idle hs hcur hwin]
  refine ⟨fun f hf hopk => ?_, fun i c hd hexec => ?_⟩
  · have hd : decode (.request frame) = .error (.request .unknownOp) := by
      rw [hf, decode_frame_reserved hopk]
    rw [step_rejected hs hh hd, quiesce_idle hb hp, takeRequest_of_host hh]
    exact hidle .unknownOp (.frame frame)
  · rw [step_request hs hh hd, quiesce_idle hb hp, takeRequest_of_host hh, hexec]
    exact hidle c (.op i)

/-! ### Words outside the table -/

theorem decodeDescriptor_outside {w : Word} (h : ∀ c : BusCmd, w ≠ c.word) :
    decodeDescriptor w = .error (descriptorError w) := by
  cases hd : decodeDescriptor w with
  | ok c => exact absurd (decodeDescriptor_eq_ok.1 hd) (h c)
  | error e =>
    unfold decodeDescriptor at hd
    split at hd
    · cases hd
    · exact hd.symm

/-- The step that starts a placed word outside the table stops it by its case (30 R148; log 3). -/
theorem step_launch_outside {s : State} (hs : s.seq = .launch) (h : ∀ c : BusCmd, s.regs.ccr ≠ c.word) :
    step s = settle (rejectDescriptor (descriptorError s.regs.ccr) (takeLaunch s)) := by
  simp [step, hs, decode, decodeDescriptor_outside h]

/-- A width is dual (30 R148). -/
abbrev HasDual (d : Descriptor) : Prop :=
  d.imode = .dual ∨ d.admode = .dual ∨ d.abmode = .dual ∨ d.dmode = .dual

/-- No row has the instruction byte (30 R146, R148). -/
abbrev UnknownByte (d : Descriptor) : Prop := ∀ c ∈ BusCmd.all, c.opcode ≠ d.instruction

/-- The cases of 30 R148 in the rule's order, as conditions on the fields. -/
theorem descriptorError_eq (w : Word) :
    descriptorError w =
      let d := Descriptor.ofWord w
      if d.fmode = .autoPoll then .autopoll
      else if HasDual d ∨ d.ddrm = true then .dualDdr
      else if w.getLsbD 23 = true ∨ w.getLsbD 29 = true then .reserved
      else if UnknownByte d then .unknownCmd
      else .shape := by
  simp only [descriptorError, descriptorDualDdr, descriptorReserved, HasDual, UnknownByte,
    Bool.or_eq_true, beq_iff_eq, or_assoc, Bool.not_eq_true', List.any_eq_false]

/-- Outside memory-mapped mode the last two cases start a transaction (30 R140, log 18). -/
theorem rejectDescriptor_indirect {e : DescError} {s : State} (he : e = .unknownCmd ∨ e = .shape)
    (hf : (Descriptor.ofWord s.regs.ccr).fmode ≠ .memoryMapped) :
    rejectDescriptor e s = startUnlisted e s := by
  rcases he with rfl | rfl <;> simp [rejectDescriptor, hf]

/-- In memory-mapped mode an unknown byte is refused where it is met (30 R148). -/
theorem rejectDescriptor_mapped_unknown {s : State}
    (hf : (Descriptor.ofWord s.regs.ccr).fmode = .memoryMapped) :
    rejectDescriptor .unknownCmd s = refuse .unknownCmd (some s.trace.length) s := by
  simp [rejectDescriptor, hf]

/-- In memory-mapped mode another mismatch starts no transaction without a window access (41 R215). -/
theorem rejectDescriptor_mapped_shape {s : State}
    (hf : (Descriptor.ofWord s.regs.ccr).fmode = .memoryMapped) (hw : s.window = none) :
    rejectDescriptor .shape s = .next s := by
  simp [rejectDescriptor, hf, hw]

/-- The transaction of the word in `CCR`, started and recorded (40 R171). -/
def sentUnlisted (s : State) : State :=
  let d := Descriptor.ofWord s.regs.ccr
  let n := dataLength d s.regs.dlr
  emit (buildTxn d s.regs.ar s.regs.abr true (crSshift s.regs.cr)
    (if d.fmode = .indirectWrite then s.regs.fifo.take n else [])) (beginTxn d n s)

section
variable {e : DescError} {s : State}

theorem startUnlisted_busDown (hu : busUp s = false) :
    startUnlisted e s = raiseFault .busDown (some s.trace.length) s := by
  simp [startUnlisted, hu]

variable (hu : busUp s = true)
include hu

theorem startUnlisted_inFlight (hb : s.regs.sr.busy = true) :
    startUnlisted e s = raiseFault .periphBusyWrite (some s.trace.length) s := by
  simp [startUnlisted, hu, hb]

variable (hb : s.regs.sr.busy = false)
include hb

/-- Step 1 of 43 R295: an instruction phase in continuous-read mode. -/
theorem startUnlisted_crm (hcrm : s.chip.crm = true)
    (hi : (Descriptor.ofWord s.regs.ccr).imode ≠ .none) :
    startUnlisted e s = raiseFault .crm (some s.trace.length) (sentUnlisted s) := by
  simp [startUnlisted, sentUnlisted, hu, hb, hcrm, buildTxn, instrPhase, hi]

/-- Step 2 of 43 R295: no indirect transaction is a continuation read (log 20). -/
theorem startUnlisted_continuation (hcrm : s.chip.crm = true)
    (hi : (Descriptor.ofWord s.regs.ccr).imode = .none) :
    startUnlisted e s = raiseFault .shape (some s.trace.length) (sentUnlisted s) := by
  simp [startUnlisted, sentUnlisted, hu, hb, hcrm, buildTxn, instrPhase, hi]

/-- Step 3 of 43 R295: an unknown byte. -/
theorem startUnlisted_unknownCmd (hcrm : s.chip.crm = false) :
    startUnlisted .unknownCmd s = refuse .unknownCmd (some s.trace.length) (sentUnlisted s) := by
  simp [startUnlisted, sentUnlisted, hu, hb, hcrm]

/-- Step 4 of 43 R295: a known byte in another shape. -/
theorem startUnlisted_shape (hcrm : s.chip.crm = false) :
    startUnlisted .shape s = raiseFault .shape (some s.trace.length) (sentUnlisted s) := by
  simp [startUnlisted, sentUnlisted, hu, hb, hcrm]

end

/-- Settles O12: the case of the word (`descriptorError_eq`), what each case does where the word is met
(the lemmas on `rejectDescriptor`), and the checks of a transaction that starts (those on
`startUnlisted`). -/
theorem placedDescriptorOutsideTheTable : Obligations.PlacedDescriptorOutsideTheTable := by
  intro s hs hout w d isDual unknown idle at_ marked n out sent
  have hstep {o : Result} (h : rejectDescriptor (descriptorError w) idle = o) : step s = settle o := by
    rw [step_launch_outside hs hout, ← h]
    rfl
  have hmark {c : RefCode} {t : State}
      (h : rejectDescriptor (descriptorError w) idle = refuse c (some s.trace.length) t) :
      step s = .next (markRefusal c ⟨t.current.map .op, some s.trace.length, t⟩) :=
    (hstep h).trans (settle_refused _ _)
  have herr := descriptorError_eq w
  dsimp only at herr
  by_cases hpoll : d.fmode = .autoPoll
  · rw [if_pos hpoll] at herr ⊢
    exact hmark (t := idle) (by rw [herr]; rfl)
  rw [if_neg hpoll] at herr ⊢
  by_cases hdual : isDual ∨ d.ddrm = true
  · rw [if_pos hdual] at herr ⊢
    exact hmark (t := idle) (by rw [herr]; rfl)
  rw [if_neg hdual] at herr ⊢
  by_cases hres : w.getLsbD 23 = true ∨ w.getLsbD 29 = true
  · rw [if_pos hres] at herr ⊢
    exact hmark (t := idle) (by rw [herr]; rfl)
  rw [if_neg hres] at herr ⊢
  have hunknown (h : unknown) : descriptorError w = .unknownCmd := herr.trans (if_pos h)
  have hknown (h : ¬ unknown) : descriptorError w = .shape := herr.trans (if_neg h)
  by_cases hmap : d.fmode = .memoryMapped
  · rw [if_pos hmap]
    refine ⟨fun h => hmark (t := idle) ?_, fun h hwin => hstep (o := .next idle) ?_⟩
    · rw [hunknown h]
      exact rejectDescriptor_mapped_unknown hmap
    · rw [hknown h]
      exact rejectDescriptor_mapped_shape hmap hwin
  · rw [if_neg hmap]
    have hstart : rejectDescriptor (descriptorError w) idle = startUnlisted (descriptorError w) idle :=
      rejectDescriptor_indirect (by rw [herr]; exact ite_eq_or_eq _ _ _) hmap
    refine ⟨fun hu => hstep (hstart.trans (startUnlisted_busDown hu)),
      fun hu hb => hstep (hstart.trans (startUnlisted_inFlight hu hb)), fun hu hb =>
      ⟨fun hcrm => ⟨fun hi => hstep (hstart.trans (startUnlisted_crm hu hb hcrm hi)),
        fun hi => hstep (hstart.trans (startUnlisted_continuation hu hb hcrm hi))⟩,
      fun hcrm => ⟨fun h => hmark (t := sent) (hstart.trans ?_),
        fun h => hstep (o := raiseFault .shape (some s.trace.length) sent) (hstart.trans ?_)⟩⟩⟩
    · rw [hunknown h]
      exact startUnlisted_unknownCmd hu hb hcrm
    · rw [hknown h]
      exact startUnlisted_shape hu hb hcrm

end Sys2Proof.Machine
end

section
/-! PROOF. The poll of the chip's BUSY bit (40_encoder_and_pollers.md section 2): what one read of it does,
how many reads it makes, and how it ends. -/

namespace Sys2Proof.Machine

/-! ### Runs of several steps -/

/-- A run of `m + n` steps goes on for `n` steps from where its first `m` lead. -/
theorem run_add {s t : State} {m : Nat} (h : Host.Core.run Sys2Proof.core m s = .next t) (n : Nat) :
    Host.Core.run Sys2Proof.core (m + n) s = Host.Core.run Sys2Proof.core n t := by
  have gen : ∀ (M : Host.Core) (m : Nat) {s t : M.State}, M.run m s = .next t →
      M.run (m + n) s = M.run n t := by
    intro M m
    induction m with
    | zero =>
      intro s t h
      cases h
      rw [Nat.zero_add]
    | succ m ih =>
      intro s t h
      rw [Nat.succ_add, Host.Core.run]
      unfold Host.Core.run at h
      cases hs : M.step s with
      | next u =>
        rw [hs] at h
        exact ih h
      | fault f => rw [hs] at h; cases h
      | refused r => rw [hs] at h; cases h
  exact gen Sys2Proof.core m h

theorem run_one {s t : State} (h : step s = .next t) :
    Host.Core.run Sys2Proof.core 1 s = .next t :=
  run_succ h 0

theorem run_then_step {s t u : State} {n : Nat} (h : Host.Core.run Sys2Proof.core n s = .next t)
    (hu : step t = .next u) : Host.Core.run Sys2Proof.core (n + 1) s = .next u :=
  (run_add h 1).trans (run_one hu)

/-! ### CHIP's opportunities -/

/-- The state after an opportunity that CHIP does not take (43 R307). -/
def passed (s : State) : State :=
  { s with schedule := s.schedule.tail, chances := s.chances + 1 }

/-- An opportunity while an operation is pending: CHIP completes it or passes (43 R307). -/
theorem chipChance_pending {s : State} (hp : s.chip.pending ≠ .none) :
    chipChance s = if chipMoves s then completed s else passed s := by
  rw [chipChance, if_neg hp]
  cases chipMoves s <;> rfl

theorem chipChance_passes {s : State} (hp : s.chip.pending ≠ .none) (hm : chipMoves s = false) :
    chipChance s = passed s := by
  rw [chipChance_pending hp, hm, if_neg Bool.false_ne_true]

theorem chipMoves_cons {s : State} {b : Bool} {rest : List Bool} (h : s.schedule = b :: rest) :
    chipMoves s = b := by
  rw [chipMoves, h]

/-- The next opportunity is the first of those from here on (log 6). -/
theorem chipMoveAt_zero (s : State) : chipMoveAt s 0 = chipMoves s := by
  unfold chipMoveAt chipMoves
  cases s.schedule <;> rfl

/-- After `n` opportunities, the next ones are those from the `n`-th on. -/
theorem chipMoveAt_after {s t : State} {n : Nat} (hs : t.schedule = s.schedule.drop n)
    (hc : t.chances = s.chances + n) (m : Nat) : chipMoveAt t m = chipMoveAt s (n + m) := by
  unfold chipMoveAt
  rw [hs, hc, List.getElem?_drop, Nat.add_assoc]

/-- A schedule that stays false for `n` opportunities. -/
theorem chipMoveAt_replicate {s : State} {n : Nat} {rest : List Bool}
    (h : s.schedule = List.replicate n false ++ rest) {i : Nat} (hi : i < n) :
    chipMoveAt s i = false := by
  simp [chipMoveAt, h, List.getElem?_append_left, hi]

theorem chipMoveAt_replicate_true {s : State} {n : Nat} {rest : List Bool}
    (h : s.schedule = List.replicate n false ++ true :: rest) : chipMoveAt s n = true := by
  simp [chipMoveAt, h]

theorem chipComplete_none {k : Chip} (h : k.pending = .none) : chipComplete k = k := by
  rw [chipComplete, h]

/-- The completion step does not look at the latch `VWE` (43 R307). -/
theorem chipComplete_vwe (k : Chip) (b : Bool) :
    chipComplete { k with vwe := b } = { chipComplete k with vwe := b } := by
  cases hp : k.pending with
  | wrsr2 v vol => cases vol <;> simp [chipComplete, chipSettle, hp]
  | _ => simp [chipComplete, chipSettle, hp]

/-! ### One read of a poll -/

/-- What a poll goes on to when BUSY reads 0 (40 R188). -/
def pollNext : PollCont → State → Result
  | .init => finishInit
  | .program rest => programChunks rest
  | .done => fun s => .next (finish .unit s)

theorem pollStep_eq (w : PollCont) (s : State) : pollStep w s = pollThen w (pollNext w) s := by
  cases w <;> rfl

theorem with_seq {s : State} {q : Seq} (h : s.seq = q) : { s with seq := q } = s := by
  rw [← h]

section
variable {w : PollCont} {s : State} (hs : s.seq = .polling w) (h : Running s)
include hs h

/-- A read that shows BUSY = 1 leaves the poll running (40 R183, R184). -/
theorem step_poll_busy (hp : s.chip.pending ≠ .none) :
    step s = .next (chipChance (statusRead s)) := by
  have hseq : (chipChance (statusRead s)).seq = .polling w := (chipChance_seq _).trans hs
  simp only [step, hs, pollStep_eq, pollThen_eq h, if_neg hp, settle]
  rw [with_seq hseq]

/-- A read that shows BUSY = 0 ends the poll (40 R183). -/
theorem step_poll_idle (hp : s.chip.pending = .none) :
    step s = settle (pollNext w (statusRead s)) := by
  simp only [step, hs, pollStep_eq, pollThen_eq h, if_pos hp]

end

/-! ### Several reads of a poll -/

/-- What `n` reads of a poll that show BUSY = 1 leave of the state `s`: the reads in the trace, `n`
opportunities of CHIP used up, and the chip as `k` but for the latch `VWE`. -/
structure PollReads (n : Nat) (k : Chip) (s t : State) : Prop where
  running : Running t
  chip : t.chip = { k with vwe := t.chip.vwe }
  frame : t = { s with
    regs := t.regs, chip := t.chip, rx := t.rx
    trace := s.trace ++ List.replicate n (statusTxn 0x05 [s.chip.sr1] false)
    schedule := s.schedule.drop n, chances := s.chances + n }

section
variable {n : Nat} {k : Chip} {s t : State} (h : PollReads n k s t)
include h

theorem PollReads.seq : t.seq = s.seq := by rw [h.frame]
theorem PollReads.life : t.life = s.life := by rw [h.frame]
theorem PollReads.results : t.results = s.results := by rw [h.frame]
theorem PollReads.current : t.current = s.current := by rw [h.frame]
theorem PollReads.host : t.host = s.host := by rw [h.frame]
theorem PollReads.marks : t.marks = s.marks := by rw [h.frame]
theorem PollReads.schedule : t.schedule = s.schedule.drop n := by rw [h.frame]
theorem PollReads.chances : t.chances = s.chances + n := by rw [h.frame]
theorem PollReads.trace :
    t.trace = s.trace ++ List.replicate n (statusTxn 0x05 [s.chip.sr1] false) := by rw [h.frame]
theorem PollReads.sr1 : t.chip.sr1 = k.sr1 := by rw [h.chip]
theorem PollReads.pending : t.chip.pending = k.pending := by rw [h.chip]

/-- The next opportunity, at the end of the next read, is the `n`-th from `s` on. -/
theorem PollReads.chipMoves : chipMoves (statusRead t) = chipMoveAt s n := by
  have hmove := chipMoveAt_after h.schedule h.chances 0
  rw [chipMoveAt_zero] at hmove
  exact hmove

/-- After the next read the latch `VWE` is clear, and the chip is all of `k` else (43 R309). -/
theorem PollReads.chip_read : (statusRead t).chip = { k with vwe := false } := by
  show { t.chip with vwe := false } = _
  rw [h.chip]

end

theorem PollReads.refl {s : State} (h : Running s) : PollReads 0 s.chip s s :=
  ⟨h, rfl, by simp⟩

/-- One more read, at whose end CHIP has moved the chip to `k'`. -/
theorem PollReads.succ {n : Nat} {k' : Chip} {s t : State} (h : PollReads n s.chip s t) {u : State}
    (hrun : Running u) (hk : u.chip = { k' with vwe := u.chip.vwe })
    (hu : u = { passed (statusRead t) with chip := u.chip }) : PollReads (n + 1) k' s u := by
  refine ⟨hrun, hk, ?_⟩
  have hregs : u.regs = (statusRead t).regs := by rw [hu]; rfl
  have hrx : u.rx = (statusRead t).rx := by rw [hu]; rfl
  have htrace : s.trace ++ List.replicate (n + 1) (statusTxn 0x05 [s.chip.sr1] false) =
      (statusRead t).trace := by
    rw [List.replicate_succ', ← List.append_assoc, ← h.trace, ← h.sr1]
    rfl
  have hsch : s.schedule.drop (n + 1) = (passed (statusRead t)).schedule := by
    rw [← List.tail_drop, ← h.schedule]
    rfl
  have hch : s.chances + (n + 1) = (passed (statusRead t)).chances := by
    rw [← Nat.add_assoc, ← h.chances]
    rfl
  rw [hregs, hrx, htrace, hsch, hch]
  refine hu.trans ?_
  rw [h.frame]
  rfl

section
variable {w : PollCont} {s : State} (hs : s.seq = .polling w) (h : Running s)
  (hp : s.chip.pending ≠ .none)
include hs h hp

/-- Reads at whose opportunities CHIP does not move all show BUSY = 1 (40 R184). -/
theorem run_poll_busy (n : Nat) (hm : ∀ i < n, chipMoveAt s i = false) :
    ∃ t : State, Host.Core.run Sys2Proof.core n s = .next t ∧ PollReads n s.chip s t := by
  induction n with
  | zero => exact ⟨s, rfl, .refl h⟩
  | succ n ih =>
    obtain ⟨t, ht, hreads⟩ := ih fun i hi => hm i (by omega)
    have hpend : t.chip.pending ≠ .none := by rw [hreads.pending]; exact hp
    have hstep := step_poll_busy (hreads.seq.trans hs) hreads.running hpend
    have hpass := chipChance_passes (s := statusRead t) hpend
      (hreads.chipMoves.trans (hm n (by omega)))
    refine ⟨_, run_then_step ht hstep, hreads.succ (Running.chance hreads.running) ?_ ?_⟩
    · rw [hpass]
      exact hreads.chip_read
    · rw [hpass]

/-- The chip completes at its `k`-th opportunity: the reads up to there show BUSY = 1, and the next one
will show BUSY = 0 (40 R183, 43 R307). -/
theorem run_poll_completes (k : Nat) (hm : ∀ i < k, chipMoveAt s i = false)
    (hk : chipMoveAt s k = true) :
    ∃ t : State, Host.Core.run Sys2Proof.core (k + 1) s = .next t ∧
      PollReads (k + 1) (chipComplete s.chip) s t := by
  obtain ⟨t, ht, hreads⟩ := run_poll_busy hs h hp k hm
  have hpend : t.chip.pending ≠ .none := by rw [hreads.pending]; exact hp
  have hstep := step_poll_busy (hreads.seq.trans hs) hreads.running hpend
  have hdone : chipChance (statusRead t) = completed (statusRead t) := by
    rw [chipChance_pending (s := statusRead t) hpend, if_pos (hreads.chipMoves.trans hk)]
  have hchip : (completed (statusRead t)).chip = { chipComplete s.chip with vwe := false } := by
    rw [← chipComplete_vwe, ← hreads.chip_read]
    rfl
  refine ⟨_, run_then_step ht hstep, hreads.succ (Running.chance hreads.running) ?_ ?_⟩
  · rw [hdone, hchip]
  · rw [hdone]
    rfl

end

end Sys2Proof.Machine
end

section
/-! PROOF. How a poll ends: for a chip that never completes, for one that completes at a given opportunity,
and always under `ChipCompletes` (40_encoder_and_pollers.md rules R182 to R187). -/

namespace Sys2Proof.Machine

/-! ### `wait_busy`, and a poll that does not end -/

/-- A chip that shows BUSY while an operation is pending can be polled (10 R67). -/
theorem running_of_busy {s : State} (hbus : BusIdle s) (hcfg : Configured s) (hk : ChipAwake s.chip)
    (hp : s.chip.pending ≠ .none) (hb : sr1Busy s.chip.sr1 = true) : Running s :=
  ⟨hbus, hcfg, hk, hb.trans (decide_eq_true hp).symm⟩

/-- An operation of INDIRECT starts on an idle chip. -/
theorem running_of_indirectReady {s : State} (h : IndirectReady s) (hb : sr1Busy s.chip.sr1 = false) :
    Running s := by
  obtain ⟨-, -, hbus, ⟨hcrm, hpwr, hp⟩, hcfg⟩ := h
  exact ⟨hbus, hcfg, ⟨hcrm, hpwr⟩, by simp [BusyExact, hp, hb]⟩

/-- Settles O28: the poll's first read shows BUSY = 0, and the operation returns (`pollThen_eq`). -/
theorem waitBusyOnAnIdleChip : Obligations.WaitBusyOnAnIdleChip := by
  intro s h hb
  have hrun := running_of_indirectReady h hb
  obtain ⟨hs, hl, -, ⟨-, -, hp⟩, -⟩ := h
  rw [exec, execWaitBusy, request_indirect hs hl rfl, pollDone,
    pollThen_eq (s := { s with current := some .waitBusy }) hrun, if_pos hp]
  unfold finish
  rw [← hs]
  rfl

/-- Settles O26: `run_poll_busy` for a schedule that stays false. -/
theorem stuckChipPollsForever : Obligations.StuckChipPollsForever := by
  intro s w n rest hs hbus hcfg hcrm hpwr hp hb hsch
  have hrun := running_of_busy hbus hcfg ⟨hcrm, hpwr⟩ hp hb
  obtain ⟨t, ht, hreads⟩ := run_poll_busy hs hrun hp n fun i => chipMoveAt_replicate hsch
  refine ⟨t, ht, hreads.seq.trans hs, hreads.trace, hreads.pending, ?_, hreads.results, hreads.life, ?_⟩
  · rw [hreads.chip]
  · rw [hreads.schedule, hsch]
    simp

/-! ### A poll that ends -/

/-- The poll's last read shows BUSY = 0, and its operation goes on (40 R183). -/
theorem run_poll_ends {w : PollCont} {s : State} (hs : s.seq = .polling w) (h : Running s)
    (hp : s.chip.pending ≠ .none) {k : Nat} {rest : List Bool}
    (hsch : s.schedule = List.replicate k false ++ true :: rest) :
    ∃ t : State, Host.Core.run Sys2Proof.core (k + 1) s = .next t ∧
      PollReads (k + 1) (chipComplete s.chip) s t ∧ t.schedule = rest ∧
      step t = settle (pollNext w (statusRead t)) := by
  obtain ⟨t, ht, hreads⟩ := run_poll_completes hs h hp k
    (fun i => chipMoveAt_replicate hsch) (chipMoveAt_replicate_true hsch)
  refine ⟨t, ht, hreads, ?_, step_poll_idle (hreads.seq.trans hs) hreads.running
    (hreads.pending.trans (chipComplete_pending _))⟩
  rw [hreads.schedule, hsch]
  simp [List.drop_append]

/-- The reads that show BUSY = 1 and the one that does not, in the trace. -/
theorem PollReads.trace_ended {n : Nat} {k : Chip} {s t : State} (h : PollReads n k s t) :
    (statusRead t).trace = s.trace ++ List.replicate n (statusTxn 0x05 [s.chip.sr1] false) ++
      [statusTxn 0x05 [k.sr1] false] := by
  rw [← h.trace, ← h.sr1]
  rfl

/-- The first clause of O27: `wait_busy` or an erase on a chip that completes at its `k`-th opportunity. -/
theorem donePollEnds {s : State} {k : Nat} {rest : List Bool} (hs : s.seq = .polling .done)
    (h : Running s) (hp : s.chip.pending ≠ .none) (hk : 1 ≤ k)
    (hsch : s.schedule = List.replicate (k - 1) false ++ true :: rest) :
    ∃ t : State, Host.Core.run Sys2Proof.core (k + 1) s = .next t ∧ t.seq = .idle ∧ t.current = none ∧
      t.results = s.results ++ [⟨s.current, .unit⟩] ∧
      t.chip = { chipComplete s.chip with vwe := false } ∧
      t.trace = s.trace ++ List.replicate k (statusTxn 0x05 [s.chip.sr1] false) ++
        [statusTxn 0x05 [(chipComplete s.chip).sr1] false] ∧
      t.life = s.life ∧ t.schedule = rest ∧ t.marks = s.marks ∧ t.host = s.host := by
  obtain ⟨t, ht, hreads, hrest, hstep⟩ := run_poll_ends hs h hp hsch
  rw [Nat.sub_add_cancel hk] at ht hreads
  refine ⟨finish .unit (statusRead t), run_then_step ht hstep, rfl, rfl, ?_, hreads.chip_read,
    hreads.trace_ended, hreads.life, hrest, hreads.marks, hreads.host⟩
  rw [finish_results, ← hreads.results, ← hreads.current]
  rfl

/-! ### `init` -/

/-- The states after the three transactions of `init`, the last before CHIP's opportunity (41 R212). -/
def rdpdSent (s : State) : State :=
  { s with
    regs := afterTxn 0x000001AB s.regs
    chip := { s.chip with pwr := .active, vwe := false }
    rx := []
    trace := s.trace ++ [bareTxn 0xAB false] }

@[inherit_doc rdpdSent]
def vwrenSent (s : State) : State :=
  { s with
    regs := afterTxn 0x00000150 s.regs
    chip := { s.chip with vwe := true }
    rx := []
    trace := s.trace ++ [bareTxn 0x50 false] }

@[inherit_doc rdpdSent]
def qeWriteSent (s : State) : State :=
  { s with
    regs := { afterTxn 0x01000131 s.regs with dlr := 0 }
    chip := { s.chip with
      pending := .wrsr2 Config.qeValue true, sr1 := sr1WithBusy s.chip.sr1 true, vwe := false }
    rx := []
    trace := s.trace ++ [wrsr2Txn Config.qeValue false] }

/-- What `init` has done before its poll (41 R212, R213). -/
def initSent (s : State) : State :=
  qeWriteSent (vwrenSent (delayWake (rdpdSent { s with current := some .init })))

@[simp] theorem initSent_life (s : State) : (initSent s).life = s.life := rfl
@[simp] theorem initSent_busy (s : State) : (initSent s).regs.sr.busy = s.regs.sr.busy := rfl
@[simp] theorem initSent_results (s : State) : (initSent s).results = s.results := rfl
@[simp] theorem initSent_current (s : State) : (initSent s).current = some .init := rfl

section
variable {s : State} (hbus : BusIdle s) (hcfg : Configured s) (hcrm : s.chip.crm = false)
include hbus hcfg hcrm

theorem initSent_running : Running (initSent s) :=
  ⟨hbus, hcfg, ⟨hcrm, rfl⟩, sr1Busy_withBusy _ _⟩

/-- `init` wakes the chip, starts its status write and polls it (41 R212). -/
theorem execInit_eq (hs : s.seq = .idle) (hl : s.life = .busReady) (hp : s.chip.pending = .none) :
    execInit s = pollThen .init finishInit (chipChance (initSent s)) := by
  have hready : ChipReady (rdpdSent s).chip := ⟨hcrm, rfl, hp⟩
  have h1 := txnBare_rdpd (s := { s with current := some .init }) hbus hcfg hcrm hp
  have h2 := txnBare_vwren (s := delayWake (rdpdSent { s with current := some .init })) hbus hcfg hready
  have h3 := txn_wrsr2 (s := vwrenSent (delayWake (rdpdSent { s with current := some .init })))
    hbus hcfg hready rfl Config.qeValue
  rw [execInit, request_admitted hs (by rw [hl]; rfl), h1, andThen_next]
  refine (congrArg (andThen · _) h2).trans ?_
  rw [andThen_next]
  refine (congrArg (andThen · _) h3).trans ?_
  rfl

end

/-! ### An operation that CHIP leaves pending at its first two opportunities -/

/-- The state after a command that starts an internal operation, and one read of its poll, where CHIP moved
at neither opportunity. -/
def polledBusy (w : PollCont) (s : State) : State :=
  { passed (statusRead (passed s)) with seq := .polling w }

@[simp] theorem polledBusy_life (w : PollCont) (s : State) : (polledBusy w s).life = s.life := rfl
@[simp] theorem polledBusy_busy (w : PollCont) (s : State) :
    (polledBusy w s).regs.sr.busy = s.regs.sr.busy := rfl
@[simp] theorem polledBusy_pending (w : PollCont) (s : State) :
    (polledBusy w s).chip.pending = s.chip.pending := rfl
@[simp] theorem polledBusy_results (w : PollCont) (s : State) : (polledBusy w s).results = s.results := rfl
@[simp] theorem polledBusy_current (w : PollCont) (s : State) : (polledBusy w s).current = s.current := rfl

section
variable {w : PollCont} {s : State} (h : Running s) (hp : s.chip.pending ≠ .none)
include h

theorem polledBusy_running : Running (polledBusy w s) := h

include hp

theorem pollThen_busy {rest : List Bool} (hsch : s.schedule = false :: false :: rest)
    (k : State → Result) : pollThen w k (chipChance s) = .next (polledBusy w s) := by
  have hpass := chipChance_passes (s := statusRead (passed s)) hp
    (chipMoves_cons (rest := rest) (by show s.schedule.tail = _; rw [hsch]; rfl))
  rw [chipChance_passes hp (chipMoves_cons hsch), pollThen_eq (s := passed s) h,
    if_neg (show (passed s).chip.pending ≠ .none from hp), hpass]
  rfl

end


/-- A status write that sets BUSY and then clears it leaves the other bits of SR1 (10 R67). -/
theorem sr1WithBusy_true_false (v : Byte) : sr1WithBusy (sr1WithBusy v true) false = v &&& 0xFE := by
  revert v; decide

section
variable {s : State}

theorem initPolled_sr1 : (polledBusy .init (initSent s)).chip.sr1 = s.chip.sr1 ||| 0x01 :=
  sr1WithBusy_true _

/-- The chip once the status write of `init` is complete (41 R212). -/
theorem initPolled_complete (hp : s.chip.pending = .none) :
    chipComplete (polledBusy .init (initSent s)).chip =
      { s.chip with pwr := .active, sr1 := s.chip.sr1 &&& 0xFE, sr2 := 0x02, vwe := false } := by
  rw [← sr1WithBusy_true_false]
  calc chipComplete (polledBusy .init (initSent s)).chip
    _ = { s.chip with
          pwr := .active, sr1 := sr1WithBusy (sr1WithBusy s.chip.sr1 true) false, sr2 := 0x02
          vwe := false, pending := .none } := rfl
    _ = _ := by rw [← hp]

theorem initPolled_trace : (polledBusy .init (initSent s)).trace =
    s.trace ++ [bareTxn 0xAB false, bareTxn 0x50 false, wrsr2Txn 0x02 false,
      statusTxn 0x05 [s.chip.sr1 ||| 0x01] false] := by
  rw [← sr1WithBusy_true]
  simp only [polledBusy, passed, statusRead, initSent, qeWriteSent, vwrenSent, delayWake, rdpdSent,
    List.append_assoc]
  rfl
end

/-- The second clause of O27: `init` on a chip that does not complete its status write at its first `k + 2`
opportunities, but at the next. -/
theorem initPollEnds {s : State} {k : Nat} {rest : List Bool} (hs : s.seq = .idle)
    (hl : s.life = .busReady) (hbus : BusIdle s) (hcfg : Configured s) (hcrm : s.chip.crm = false)
    (hp : s.chip.pending = .none)
    (hsch : s.schedule = false :: false :: (List.replicate k false ++ true :: rest)) :
    let busy := statusTxn 0x05 [s.chip.sr1 ||| 0x01] false
    ∃ t u : State, exec .init s = .next t ∧ t.seq = .polling .init ∧ t.life = .busReady ∧
      t.current = some .init ∧ t.regs.sr.busy = false ∧ t.chip.pending = .wrsr2 0x02 true ∧
      t.results = s.results ∧
      t.trace = s.trace ++ [bareTxn 0xAB false, bareTxn 0x50 false, wrsr2Txn 0x02 false, busy] ∧
      Host.Core.run Sys2Proof.core (k + 2) t = .next u ∧ u.seq = .idle ∧ u.life = .indirect ∧
      u.results = s.results ++ [⟨some .init, .unit⟩] ∧
      u.chip = { s.chip with
        pwr := .active, sr1 := s.chip.sr1 &&& 0xFE, sr2 := 0x02, vwe := false } ∧
      u.trace = t.trace ++ List.replicate (k + 1) busy ++
        [statusTxn 0x05 [s.chip.sr1 &&& 0xFE] false] := by
  intro busy
  obtain ⟨-, hbusy, -⟩ := id hbus
  have hrun := initSent_running hbus hcfg hcrm
  have hpend : (initSent s).chip.pending ≠ .none := nofun
  have hexec : exec .init s = .next (polledBusy .init (initSent s)) := by
    rw [exec, execInit_eq hbus hcfg hcrm hs hl hp, pollThen_busy hrun hpend hsch]
  have hsch' : (polledBusy .init (initSent s)).schedule = List.replicate k false ++ true :: rest :=
    congrArg (fun l => l.tail.tail) hsch
  obtain ⟨t, ht, hreads, -, hstep⟩ := run_poll_ends (s := polledBusy .init (initSent s)) rfl
    (polledBusy_running hrun) hpend hsch'
  have htrace := hreads.trace_ended
  rw [initPolled_complete hp] at hreads htrace
  rw [initPolled_sr1] at htrace
  have hres : t.results ++ [⟨t.current, .unit⟩] = s.results ++ [⟨some .init, .unit⟩] := by
    simp [hreads.results, hreads.current]
  exact ⟨_, finish .unit { statusRead t with life := .indirect }, hexec, rfl, by simpa using hl,
    by simp, by simpa using hbusy, rfl, by simp, initPolled_trace, run_then_step ht hstep, rfl, rfl,
    hres, hreads.chip_read, htrace⟩

end Sys2Proof.Machine
end

section
/-! PROOF. The poll after each chunk of `program_page` (42_array_operations.md rule R245), and that every
poll ends under `ChipCompletes` (60_exceptions.md rule R331). -/

namespace Sys2Proof.Machine

/-! ### `program_page` -/

/-- What `program_page` has done before a chunk's poll, CHIP's opportunity still to come (42 R245). -/
def chunkSent (s : State) (c : Nat × List Byte) : State :=
  opStarted 0x03002532 (BitVec.ofNat 32 (c.2.length - 1)) (BitVec.ofNat 32 c.1) (.program c.1 c.2)
    (qppTxn (BitVec.ofNat 32 c.1) c.2 false) (wrenSent s)

@[simp] theorem chunkSent_results (s : State) (c : Nat × List Byte) :
    (chunkSent s c).results = s.results := rfl
@[simp] theorem chunkSent_current (s : State) (c : Nat × List Byte) :
    (chunkSent s c).current = s.current := rfl
@[simp] theorem chunkSent_busy (s : State) (c : Nat × List Byte) :
    (chunkSent s c).regs.sr.busy = s.regs.sr.busy := rfl
@[simp] theorem chunkSent_array (s : State) (c : Nat × List Byte) :
    (chunkSent s c).chip.array = s.chip.array := rfl
@[simp] theorem chunkSent_pending (s : State) (c : Nat × List Byte) :
    (chunkSent s c).chip.pending = .program c.1 c.2 := rfl

theorem sr1WithBusy_withWel_true (v : Byte) : sr1WithBusy (sr1WithWel v true) true = v ||| 0x03 := by
  revert v; decide

/-- A program's end clears BUSY and WEL (43 R307). -/
theorem sr1WithBusy_withWel_false (v : Byte) :
    sr1WithBusy (sr1WithWel (v ||| 0x03) false) false = v &&& 0xFC := by
  revert v; decide

theorem and_FC_or_3 (v : Byte) : v &&& 0xFC ||| 0x03 = v ||| 0x03 := by
  revert v; decide

@[simp] theorem polledBusy_array (w : PollCont) (s : State) :
    (polledBusy w s).chip.array = s.chip.array := rfl
@[simp] theorem polledBusy_sr1 (w : PollCont) (s : State) :
    (polledBusy w s).chip.sr1 = s.chip.sr1 := rfl

theorem polledBusy_trace (w : PollCont) (s : State) :
    (polledBusy w s).trace = s.trace ++ [statusTxn 0x05 [s.chip.sr1] false] := rfl

@[simp] theorem chunkSent_sr1 (s : State) (c : Nat × List Byte) :
    (chunkSent s c).chip.sr1 = s.chip.sr1 ||| 0x03 := sr1WithBusy_withWel_true _

theorem chunkSent_trace (s : State) (c : Nat × List Byte) :
    (chunkSent s c).trace =
      s.trace ++ [bareTxn 0x06 false, qppTxn (BitVec.ofNat 32 c.1) c.2 false] :=
  List.append_assoc _ _ _

/-- What a completed program leaves of the chip (42 R249, 43 R307). -/
theorem chipComplete_program {k : Chip} {a : Nat} {d : List Byte} (h : k.pending = .program a d) :
    (chipComplete k).array = k.array.program a d ∧
      (chipComplete k).sr1 = sr1WithBusy (sr1WithWel k.sr1 false) false := by
  rw [chipComplete, h]
  exact ⟨rfl, rfl⟩

theorem chipComplete_programReady {k : Chip} (h : ProgramReady k) : ProgramReady (chipComplete k) := by
  obtain ⟨hqe, hprot, hpend⟩ := h
  refine ⟨by rw [chipComplete_sr2 hpend]; exact hqe, by rw [chipComplete_frame]; exact hprot, ?_⟩
  rw [chipComplete_pending]
  exact fun _ _ => nofun

theorem ProgramReady.chance {s : State} (h : ProgramReady s.chip) :
    ProgramReady (chipChance s).chip := by
  rcases chipChance_chip s with hk | hk <;> rw [hk]
  · exact h
  · exact chipComplete_programReady h

/-- Between two operations at the chip a program runs as from `ArrayReady`. -/
theorem Running.arrayReady {s : State} (h : Running s) (hp : s.chip.pending = .none)
    (hk : ProgramReady s.chip) : ArrayReady s := by
  obtain ⟨hqe, hprot, -⟩ := hk
  obtain ⟨hbus, hcfg, -⟩ := id h
  exact ⟨hbus, hcfg, h.chipReady hp, hqe, hprot⟩

/-- After the read that ends a poll. -/
theorem PollReads.arrayReady {n : Nat} {k : Chip} {s t : State} (h : PollReads n (chipComplete k) s t)
    (hk : ProgramReady k) : ArrayReady (statusRead t) := by
  refine Running.arrayReady h.running (h.pending.trans (chipComplete_pending k)) ?_
  rw [h.chip_read]
  exact chipComplete_programReady hk

section
variable {s : State} (h : ArrayReady s) (c : Nat × List Byte)
include h

theorem chunkSent_running : Running (chunkSent s c) := opStarted_running (wrenSent_ready h) nofun

theorem chunkSent_programReady : ProgramReady (chunkSent s c).chip := by
  obtain ⟨-, -, -, hqe, hprot⟩ := h
  exact ⟨hqe, hprot, fun _ _ => nofun⟩

/-- A chunk's write-enable, program and poll (42 R245, R247). -/
theorem programChunks_cons {c : Nat × List Byte} (hc : ChunkFits c) (l : List (Nat × List Byte)) :
    programChunks (c :: l) s =
      pollThen (.program l) (programChunks l) (chipChance (chunkSent s c)) := by
  obtain ⟨hbus, hcfg, hchip, hqe, hprot⟩ := wrenSent_ready h
  obtain ⟨hd, hpage, ha⟩ := hc
  have hqpp := txn_qpp hbus hcfg hchip hqe (wrenSent_wel s) hprot hd hpage ha
  rw [programChunks, programChunk, txnBare_wren_eq h, andThen_next, hqpp, andThen_next]
  rfl

/-- A chunk that CHIP leaves pending at its first two opportunities. -/
theorem programChunks_busy {c : Nat × List Byte} (hc : ChunkFits c) (l : List (Nat × List Byte))
    {rest : List Bool} (hsch : s.schedule = false :: false :: rest) :
    programChunks (c :: l) s = .next (polledBusy (.program l) (chunkSent s c)) := by
  rw [programChunks_cons h hc, pollThen_busy (chunkSent_running h c) nofun hsch]

end

/-- A poll of `program_page` that ends: the chunk is programmed, and the next one can start (42 R245). -/
theorem chunkPollEnds {s : State} (h : ArrayReady s) (c : Nat × List Byte) (l : List (Nat × List Byte))
    {k : Nat} {rest : List Bool}
    (hsch : s.schedule = false :: false :: (List.replicate k false ++ true :: rest)) :
    let t := polledBusy (.program l) (chunkSent s c)
    ∃ u v : State, Host.Core.run Sys2Proof.core (k + 1) t = .next u ∧
      step u = settle (programChunks l v) ∧ ArrayReady v ∧ v.schedule = rest ∧
      v.results = s.results ∧ v.current = s.current ∧
      v.chip.array = s.chip.array.program c.1 c.2 ∧ v.chip.sr1 = s.chip.sr1 &&& 0xFC ∧
      v.trace = t.trace ++ List.replicate (k + 1) (statusTxn 0x05 [s.chip.sr1 ||| 0x03] false) ++
        [statusTxn 0x05 [s.chip.sr1 &&& 0xFC] false] := by
  intro t
  have hpend : t.chip.pending = .program c.1 c.2 := rfl
  obtain ⟨u, hu, hreads, hrest, hstep⟩ := run_poll_ends (s := t) rfl
    (polledBusy_running (chunkSent_running h c)) nofun (congrArg (fun l => l.tail.tail) hsch)
  obtain ⟨harray, hsr1⟩ := chipComplete_program hpend
  have hbusy : t.chip.sr1 = s.chip.sr1 ||| 0x03 := by simp [t]
  rw [hbusy, sr1WithBusy_withWel_false] at hsr1
  have htrace := hreads.trace_ended
  rw [hbusy, hsr1] at htrace
  refine ⟨u, statusRead u, hu, hstep, hreads.arrayReady (k := t.chip) (chunkSent_programReady h c), hrest,
    hreads.results.trans ?_, hreads.current.trans ?_, ?_, ?_, htrace⟩
  · simp [t]
  · simp [t]
  · rw [hreads.chip_read]
    simpa [t] using harray
  · rw [hreads.chip_read]
    exact hsr1

/-- The start of `program_page` on a range of the array (42 R241, R245). -/
theorem exec_programPage_eq {s : State} (hs : s.seq = .idle) (hl : s.life = .indirect) {a : Word}
    {data : List Byte} (ha : a.toNat + data.length ≤ Config.capacity) :
    exec (.programPage a data) s =
      programChunks (pageChunks a.toNat data) { s with current := some (.programPage a data) } := by
  have hrange : outOfRange a data.length = false := by simpa [outOfRange] using ha
  rw [exec, execProgramPage, request_indirect hs hl rfl, hrange, if_neg Bool.false_ne_true]

/-- The third clause of O27: `program_page` on a chip that does not complete a chunk at the first `k + 2`
opportunities, but at the next. -/
theorem programPollEnds {a : Word} {data : List Byte} {c : Nat × List Byte}
    {l : List (Nat × List Byte)} {s : State} {k : Nat} {rest : List Bool} (h : IndirectReady s)
    (hqe : sr2Qe s.chip.sr2 = true) (hprot : s.chip.prot = [])
    (ha : a.toNat + data.length ≤ 8388608) (hcs : pageChunks a.toNat data = c :: l)
    (hsch : s.schedule = false :: false :: (List.replicate k false ++ true :: rest)) :
    let busy := statusTxn 0x05 [s.chip.sr1 ||| 0x03] false
    let idle := statusTxn 0x05 [s.chip.sr1 &&& 0xFC] false
    ∃ t : State, exec (.programPage a data) s = .next t ∧ t.seq = .polling (.program l) ∧
      t.regs.sr.busy = false ∧ t.chip.pending = .program c.1 c.2 ∧ t.chip.array = s.chip.array ∧
      t.results = s.results ∧
      t.trace = s.trace ++ [bareTxn 0x06 false, qppTxn (BitVec.ofNat 32 c.1) c.2 false, busy] ∧
      (l = [] → ∃ u : State, Host.Core.run Sys2Proof.core (k + 2) t = .next u ∧ u.seq = .idle ∧
        u.results = s.results ++ [⟨some (.programPage a data), .unit⟩] ∧
        u.chip.array = s.chip.array.program c.1 c.2 ∧
        u.trace = t.trace ++ List.replicate (k + 1) busy ++ [idle]) ∧
      (∀ (c' : Nat × List Byte) (l' : List (Nat × List Byte)) (rest' : List Bool), l = c' :: l' →
        rest = false :: false :: rest' →
        ∃ u : State, Host.Core.run Sys2Proof.core (k + 2) t = .next u ∧
          u.seq = .polling (.program l') ∧
          u.chip.pending = .program c'.1 c'.2 ∧ u.results = s.results ∧
          u.chip.array = s.chip.array.program c.1 c.2 ∧
          u.trace = t.trace ++ List.replicate (k + 1) busy ++
            [idle, bareTxn 0x06 false, qppTxn (BitVec.ofNat 32 c'.1) c'.2 false, busy]) := by
  intro busy idle
  obtain ⟨hs, hl, hbus, hchip, hcfg⟩ := h
  obtain ⟨-, hbusy, -⟩ := id hbus
  have hready : ArrayReady { s with current := some (.programPage a data) } :=
    ⟨hbus, hcfg, hchip, hqe, hprot⟩
  have hfits : ∀ c' ∈ c :: l, ChunkFits c' := hcs ▸ pageChunks_fits ha
  have hexec := (exec_programPage_eq hs hl ha).trans (by
    rw [hcs, programChunks_busy hready (hfits _ (List.mem_cons_self ..)) l hsch])
  obtain ⟨u, v, hu, hstep, hv, hrest, hres, hcur, harray, hsr1, htrace⟩ := chunkPollEnds hready c l hsch
  refine ⟨_, hexec, rfl, by simpa using hbusy, by simp, by simp, by simp, ?_, fun hnil => ?_,
    fun c' l' rest' hcons hrest' => ?_⟩
  · rw [polledBusy_trace, chunkSent_trace, chunkSent_sr1]
    exact List.append_assoc _ _ _
  · subst hnil
    refine ⟨finish .unit v, run_then_step hu hstep, rfl, ?_, harray, htrace⟩
    rw [finish_results, hres, hcur]
  · subst hcons
    rw [programChunks_busy hv (hfits _ (by simp)) l' (hrest.trans hrest')] at hstep
    refine ⟨_, run_then_step hu hstep, rfl, by simp, by simpa using hres, by simpa using harray, ?_⟩
    rw [polledBusy_trace, chunkSent_trace, chunkSent_sr1, hsr1, and_FC_or_3, htrace]
    simp [busy, idle]

/-! ### Every poll ends under `ChipCompletes` -/

/-- What no poll changes before its operation returns. -/
abbrev SameRequest (s t : State) : Prop :=
  t.results = s.results ∧ t.current = s.current ∧ t.host = s.host ∧ t.marks = s.marks

theorem SameRequest.trans {s t u : State} (h1 : SameRequest s t) (h2 : SameRequest t u) :
    SameRequest s u := by
  obtain ⟨r1, c1, o1, m1⟩ := h1
  obtain ⟨r2, c2, o2, m2⟩ := h2
  exact ⟨r2.trans r1, c2.trans c1, o2.trans o1, m2.trans m1⟩

theorem PollReads.sameRequest {n : Nat} {k : Chip} {s t : State} (h : PollReads n k s t) :
    SameRequest s t := ⟨h.results, h.current, h.host, h.marks⟩

theorem SameRequest.chance (s : State) : SameRequest s (chipChance s) := by
  simp [SameRequest]

/-- The operation in progress returns, in a run of some number of steps (60 R331). -/
def Returns (s : State) : Prop :=
  ∃ (n : Nat) (t : State), Host.Core.run Sys2Proof.core n s = .next t ∧ t.seq = .idle ∧
    t.results = s.results ++ [⟨s.current, .unit⟩] ∧ t.host = s.host ∧ t.marks = s.marks

/-- A step in which the operation returns. -/
theorem Returns.of_finish {s u : State} (hstep : step s = .next (finish .unit u))
    (h : SameRequest s u) : Returns s := by
  obtain ⟨hres, hcur, hhost, hmarks⟩ := h
  exact ⟨1, _, run_one hstep, rfl, by rw [finish_results, hres, hcur], hhost, hmarks⟩

/-- Steps before the operation returns. -/
theorem Returns.of_run {s t : State} {n : Nat} (hrun : Host.Core.run Sys2Proof.core n s = .next t)
    (h : SameRequest s t) (ht : Returns t) : Returns s := by
  obtain ⟨hres, hcur, hhost, hmarks⟩ := h
  obtain ⟨m, u, hu, hseq, hres', hhost', hmarks'⟩ := ht
  exact ⟨n + m, u, (run_add hrun m).trans hu, hseq, by rw [hres', hres, hcur], hhost'.trans hhost,
    hmarks'.trans hmarks⟩

theorem ChipCompletes.of_run {s t : State} {n : Nat} (h : ChipCompletes s)
    (hrun : Host.Core.run Sys2Proof.core n s = .next t) : ChipCompletes t :=
  fun m u hu => h (n + m) u ((run_add hrun m).trans hu)

/-- Under `ChipCompletes` a poll comes to a read that shows BUSY = 0 (40 R183, 60 R331). -/
theorem run_poll_idle {w : PollCont} {s : State} (hs : s.seq = .polling w) (h : Running s)
    (hc : ChipCompletes s) :
    ∃ (n : Nat) (t : State), Host.Core.run Sys2Proof.core n s = .next t ∧
      PollReads n (chipComplete s.chip) s t ∧ step t = settle (pollNext w (statusRead t)) := by
  have idle {n : Nat} {t : State} (ht : PollReads n (chipComplete s.chip) s t) :
      step t = settle (pollNext w (statusRead t)) :=
    step_poll_idle (ht.seq.trans hs) ht.running (ht.pending.trans (chipComplete_pending _))
  by_cases hp : s.chip.pending = .none
  · have ht : PollReads 0 (chipComplete s.chip) s s := by
      rw [chipComplete_none hp]
      exact .refl h
    exact ⟨0, s, rfl, ht, idle ht⟩
  · have hmoves := hc 0 s rfl hp
    have hfirst : ∀ i < Nat.find hmoves, chipMoveAt s i = false := fun i hi =>
      Bool.eq_false_iff.2 (Nat.find_min hmoves hi)
    obtain ⟨t, ht, hreads⟩ := run_poll_completes hs h hp _ hfirst (Nat.find_spec hmoves)
    exact ⟨_, t, ht, hreads, idle hreads⟩

/-- The chunks still to be programmed are, one after another, and then `program_page` returns (42 R245). -/
theorem programChunks_returns :
    ∀ (l : List (Nat × List Byte)) {s u : State}, (∀ c ∈ l, ChunkFits c) → ChipCompletes s →
      SameRequest s u → ArrayReady u → step s = settle (programChunks l u) → Returns s
  | [], s, u, _, _, same, _, hstep => .of_finish hstep same
  | c :: l, s, u, hl, hc, same, hu, hstep => by
    have returns {s u : State} := @programChunks_returns l s u fun c hc => hl c (List.mem_cons_of_mem _ hc)
    have hrun : Running (chipChance (chunkSent u c)) := (chunkSent_running hu c).chance
    have hprog : ProgramReady (chipChance (chunkSent u c)).chip := (chunkSent_programReady hu c).chance
    have same' : SameRequest s (chipChance (chunkSent u c)) := same.trans (.chance (chunkSent u c))
    rw [programChunks_cons hu (hl c (List.mem_cons_self ..)), pollThen_eq hrun] at hstep
    generalize chipChance (chunkSent u c) = v at hstep hrun hprog same'
    have hread : SameRequest s (statusRead v) := same'
    split at hstep
    · rename_i hp
      exact returns hc hread (hrun.arrayReady hp hprog) hstep
    · have hpoll := run_one hstep
      obtain ⟨n, t, ht, hreads, hnext⟩ :=
        run_poll_idle (s := { chipChance (statusRead v) with seq := .polling (.program l) }) rfl
          (Running.chance (s := statusRead v) hrun) (hc.of_run hpoll)
      have hready := hreads.arrayReady (ProgramReady.chance (s := statusRead v) hprog)
      exact .of_run hpoll (hread.trans (.chance _)) (.of_run ht hreads.sameRequest
        (returns (u := statusRead t) ((hc.of_run hpoll).of_run ht) ⟨rfl, rfl, rfl, rfl⟩ hready hnext))

/-! ### The polls of a run -/

section
variable {s : State} (h : BlockInv s)
include h

theorem BlockInv.initPoll (hs : s.seq = .polling .init) :
    s.life = .busReady ∧ s.current = some .init ∧ Running s ∧
      (s.chip.pending = .wrsr2 Config.qeValue true ∨
        s.chip.pending = .none ∧ sr2Qe s.chip.sr2 = true) := by
  obtain ⟨-, -, -, -, -, -, -, hseq, -⟩ := id h
  simp only [seqFits, hs, Bool.and_eq_true, Bool.or_eq_true, beq_iff_eq] at hseq
  obtain ⟨⟨⟨hl, hcur⟩, hpwr⟩, hpend⟩ := hseq
  exact ⟨hl, hcur, h.running (by rw [hl]; decide) ⟨h.busReady_crm hl, hpwr⟩, hpend⟩

theorem BlockInv.programPoll {l : List (Nat × List Byte)} (hs : s.seq = .polling (.program l)) :
    s.life = .indirect ∧ ∀ c ∈ l, ChunkFits c := by
  obtain ⟨-, -, -, -, -, -, -, hseq, -⟩ := h
  simp only [seqFits, hs, Bool.and_eq_true, beq_iff_eq, List.all_eq_true, decide_eq_true_eq,
    and_assoc] at hseq
  exact hseq

theorem BlockInv.donePoll (hs : s.seq = .polling .done) : s.life = .indirect := by
  obtain ⟨-, -, -, -, -, -, -, hseq, -⟩ := h
  simpa [seqFits, hs] using hseq

/-- The fourth clause of O27: the poll's last read comes, and what follows it returns (60 R331). -/
theorem poll_returns (hc : ChipCompletes s) {w : PollCont} (hs : s.seq = .polling w) : Returns s := by
  have hrun : Running s := by
    cases w with
    | init =>
      obtain ⟨-, -, hrun, -⟩ := h.initPoll hs
      exact hrun
    | program l => exact (h.indirect (h.programPoll hs).1).1
    | done => exact (h.indirect (h.donePoll hs)).1
  obtain ⟨n, t, ht, hreads, hnext⟩ := run_poll_idle hs hrun hc
  refine .of_run ht hreads.sameRequest ?_
  have same : SameRequest t (statusRead t) := ⟨rfl, rfl, rfl, rfl⟩
  cases w with
  | init => exact .of_finish (u := { statusRead t with life := .indirect }) hnext same
  | program l =>
    obtain ⟨hl, hfits⟩ := h.programPoll hs
    exact programChunks_returns l hfits (hc.of_run ht) same (hreads.arrayReady (h.indirect hl).2) hnext
  | done => exact .of_finish (u := statusRead t) hnext same

end

/-- Settles O27: a poll of an erase or `wait_busy`, of `init` and of `program_page` on a chip that
completes at a given opportunity, and every poll under `ChipCompletes`. -/
theorem pollEndsAtTheFirstIdleRead : Obligations.PollEndsAtTheFirstIdleRead := by
  refine ⟨fun s k rest hs hbus hcfg hcrm hpwr hp hb hk hsch => ?_,
    fun s k rest hs hl hbus hcfg hcrm hp hsch => ?_,
    fun a data c l s k rest h hqe hprot ha hcs hsch => ?_, fun s w h hc hs => ?_⟩
  · exact donePollEnds hs (running_of_busy hbus hcfg ⟨hcrm, hpwr⟩ hp hb) hp hk hsch
  · exact initPollEnds hs hl hbus hcfg hcrm hp hsch
  · exact programPollEnds h hqe hprot ha hcs hsch
  · exact poll_returns h hc hs

end Sys2Proof.Machine
end

section
/-! PROOF. What every step of a run keeps: registers, sequencer and chip agree with the lifecycle
(40_encoder_and_pollers.md rules R181 and R188, 41_lifecycle.md rule R214, 60_exceptions.md rule R340). -/

namespace Sys2Proof.Machine

/-! ### The invariant beside the core -/

/-- The block invariant but for its core, which every step keeps from any state (O50). -/
abbrev RunInv (s : State) : Prop :=
  s.regs.sr.busy = false ∧ s.regs.fifo = [] ∧ s.window = none ∧ s.chip.prot = [] ∧
    crSshift s.regs.cr = false ∧
    (s.life ≠ .uninit → busUp s = true ∧ dcrFsize s.regs.dcr = BitVec.ofNat 5 Config.fsize) ∧
    seqFits s = true ∧ chipFits s = true

/-- From BUS_READY on, the bus up and configured (60 R340). -/
theorem runInv_of_bus {s : State} (hbus : BusIdle s) (hcfg : Configured s) (hwin : s.window = none)
    (hprot : s.chip.prot = []) (hseq : seqFits s = true) (hchip : chipFits s = true) : RunInv s := by
  obtain ⟨hup, hbusy, hfifo⟩ := hbus
  obtain ⟨hsize, hsshift, -⟩ := hcfg
  exact ⟨hbusy, hfifo, hwin, hprot, hsshift, fun _ => ⟨hup, hsize⟩, hseq, hchip⟩

/-- In INDIRECT the chip is awake with QE set, and with no poll running nothing is pending (41 R214). -/
theorem chipFits_indirect {s : State} (hl : s.life = .indirect) (hk : ChipAwake s.chip)
    (hready : ProgramReady s.chip) (hs : s.seq = .idle → s.chip.pending = .none) :
    chipFits s = true := by
  obtain ⟨hcrm, hpwr⟩ := hk
  obtain ⟨hqe, -, hpend⟩ := hready
  unfold chipFits
  simp only [hl, hcrm, hpwr, hqe, Bool.and_eq_true, beq_iff_eq, true_and]
  split
  · rename_i hidle
    exact beq_iff_eq.2 (hs hidle)
  · rfl

/-- In BUS_READY the chip is outside continuous-read mode (70 R363). -/
theorem chipFits_busReady {s : State} (hl : s.life = .busReady) (hcrm : s.chip.crm = false)
    (hs : s.seq = .idle → s.chip.pending = .none) : chipFits s = true := by
  unfold chipFits
  simp only [hl, hcrm, Bool.and_eq_true, beq_iff_eq, true_and]
  split
  · rename_i hidle
    exact beq_iff_eq.2 (hs hidle)
  · rfl

/-! ### What a step makes of an outcome -/

/-- A step with this outcome goes on, if it does, in a state that meets the invariant. -/
def StepKeeps (o : Result) : Prop := ∀ t, settle o = .next t → RunInv t

theorem StepKeeps.next {s : State} (h : RunInv s) : StepKeeps (.next s) := by
  intro t ht
  cases ht
  exact h

theorem StepKeeps.fault (f : Fault) : StepKeeps (.fault f) := by
  intro t ht
  cases ht

/-- A refusal before the first transaction leaves its mark alone (60 R324, R325). -/
theorem RunInv.mark {s : State} (h : RunInv s) (hs : s.seq = .idle) (c : RefCode)
    (r : Option Request) (n : Option Nat) : RunInv (markRefusal c ⟨r, n, s⟩) := by
  obtain ⟨-, -, hwin, -, -, -, hseq, -⟩ := id h
  have hcur : s.current = none := by simpa [seqFits, hs] using hseq
  rw [markRefusal_idle hs hcur hwin]
  exact h

theorem StepKeeps.refused {s : State} (h : RunInv s) (hs : s.seq = .idle) (c : RefCode)
    (r : Option Request) (n : Option Nat) : StepKeeps (.refused (refusalOf c ⟨r, n, s⟩)) := by
  intro t ht
  rw [settle_refused] at ht
  exact Host.Outcome.next.inj ht ▸ h.mark hs c r n

/-- An admitted request's body decides (10 R32, R33). -/
theorem StepKeeps.request {i : Instr} {s : State} {body : State → Result} (hs : s.seq = .idle)
    (ha : admitted i s.life = true) (hb : StepKeeps (body { s with current := some i })) :
    StepKeeps (Machine.request i body s) := by
  rwa [request_admitted hs ha]

/-! ### Operations of INDIRECT -/

/-- An operation of INDIRECT between two of its transactions. -/
abbrev Working (s : State) : Prop :=
  Running s ∧ ProgramReady s.chip ∧ s.life = .indirect ∧ s.window = none

/-- A poll that runs in INDIRECT. -/
def PollFits : PollCont → Prop
  | .init => False
  | .program rest => ∀ c ∈ rest, ChunkFits c
  | .done => True

theorem seqFits_polling {s : State} {w : PollCont} (hs : s.seq = .polling w) (hl : s.life = .indirect)
    (hw : PollFits w) : seqFits s = true := by
  cases w with
  | init => exact hw.elim
  | program l =>
    simp only [seqFits, hs, hl, beq_self_eq_true, Bool.true_and, List.all_eq_true, Bool.and_eq_true,
      decide_eq_true_eq, and_assoc]
    exact hw
  | done => simp [seqFits, hs, hl]

theorem BlockInv.working {s : State} (h : BlockInv s) (hl : s.life = .indirect) : Working s := by
  obtain ⟨-, -, -, hwin, -⟩ := id h
  obtain ⟨hrun, hready⟩ := h.indirect hl
  exact ⟨hrun, hready, hl, hwin⟩

section
variable {s : State} (h : Working s)
include h

theorem Working.life : s.life = .indirect := by
  obtain ⟨-, -, hl, -⟩ := h
  exact hl

theorem Working.running : Running s := h.1

theorem Working.arrayReady (hp : s.chip.pending = .none) : ArrayReady s := by
  obtain ⟨hrun, hready, -⟩ := h
  exact hrun.arrayReady hp hready

/-- A request of INDIRECT runs its body (10 R32, R33). -/
theorem Working.request {i : Instr} {body : State → Result} (hs : s.seq = .idle)
    (ha : admitted i .indirect = true) (hb : StepKeeps (body { s with current := some i })) :
    StepKeeps (Machine.request i body s) := by
  rwa [request_indirect hs h.life ha]

theorem Working.runInv (hseq : seqFits s = true) (hs : s.seq = .idle → s.chip.pending = .none) :
    RunInv s := by
  obtain ⟨⟨hbus, hcfg, hawake, -⟩, hready, hl, hwin⟩ := h
  obtain ⟨-, hprot, -⟩ := id hready
  exact runInv_of_bus hbus hcfg hwin hprot hseq (chipFits_indirect hl hawake hready hs)

/-- A return to HOST with nothing pending at the chip (10 R37). -/
theorem Working.finish (hp : s.chip.pending = .none) (r : OpResult) :
    StepKeeps (.next (Machine.finish r s)) :=
  .next (Working.runInv (s := Machine.finish r s) h rfl fun _ => hp)

theorem Working.chance : Working (chipChance s) := by
  obtain ⟨hrun, hready, hl, hwin⟩ := h
  exact ⟨hrun.chance, hready.chance, (chipChance_life s).trans hl, (chipChance_window s).trans hwin⟩

/-- A poll leaves the sequencer polling, or goes on with an idle chip (40 R183, R188). -/
theorem Working.poll {w : PollCont} (hw : PollFits w) {k : State → Result}
    (hk : ∀ t, Working t → t.chip.pending = .none → StepKeeps (k t)) :
    StepKeeps (pollThen w k s) := by
  have hread : Working (statusRead s) := h
  rw [pollThen_eq h.running]
  split
  · rename_i hp
    exact hk _ hread hp
  · have hpolls : Working { chipChance (statusRead s) with seq := .polling w } := hread.chance
    exact .next (hpolls.runInv (seqFits_polling rfl hpolls.life hw) nofun)

theorem Working.pollDone : StepKeeps (pollDone s) :=
  h.poll (w := .done) trivial fun _ ht hp => ht.finish hp _

end

theorem programChunks_keeps :
    ∀ (l : List (Nat × List Byte)) {s : State}, (∀ c ∈ l, ChunkFits c) → Working s →
      s.chip.pending = .none → StepKeeps (programChunks l s)
  | [], _, _, h, hp => h.finish hp _
  | c :: l, s, hl, h, hp => by
    have hready := h.arrayReady hp
    have hl' : ∀ c ∈ l, ChunkFits c := fun c hc => hl c (List.mem_cons_of_mem _ hc)
    obtain ⟨-, -, hlife, hwin⟩ := id h
    have hsent : Working (chunkSent s c) :=
      ⟨chunkSent_running hready c, chunkSent_programReady hready c, hlife, hwin⟩
    rw [programChunks_cons hready (hl c (List.mem_cons_self ..))]
    exact hsent.chance.poll (w := .program l) hl' fun t ht hp => programChunks_keeps l hl' ht hp

/-- A chip that serves the operations of INDIRECT, BUSY exact (41 R214, 10 R67). -/
abbrev ChipServes (k : Chip) : Prop := ChipAwake k ∧ BusyExact k ∧ ProgramReady k

theorem chipRule_serves {c : BusCmd} {x : BusTxn} {n : Nat} {k k' : Chip} {b : List Byte}
    (hk : ChipServes k) (hc : c ≠ .wrsr2) (hm : c ≠ .mmread) (h : chipRule c x n k = .answer k' b) :
    ChipServes k' := by
  obtain ⟨⟨hcrm, hpwr⟩, hb, hqe, hprot, hpend⟩ := id hk
  have starts {p : Pending} (hp : p ≠ .none) (hw : ∀ v b, p ≠ .wrsr2 v b) :
      ChipServes (chipStart p k) :=
    ⟨⟨hcrm, hpwr⟩, (sr1Busy_withBusy _ _).trans (decide_eq_true hp).symm, hqe, hprot, hw⟩
  cases c with
  | wrsr2 => exact absurd rfl hc
  | mmread => exact absurd rfl hm
  | wren =>
    cases h
    exact ⟨⟨hcrm, hpwr⟩, (sr1Busy_withWel _ _).trans hb, hqe, hprot, hpend⟩
  | rdpd =>
    cases h
    exact ⟨⟨hcrm, rfl⟩, hb, hqe, hprot, hpend⟩
  | qpp =>
    simp only [chipRule, chipQpp] at h
    (repeat' split at h) <;> cases h
    · exact hk
    · exact starts nofun nofun
  | se4k =>
    simp only [chipRule, chipSe4k] at h
    (repeat' split at h) <;> cases h
    · exact hk
    · exact starts nofun nofun
  | ce =>
    simp only [chipRule, chipCe] at h
    (repeat' split at h) <;> cases h
    · exact hk
    · exact starts nofun nofun
  | vwren | rdsr1 | rdsr2 | rdid | qread =>
    cases h
    exact hk

/-- A chip that answers goes on serving: no command of INDIRECT writes SR2 or takes the chip away
(43 R295). -/
theorem chipTake_serves {c : BusCmd} {x : BusTxn} {n : Nat} {k k' : Chip} {b : List Byte}
    (hk : ChipServes k) (hc : c ≠ .wrsr2) (hm : c ≠ .mmread) (h : chipTake c x n k = .answer k' b) :
    ChipServes k' := by
  obtain ⟨⟨hcrm, -⟩, -⟩ := id hk
  unfold chipTake at h
  rw [hcrm, if_neg Bool.false_ne_true] at h
  (repeat' split at h) <;> try cases h
  cases hr : chipRule c x n k with
  | answer k1 b1 =>
    have hk1 := chipRule_serves hk hc hm hr
    rw [hr] at h
    cases h
    split
    · exact hk1
    · exact hk1
  | _ => rw [hr] at h; cases h

/-- An answered transaction of an operation of INDIRECT (40 R170). -/
theorem Working.txn {s : State} (h : Working s) {c : BusCmd} {x : TxnArgs} {k : Chip}
    {bytes : List Byte} (hc : c ≠ .wrsr2) (hm : c ≠ .mmread) (hs : lateSampled c = false)
    (hx : argsFit c x)
    (hchip : chipTake c (txnRecord c x false (sentBytes c x)) x.n s.chip = .answer k bytes)
    (hlen : c.descriptor.fmode = .indirectRead → bytes.length = x.n) :
    ∃ t, txn c x s = .next t ∧ Working t := by
  obtain ⟨⟨hbus, hcfg, hawake, hexact⟩, hready, hl, hwin⟩ := h
  obtain ⟨hawake', hexact', hready'⟩ := chipTake_serves ⟨hawake, hexact, hready⟩ hc hm hchip
  obtain ⟨hsize, hsshift, -⟩ := id hcfg
  have ht := txn_spec c x s k bytes hm hbus (hsshift.trans hs.symm) hsize hx (by rw [hs]; exact hchip) hlen
  exact ⟨_, ht, Working.chance ⟨⟨hbus, hcfg, hawake', hexact'⟩, hready', hl, hwin⟩⟩

section
variable {s : State} (h : Working s) (hp : s.chip.pending = .none)
include h hp

/-- A write-enable (43 R298). -/
theorem Working.wren : ∃ t, txnBare .wren s = .next t ∧ Working t ∧ t.chip.pending = .none := by
  obtain ⟨⟨hbus, hcfg, hawake, hexact⟩, hready, hl, hwin⟩ := id h
  exact ⟨_, txnBare_wren_eq (h.arrayReady hp),
    ⟨⟨hbus, hcfg, hawake, (sr1Busy_withWel _ _).trans hexact⟩, hready, hl, hwin⟩, hp⟩

/-- An erase's own write-enable, or none where `ERASE_WREN` is false (42 R255). -/
theorem Working.eraseWren : ∃ t, eraseWren s = .next t ∧ Working t ∧ t.chip.pending = .none := by
  unfold Machine.eraseWren
  split
  · exact h.wren hp
  · exact ⟨s, rfl, h, hp⟩

/-- An erase operation after its range check: write-enable, erase command, poll (42 R250, R253). -/
theorem Working.erase {erase : State → Result}
    (he : ∀ t, Working t → t.chip.pending = .none → ∃ u, erase t = .next u ∧ Working u) :
    StepKeeps (andThen (Machine.eraseWren s) fun t => andThen (erase t) fun u => Machine.pollDone u) := by
  obtain ⟨t, ht, hwork, hpend⟩ := h.eraseWren hp
  obtain ⟨u, hu, hwork'⟩ := he t hwork hpend
  rw [ht, andThen_next, hu, andThen_next]
  exact hwork'.pollDone

end

/-- A request that is one transaction and returns what it read (43 R282 to R288). -/
theorem oneTxn_keeps {s : State} {i : Instr} {f : State → Result} {r : State → OpResult}
    (hs : s.seq = .idle) (ha : admitted i s.life = true)
    (hf : ∃ t, f { s with current := some i } = .next t ∧ Working t ∧ t.chip.pending = .none) :
    StepKeeps (request i (fun t => andThen (f t) fun u => .next (finish (r u) u)) s) := by
  obtain ⟨t, ht, hwork, hp⟩ := hf
  refine .request hs ha ?_
  rw [ht, andThen_next]
  exact hwork.finish hp _

/-- A status read of an idle chip (43 R296, R297). -/
theorem Working.rdsr1 {s : State} (h : Working s) (hp : s.chip.pending = .none) :
    ∃ t, txnRead1 .rdsr1 s = .next t ∧ Working t ∧ t.chip.pending = .none := by
  obtain ⟨hbus, hcfg, hawake, -⟩ := h.running
  have ht := txnRead1_rdsr1 hbus hcfg hawake
  rw [chipChance_idle (by exact hp)] at ht
  exact ⟨_, ht, h, hp⟩

@[inherit_doc Working.rdsr1]
theorem Working.rdsr2 {s : State} (h : Working s) (hp : s.chip.pending = .none) :
    ∃ t, txnRead1 .rdsr2 s = .next t ∧ Working t ∧ t.chip.pending = .none := by
  obtain ⟨hbus, hcfg, hawake, -⟩ := h.running
  have ht := txnRead1_rdsr2 hbus hcfg hawake
  rw [chipChance_idle (by exact hp)] at ht
  exact ⟨_, ht, h, hp⟩

section
variable {s : State} (h : Working s) (hp : s.chip.pending = .none) (hs : s.seq = .idle)

section
variable (hinv : RunInv s)
include hinv h hp hs

theorem readBytes_keeps (a : Word) (n : Nat) : StepKeeps (execReadBytes a n s) := by
  refine h.request hs rfl ?_
  split
  · exact .refused hinv hs .zeroLength _ _
  · split
    · exact .refused hinv hs .range _ _
    · rename_i hn hr
      obtain ⟨hbus, hcfg, hchip, hqe, -⟩ := h.arrayReady hp
      have ht := txn_qread (s := { s with current := some (.readBytes a n) }) hbus hcfg hchip hqe
        (Nat.one_le_iff_ne_zero.2 hn) (by simpa [outOfRange] using hr)
      rw [ht, andThen_next]
      refine Working.finish ?_ ?_ _
      · exact h
      · exact hp

theorem programPage_keeps (a : Word) (d : List Byte) : StepKeeps (execProgramPage a d s) := by
  refine h.request hs rfl ?_
  split
  · exact .refused hinv hs .range _ _
  · rename_i hr
    have hr' : a.toNat + d.length ≤ Config.capacity := by simpa [outOfRange] using hr
    exact programChunks_keeps _ (pageChunks_fits hr') h hp

theorem blockErase4k_keeps (a : Word) : StepKeeps (execBlockErase4k a s) := by
  refine h.request hs rfl ?_
  split
  · exact .refused hinv hs .range _ _
  · rename_i hr
    have h24 : (a.setWidth 24).toNat < Config.capacity := by
      simp only [outOfRange, decide_eq_true_eq] at hr
      unfold Config.capacity at hr ⊢
      rw [BitVec.toNat_setWidth]
      omega
    refine Working.erase (s := { s with current := some (.blockErase4k a) }) h hp fun t ht hpt => ?_
    obtain ⟨⟨-, -, -, hexact⟩, ⟨-, hprot, -⟩, -⟩ := id ht
    obtain ⟨k, hk, -⟩ := chipTake_se4k_answer { addr := a.setWidth 24 } (ht.running.chipReady hpt)
      hexact hprot h24
    exact ht.txn (by decide) (by decide) rfl ⟨fun _ => rfl, fun h => absurd rfl h, by simp, by simp,
      fun _ => h24⟩ hk nofun

end

include h hp hs

theorem chipErase_keeps : StepKeeps (execChipErase s) := by
  refine h.request hs rfl ?_
  refine Working.erase (s := { s with current := some .chipErase }) h hp fun t ht hpt => ?_
  obtain ⟨⟨-, -, -, hexact⟩, ⟨-, hprot, -⟩, -⟩ := id ht
  obtain ⟨k, hk, -⟩ := chipTake_ce_answer {} (ht.running.chipReady hpt) hexact hprot
  exact ht.txn (by decide) (by decide) rfl (by simp [argsFit, BusCmd.descriptor, Descriptor.bare]) hk
    nofun

/-- `read_ids` puts the toggle back (43 R280, 10 R46). -/
theorem readIds_keeps : StepKeeps (execReadIds s) := by
  refine h.request hs rfl ?_
  obtain ⟨⟨hbus, ⟨hsize, -⟩, hawake, hexact⟩, hready, hl, hwin⟩ := id h
  have ht := txn_rdid (s := writeSshift true { s with current := some .readIds }) hbus hsize
    (crSshift_withSshift _ _) (h.running.chipReady hp)
  rw [ht, andThen_next]
  refine Working.finish ?_ ?_ _
  · refine ⟨⟨hbus, ⟨hsize, crSshift_withSshift _ _, ?_⟩, hawake, hexact⟩, hready, hl, hwin⟩
    exact (BitVec.and_assoc _ _ _).trans (by rw [BitVec.and_self]; rfl)
  · exact hp

/-- `into_memory_mapped` leaves the chip as it is, outside continuous-read mode (41 R215). -/
theorem intoMemoryMapped_keeps : StepKeeps (execIntoMemoryMapped s) := by
  refine h.request hs rfl ?_
  split
  · exact .fault _
  · obtain ⟨⟨hbus, hcfg, ⟨hcrm, hpwr⟩, -⟩, ⟨hqe, hprot, -⟩, -, hwin⟩ := h
    refine .next (runInv_of_bus hbus hcfg hwin hprot rfl ?_)
    simp [chipFits, hcrm, hpwr, hqe, hp]

end

/-! ### `bus_bringup` and `init` -/

/-- `bus_bringup` writes the chip's size, and not the toggle (41 R210, 10 R42, R46). -/
theorem dcrFsize_bringup {p f cs ck : Word} (h : bringupFits p f cs ck = true) :
    dcrFsize (bringupDcr cs ck &&& dcrMask) = BitVec.ofNat 5 Config.fsize := by
  simp only [bringupFits, Bool.and_eq_true, decide_eq_true_eq] at h
  obtain ⟨⟨-, hcs⟩, hck⟩ := h
  have fields : ∀ (x : BitVec 3) (y : BitVec 1),
      dcrFsize (bringupDcr (x.setWidth 32) (y.setWidth 32) &&& dcrMask) =
        BitVec.ofNat 5 Config.fsize := by decide
  have hfields := fields (cs.setWidth 3) (ck.setWidth 1)
  rwa [setWidth_of_lt (by decide) hcs, setWidth_of_lt (by decide) hck] at hfields

theorem crSshift_bringup (p f : Word) : crSshift (bringupCr p f &&& crMask) = false := by
  simp [crSshift, bringupCr]

theorem busBringup_keeps {s : State} {p f cs ck : Word} (h : BlockInv s) (hs : s.seq = .idle)
    (hl : s.life = .uninit) : StepKeeps (execBusBringup p f cs ck s) := by
  obtain ⟨-, hinv⟩ := id h
  refine .request hs (by rw [hl]; rfl) ?_
  split
  · exact .refused hinv hs .operand _ _
  · rename_i hf
    obtain ⟨-, hp, -⟩ := h.quiet hs
    obtain ⟨hbusy, hfifo, hwin, hprot, -, -, -, hchip⟩ := hinv
    refine .next ⟨hbusy, hfifo, hwin, hprot, crSshift_bringup p f,
      fun _ => ⟨rfl, dcrFsize_bringup (by simpa using hf)⟩, rfl, chipFits_busReady rfl ?_ fun _ => hp⟩
    simp only [chipFits, hl, Bool.and_eq_true, beq_iff_eq] at hchip
    exact hchip.1

/-- `init` from its status write on: the write of QE is pending, or has reached the chip (41 R212). -/
structure InitPolls (s : State) : Prop where
  running : Running s
  prot : s.chip.prot = []
  life : s.life = .busReady
  window : s.window = none
  current : s.current = some .init
  qe : s.chip.pending = .wrsr2 Config.qeValue true ∨
    s.chip.pending = .none ∧ sr2Qe s.chip.sr2 = true

/-- A volatile status write reaches SR2 (43 R307). -/
theorem chipComplete_sr2_volatile {k : Chip} {v : Byte} (h : k.pending = .wrsr2 v true) :
    (chipComplete k).sr2 = v := by
  rw [chipComplete, h]
  rfl

/-- The completion of the status write sets QE (43 R307). -/
theorem InitPolls.chance {s : State} (h : InitPolls s) : InitPolls (chipChance s) := by
  obtain ⟨hrun, hprot, hl, hwin, hcur, hqe⟩ := h
  refine ⟨hrun.chance, ?_, (chipChance_life s).trans hl, (chipChance_window s).trans hwin,
    (chipChance_current s).trans hcur, ?_⟩
  · rcases chipChance_chip s with hk | hk <;> rw [hk]
    · exact hprot
    · rw [chipComplete_frame]
      exact hprot
  · rcases chipChance_chip s with hk | hk <;> rw [hk]
    · exact hqe
    · rcases hqe with hp | ⟨hp, hqe⟩
      · refine .inr ⟨chipComplete_pending _, ?_⟩
        rw [chipComplete_sr2_volatile hp]
        decide
      · rw [chipComplete_none hp]
        exact .inr ⟨hp, hqe⟩

/-- The poll of `init` goes on in BUS_READY, and ends in INDIRECT with QE set (41 R212, R214). -/
theorem initPoll_keeps {s : State} (h : InitPolls s) : StepKeeps (pollThen .init finishInit s) := by
  have hread : InitPolls (statusRead s) := ⟨h.running, h.prot, h.life, h.window, h.current, h.qe⟩
  rw [pollThen_eq h.running]
  split
  · rename_i hp
    obtain ⟨hrun, hprot, -, hwin, -, hqe⟩ := hread
    have hqe : sr2Qe (statusRead s).chip.sr2 = true := by
      rcases hqe with hw | ⟨-, hqe⟩
      · cases hp.symm.trans hw
      · exact hqe
    have hready : ProgramReady (statusRead s).chip :=
      ⟨hqe, hprot, fun v b hv => by cases hp.symm.trans hv⟩
    exact Working.finish (s := { statusRead s with life := .indirect }) ⟨hrun, hready, rfl, hwin⟩ hp _
  · obtain ⟨hrun, hprot, hl, hwin, hcur, hqe⟩ := hread.chance
    obtain ⟨hbus, hcfg, ⟨hcrm, hpwr⟩, -⟩ := hrun
    refine .next (runInv_of_bus hbus hcfg hwin hprot ?_ (chipFits_busReady hl hcrm nofun))
    simp only [seqFits, hl, hcur, hpwr, beq_self_eq_true, Bool.true_and, Bool.or_eq_true,
      Bool.and_eq_true, beq_iff_eq]
    exact hqe

theorem init_keeps {s : State} (h : BlockInv s) (hs : s.seq = .idle) (hl : s.life = .busReady) :
    StepKeeps (execInit s) := by
  obtain ⟨hbus, hcfg⟩ := h.bus (by rw [hl]; decide)
  obtain ⟨-, hp, -⟩ := h.quiet hs
  have hcrm := h.busReady_crm hl
  obtain ⟨-, -, -, hwin, hprot, -⟩ := h
  have hpolls : InitPolls (initSent s) :=
    ⟨initSent_running hbus hcfg hcrm, hprot, hl, hwin, rfl, .inl rfl⟩
  rw [execInit_eq hbus hcfg hcrm hs hl hp]
  exact initPoll_keeps hpolls.chance

/-! ### The window -/

/-- A window read that the chip takes leaves it in continuous-read mode (43 R306). -/
theorem chipTake_mmread_crm {x : BusTxn} {n : Nat} {k k' : Chip} {b : List Byte}
    (h : chipTake .mmread x n k = .answer k' b) : k'.crm = true := by
  unfold chipTake chipContinuation at h
  (repeat' split at h) <;> cases h
  · assumption
  · rfl

/-- The chip refuses no window read that follows the one that set its continuous-read mode (log 20). -/
theorem chipTake_mmread_not_refused {x : BusTxn} {n : Nat} {k : Chip} {r : RefCode}
    (h : k.crm = false → x.instr.isSome = true) : chipTake .mmread x n k ≠ .refuse r := by
  intro hr
  unfold chipTake chipContinuation at hr
  (repeat' split at hr) <;> cases hr
  rename_i hcrm hi
  simp [Option.isNone_iff_eq_none.1 hi] at h
  exact hcrm h

/-- What a window read finds in MEMMAPPED (41 R215, 10 R65). -/
abbrev WindowFits (s : State) : Prop :=
  s.chip.crm = s.regs.siooSent ∧ s.chip.pwr = .active ∧ sr2Qe s.chip.sr2 = true ∧
    s.regs.ccr = BusCmd.mmread.word ∧ s.regs.abr = Config.mmAlt.setWidth 32

theorem chipFits_memMapped {s : State} (hl : s.life = .memMapped) (hs : s.seq = .idle)
    (h : WindowFits s) (hp : s.chip.pending = .none) : chipFits s = true := by
  obtain ⟨hcrm, hpwr, hqe, hccr, habr⟩ := h
  simp only [chipFits, hl, hs, hcrm, hpwr, hqe, hccr, habr, hp, beq_self_eq_true, Bool.and_self]

theorem BlockInv.windowFits {s : State} (h : BlockInv s) (hl : s.life = .memMapped) :
    WindowFits s := by
  obtain ⟨-, -, -, -, -, -, -, -, hchip⟩ := h
  simp only [chipFits, hl, Bool.and_eq_true, beq_iff_eq, and_assoc] at hchip
  obtain ⟨hcrm, hpwr, hqe, hccr, habr, -⟩ := hchip
  exact ⟨hcrm, hpwr, hqe, hccr, habr⟩

section
variable {a : WindowAccess} {s : State} (h : WindowFits s)
include h

theorem startWindow_not_refused {r : Refusal} : startWindow a s ≠ .refused r := by
  obtain ⟨hcrm, -, -, hccr, -⟩ := h
  intro hr
  unfold startWindow at hr
  extract_lets tx s1 at hr
  have hinstr : s.chip.crm = false → tx.instr.isSome = true := by
    intro hk
    have hsent : s.regs.siooSent = false := hcrm.symm.trans hk
    simp only [tx, buildTxn, hsent]
    rfl
  (repeat' split at hr) <;> cases hr
  · rename_i hword
    rw [hccr, descriptorRefusal_mmread] at hword
    cases hword
  · rename_i hk
    exact chipTake_mmread_not_refused hinstr hk

/-- After a window read that is answered the chip is in continuous-read mode, and the instruction phase
has been sent (41 R217, 43 R306). -/
theorem startWindow_fits {t : State} (ht : startWindow a s = .next t) : WindowFits t := by
  obtain ⟨-, hpwr, hqe, hccr, habr⟩ := h
  unfold startWindow at ht
  extract_lets tx s1 at ht
  (repeat' split at ht) <;> cases ht
  · rename_i k b hk
    have hframe := chipTake_mmread_frame hk
    refine ⟨chipTake_mmread_crm hk, ?_, ?_, hccr, habr⟩
    · rw [hframe]
      exact hpwr
    · rw [hframe]
      exact hqe
  · rename_i hk
    cases (chipTake_ignored hk).1.symm.trans hpwr

end

theorem WindowFits.periphEnd {s : State} (h : WindowFits s) : WindowFits (periphEnd s) := by
  unfold Machine.periphEnd
  split <;> exact h

/-- PERIPH's step changes two flags of `SR`, and no other register. -/
theorem periphEnd_regs_frame (s : State) :
    (periphEnd s).regs = { s.regs with sr := (periphEnd s).regs.sr } := by
  unfold periphEnd
  split <;> rfl

/-- The return of a window load (41 R218). -/
theorem windowReturn_runInv {a : WindowAccess} {s t : State} (h : WindowFits s)
    (ht : startWindow a s = .next t) (hbus : BusIdle s) (hcfg : Configured s)
    (hprot : s.chip.prot = []) (hp : s.chip.pending = .none) (hl : s.life = .memMapped) (r : OpResult) :
    RunInv (finish r { periphEnd t with window := none }) := by
  obtain ⟨hup, -, hfifo⟩ := hbus
  obtain ⟨hsize, hsshift, hused⟩ := hcfg
  obtain ⟨hpend, -⟩ := startWindow_pending ht
  have hchip := startWindow_chip ht
  have hfits := (startWindow_fits h ht).periphEnd
  obtain ⟨-, hframe, -⟩ := startWindow_next ht
  have hregs : (periphEnd t).regs = { s.regs with
      siooSent := (periphEnd t).regs.siooSent, sr := (periphEnd t).regs.sr } := by
    rw [periphEnd_regs_frame, hframe]
  have hlife : (periphEnd t).life = .memMapped := by
    rw [periphEnd_life, hframe]
    exact hl
  have hbus' : BusIdle (finish r { periphEnd t with window := none }) := by
    refine ⟨?_, periphEnd_busy t, ?_⟩
    · show ((periphEnd t).clkEn && (periphEnd t).pinsAf) = true
      rw [periphEnd_clkEn, periphEnd_pinsAf, hframe]
      exact hup
    · show (periphEnd t).regs.fifo = []
      rw [hregs]
      exact hfifo
  have hcfg' : Configured (finish r { periphEnd t with window := none }) := by
    show dcrFsize (periphEnd t).regs.dcr = _ ∧ crSshift (periphEnd t).regs.cr = false ∧
      (periphEnd t).regs.cr &&& crMask = (periphEnd t).regs.cr
    rw [hregs]
    exact ⟨hsize, hsshift, hused⟩
  refine runInv_of_bus hbus' hcfg' rfl ?_ rfl (chipFits_memMapped hlife rfl hfits ?_)
  · show (periphEnd t).chip.prot = []
    rw [periphEnd_chip, hchip]
    exact hprot
  · show (periphEnd t).chip.pending = .none
    rw [periphEnd_chip, hpend]
    exact hp

/-- A window load that is served returns in MEMMAPPED; no other reaches the chip (41 R218). -/
theorem mmLoad_runInv {s : State} {a w : Word} (h : BlockInv s) (hs : s.seq = .idle)
    (hl : s.life = .memMapped) : StepKeeps (execMmLoad a w s) := by
  obtain ⟨-, hinv⟩ := id h
  refine .request hs (by rw [hl]; rfl) ?_
  split
  · exact .refused hinv hs .operand _ _
  · split
    · exact .refused hinv hs .misaligned _ _
    · split
      · exact .fault _
      · obtain ⟨hbus, hcfg⟩ := h.bus (by rw [hl]; decide)
        obtain ⟨-, hp, -⟩ := h.quiet hs
        obtain ⟨-, -, -, hprot, -⟩ := hinv
        have hfits : WindowFits
            { s with current := some (.mmLoad a w), window := some ⟨a, w.toNat⟩ } := h.windowFits hl
        cases ho : startWindow ⟨a, w.toNat⟩
            { s with current := some (.mmLoad a w), window := some ⟨a, w.toNat⟩ } with
        | fault f => exact .fault f
        | refused r => exact absurd ho (startWindow_not_refused hfits)
        | next t => exact .next (windowReturn_runInv hfits ho hbus hcfg hprot hp hl _)

theorem mmStore_runInv {s : State} {a w v : Word} (hs : s.seq = .idle) (hl : s.life = .memMapped) :
    StepKeeps (execMmStore a w v s) := by
  refine .request hs (by rw [hl]; rfl) ?_
  exact .fault _

theorem exec_keeps {s : State} (h : BlockInv s) (hs : s.seq = .idle) {i : Instr}
    (hi : ∀ c : BusCmd, i ≠ c.instr) : StepKeeps (exec i s) := by
  obtain ⟨-, hinv⟩ := id h
  obtain ⟨-, hp, -⟩ := h.quiet hs
  cases ha : admitted i s.life with
  | false =>
    rw [exec_not_admitted hi hs ha]
    exact .refused hinv hs .lifecycle _ _
  | true =>
    cases hl : s.life with
    | uninit =>
      rw [hl] at ha
      cases i with
      | busBringup p f cs ck => exact busBringup_keeps h hs hl
      | _ => cases ha
    | busReady =>
      rw [hl] at ha
      cases i with
      | init => exact init_keeps h hs hl
      | _ => cases ha
    | memMapped =>
      rw [hl] at ha
      cases i with
      | mmLoad a w => exact mmLoad_runInv h hs hl
      | mmStore a w v => exact mmStore_runInv hs hl
      | _ => cases ha
    | indirect =>
      have hwork := h.working hl
      rw [hl] at ha
      cases i with
      | intoMemoryMapped => exact intoMemoryMapped_keeps hwork hp hs
      | readBytes a n => exact readBytes_keeps hwork hp hs hinv a n
      | programPage a d => exact programPage_keeps hwork hp hs hinv a d
      | blockErase4k a => exact blockErase4k_keeps hwork hp hs hinv a
      | chipErase => exact chipErase_keeps hwork hp hs
      | readIds => exact readIds_keeps hwork hp hs
      | readStatusRegister1 =>
        exact oneTxn_keeps hs (by rw [hl]; rfl)
          (Working.rdsr1 (s := { s with current := some .readStatusRegister1 }) hwork hp)
      | readStatusRegister2 =>
        exact oneTxn_keeps hs (by rw [hl]; rfl)
          (Working.rdsr2 (s := { s with current := some .readStatusRegister2 }) hwork hp)
      | writeEnable =>
        exact oneTxn_keeps hs (by rw [hl]; rfl)
          (Working.wren (s := { s with current := some .writeEnable }) hwork hp)
      | writeDisable =>
        exact oneTxn_keeps hs (by rw [hl]; rfl)
          (Working.wren (s := { s with current := some .writeDisable }) hwork hp)
      | waitBusy =>
        exact .request hs (by rw [hl]; rfl)
          (Working.pollDone (s := { s with current := some .waitBusy }) hwork)
      | _ => cases ha

/-- A running poll's next read (40 R183, R188). -/
theorem pollStep_keeps {s : State} (h : BlockInv s) {w : PollCont} (hs : s.seq = .polling w) :
    StepKeeps (pollStep w s) := by
  cases w with
  | init =>
    obtain ⟨hl, hcur, hrun, hqe⟩ := h.initPoll hs
    obtain ⟨-, -, -, hwin, hprot, -⟩ := h
    exact initPoll_keeps ⟨hrun, hprot, hl, hwin, hcur, hqe⟩
  | program l =>
    obtain ⟨hl, hfits⟩ := h.programPoll hs
    exact (h.working hl).poll (w := .program l) hfits fun t => programChunks_keeps l hfits
  | done => exact (h.working (h.donePoll hs)).pollDone

theorem rejectRequest_runInv {s : State} (h : RunInv s) (hs : s.seq = .idle) (e : RequestError)
    (frame : List Byte) : StepKeeps (rejectRequest e frame s) := by
  cases e with
  | unknownOp => exact .refused h hs .unknownOp _ _
  | malformed => exact .refused h hs .malformed _ _

theorem step_runInv {s t : State} (h : BlockInv s) (ht : step s = .next t) : RunInv t := by
  cases hs : s.seq with
  | polling w =>
    simp only [step, hs] at ht
    exact pollStep_keeps h hs t ht
  | launch =>
    obtain ⟨-, -, -, -, -, -, -, hseq, -⟩ := h
    simp [seqFits, hs] at hseq
  | idle =>
    obtain ⟨hbusy, hp, -⟩ := h.quiet hs
    have taken : BlockInv (takeRequest s) := h
    simp only [step, hs, quiesce_idle hbusy hp] at ht
    split at ht
    · cases ht
      exact h.2
    · split at ht
      · rename_i hd
        exact exec_keeps taken hs (decode_request_not_bus hd) t ht
      · exact rejectRequest_runInv taken.2 hs _ _ t ht
      · rename_i hd
        exact absurd hd decode_request_error

/-- Settles O51: a step keeps the core invariant from any state, and the rest of the block invariant
by what it runs. -/
theorem blockInvariantIsKept : Obligations.BlockInvariantIsKept :=
  fun s t h ht => ⟨coreInvariantIsKept s t h.1 ht, step_runInv h ht⟩

end Sys2Proof.Machine
end

section
/-! PROOF. The late-sample erratum (40_encoder_and_pollers.md rule R177): what is sampled of a read with the
toggle wrongly set. -/

namespace Sys2Proof.Machine

/-- A draw of bit 7 leaves the other bits (40 R177). -/
theorem withBit_seven_low (b : Byte) (x : Bool) :
    (withBit b 7 x).extractLsb' 0 7 = b.extractLsb' 0 7 := by
  revert b x; decide

theorem withBit_seven (b : Byte) (x : Bool) : (withBit b 7 x).getLsbD 7 = x := by
  revert b x; decide

/-- The chip answered a read: the sampled bytes, and a draw for each it did not drive, enter the FIFO
(40 R171, R174, R177). -/
theorem receiveIndirect_read {c : BusCmd} (hc : c.descriptor.fmode = .indirectRead) (x : BusTxn) (n : Nat)
    (k : Chip) (bytes : List Byte) (s : State) :
    (receiveIndirect c x n k bytes s).chip = k ∧
      (receiveIndirect c x n k bytes s).regs.fifo =
        s.regs.fifo ++ (sampleIn c x.sshift s.draws (bytes ++ openBytes s.draws n bytes)).1 := by
  rw [receiveIndirect, if_pos hc]
  exact ⟨rfl, rfl⟩

/-- The start of a read takes no byte from the FIFO (40 R171). -/
theorem beginTxn_read_fifo {d : Descriptor} (hd : d.fmode = .indirectRead) (n : Nat) (s : State) :
    (beginTxn d n s).regs.fifo = s.regs.fifo := by
  simp [beginTxn, hd]

/-- A read that the chip answers in full: the sampled bytes stand alone in the FIFO. -/
theorem exec_read_fifo {c : BusCmd} {s : State} {k : Chip} {bytes : List Byte}
    (hc : c.descriptor.fmode = .indirectRead) (hbus : BusIdle s)
    (hchip : chipTake c (rawTxn c s) (dataLength c.descriptor s.regs.dlr) s.chip = .answer k bytes)
    (hlen : bytes.length = dataLength c.descriptor s.regs.dlr) :
    ∃ t, exec c.instr s = .next t ∧ t.chip = k ∧
      t.regs.fifo = (sampleIn c (crSshift s.regs.cr) s.draws bytes).1 := by
  obtain ⟨hup, hbusy, hfifo⟩ := hbus
  have hm : c ≠ .mmread := by rintro rfl; cases hc
  have hq : Queued c s := fun h => by cases hc.symm.trans h
  obtain ⟨hk, hgot⟩ := receiveIndirect_read hc (rawTxn c s) (dataLength c.descriptor s.regs.dlr) k bytes
    (beginTxn c.descriptor (dataLength c.descriptor s.regs.dlr) (writeCcr c.word s))
  rw [beginTxn_read_fifo hc, writeCcr_regs, hfifo, openBytes_full (Nat.le_of_eq hlen.symm),
    List.append_nil, List.nil_append] at hgot
  rw [exec_indirect hm, startIndirect_eq hup hbusy hq, hchip]
  exact ⟨_, rfl, hk, hgot⟩

/-- What is sampled with the toggle on of a read that is not of `LATE_SAMPLE_SET` (40 R177). -/
theorem sampleIn_toggled {c : BusCmd} (hc : lateSampled c = false) (d : Nat) (bytes : List Byte) :
    (sampleIn c true d bytes).1 = drawBytes d bytes.length := by
  simp [sampleIn, hc]

section
variable {s : State}

/-- `RDID` of two bytes at address 0 (43 R300). -/
theorem chipTake_rawRdid (h : ChipReady s.chip) (hd : s.regs.dlr = 1) (ha : s.regs.ar = 0) :
    chipTake .rdid (rawTxn .rdid s) (dataLength BusCmd.rdid.descriptor s.regs.dlr) s.chip =
      .answer { s.chip with vwe := false } [s.chip.mfrId, s.chip.devId] := by
  obtain ⟨hcrm, hpwr, hp⟩ := h
  have hrow : rowOperands .rdid s.regs = true := by rw [rowOperands, hd, ha]; rfl
  rw [chipTake_rule hcrm (rawTxn_instr ..) (rawTxn_shape ..) ((rowOperands_fit _ (by decide) _).trans hrow)
    (.inl hpwr) (.inl hp) (.inl (rawTxn_hasQuad ..)), hd]
  rfl

/-- `QREAD` inside the array (43 R306). -/
theorem chipTake_rawQread (h : ChipReady s.chip) (hqe : sr2Qe s.chip.sr2 = true)
    (ha : s.regs.ar.toNat + (s.regs.dlr.toNat + 1) ≤ Config.capacity) :
    ∃ bytes, bytes.length = dataLength BusCmd.qread.descriptor s.regs.dlr ∧
      chipTake .qread (rawTxn .qread s) (dataLength BusCmd.qread.descriptor s.regs.dlr) s.chip =
        .answer { s.chip with vwe := false } bytes := by
  obtain ⟨hcrm, hpwr, hp⟩ := h
  have h24 : s.regs.ar &&& 0x00FFFFFF = s.regs.ar :=
    lowBytes_three (by unfold Config.capacity at ha; omega)
  have haddr : (rawTxn .qread s).address = s.regs.ar.toNat := by
    rw [rawTxn_address (by decide), h24]
  refine ⟨s.chip.array.readRange s.regs.ar.toNat (s.regs.dlr.toNat + 1), Memory.readRange_length .., ?_⟩
  rw [chipTake_rule hcrm (rawTxn_instr ..) (rawTxn_shape ..) (rowOperands_fit _ (by decide) _)
    (.inl hpwr) (.inl hp) (.inr hqe), chipRule, chipQread, haddr]
  exact congrArg (afterRule .qread) (congrArg (ChipReply.answer s.chip) (arrayBytes_within ha))

/-- A status read of any length, by an awake chip (43 R296, R297; log 13). -/
theorem chipTake_rawStatus (h : ChipAwake s.chip) {c : BusCmd} (hc : c = .rdsr1 ∨ c = .rdsr2) :
    ∃ v, chipTake c (rawTxn c s) (dataLength c.descriptor s.regs.dlr) s.chip =
      .answer { s.chip with vwe := false } (List.replicate (s.regs.dlr.toNat + 1) v) := by
  obtain ⟨hcrm, hpwr⟩ := h
  rcases hc with rfl | rfl
  · rw [chipTake_rule hcrm (rawTxn_instr ..) (rawTxn_shape ..) (rowOperands_fit _ (by decide) _)
      (.inl hpwr) (.inr (.inl rfl)) (.inl (rawTxn_hasQuad ..))]
    exact ⟨s.chip.sr1, rfl⟩
  · rw [chipTake_rule hcrm (rawTxn_instr ..) (rawTxn_shape ..) (rowOperands_fit _ (by decide) _)
      (.inl hpwr) (.inr (.inr rfl)) (.inl (rawTxn_hasQuad ..))]
    exact ⟨s.chip.sr2, rfl⟩

end

/-- A status read with the toggle wrongly on (40 R177). -/
theorem exec_status_toggled {c : BusCmd} (hc : c = .rdsr1 ∨ c = .rdsr2) {s : State} (hbus : BusIdle s)
    (hk : ChipAwake s.chip) (hsshift : crSshift s.regs.cr = true) :
    ∃ t, exec c.instr s = .next t ∧ t.chip = { s.chip with vwe := false } ∧
      t.regs.fifo = drawBytes s.draws (s.regs.dlr.toNat + 1) := by
  obtain ⟨v, hchip⟩ := chipTake_rawStatus hk hc
  have hread : c.descriptor.fmode = .indirectRead := by rcases hc with rfl | rfl <;> rfl
  have hlen : dataLength c.descriptor s.regs.dlr = s.regs.dlr.toNat + 1 := by
    rcases hc with rfl | rfl <;> rfl
  have hlate : lateSampled c = false := by rcases hc with rfl | rfl <;> rfl
  obtain ⟨t, ht, htchip, hfifo⟩ := exec_read_fifo hread hbus hchip (by rw [hlen, List.length_replicate])
  rw [hsshift, sampleIn_toggled hlate, List.length_replicate] at hfifo
  exact ⟨t, ht, htchip, hfifo⟩

/-- Settles O24: the bytes the chip drives, and what the peripheral samples of them (`sampleIn`). -/
theorem lateSampleToggle : Obligations.LateSampleToggle := by
  refine ⟨fun s hbus hchip hsshift hd ha => ?_, fun s hbus hchip hsshift hqe ha => ?_,
    fun s i hbus hcrm hpwr hsshift hi => ?_⟩
  · obtain ⟨t, ht, -, hfifo⟩ := exec_read_fifo (c := .rdid) rfl hbus (chipTake_rawRdid hchip hd ha)
      (by rw [hd]; rfl)
    rw [hsshift] at hfifo
    exact ⟨t, _, ht, hfifo, withBit_seven_low _ _, withBit_seven _ _⟩
  · obtain ⟨bytes, hlen, hanswer⟩ := chipTake_rawQread hchip hqe ha
    obtain ⟨t, ht, htchip, hfifo⟩ := exec_read_fifo (c := .qread) rfl hbus hanswer hlen
    rw [hsshift, sampleIn_toggled rfl, hlen] at hfifo
    exact ⟨t, ht, htchip, hfifo⟩
  · rcases hi with rfl | rfl
    · exact exec_status_toggled (c := .rdsr1) (.inl rfl) hbus ⟨hcrm, hpwr⟩ hsshift
    · exact exec_status_toggled (c := .rdsr2) (.inr rfl) hbus ⟨hcrm, hpwr⟩ hsshift

end Sys2Proof.Machine
end

section
/-! PROOF. The operations of the lifecycle that run no transaction: `bus_bringup`, `into_memory_mapped` and
`mm_store` (41_lifecycle.md rules R210, R215, R219). -/

namespace Sys2Proof.Machine

/-- A return from a state whose sequencer is at rest adds the result and gives up the request (10 R37). -/
theorem finish_of_idle {s : State} (hs : s.seq = .idle) (r : OpResult) :
    finish r s = { s with results := s.results ++ [⟨s.current, r⟩], current := none } := by
  rw [finish, ← hs]

/-! ### `mm_store` -/

/-- Settles O35: in MEMMAPPED the request's body is the fault, and elsewhere its row of the admission table
refuses it (`exec_admission`). -/
theorem mmStoreFaults : Obligations.MmStoreFaults := by
  intro a w v s hs
  refine ⟨fun hl => ?_, fun hl => ?_⟩
  · rw [exec, execMmStore, request_admitted hs (by rw [hl]; rfl)]
    rfl
  · have hrow := exec_admission (i := .mmStore a w v) (l := .memMapped) (fun _ => rfl) hs
    rwa [if_neg hl] at hrow

/-! ### `into_memory_mapped` -/

/-- Settles O33: two register writes and the return, or the fault of a write while `SR.BUSY` = 1. -/
theorem intoMemoryMapped : Obligations.IntoMemoryMapped := by
  intro s hs hl
  rw [exec, execIntoMemoryMapped, request_indirect hs hl rfl]
  refine ⟨fun hb => ?_, fun hb => ?_⟩
  · rw [if_neg (by simp [hb]), finish_of_idle (by exact hs)]
    rfl
  · rw [if_pos hb]
    exact ⟨_, rfl, rfl, hl⟩

/-! ### `bus_bringup` -/

theorem bringupFits_iff (p f cs ck : Word) : bringupFits p f cs ck = true ↔
    p.toNat < 256 ∧ f.toNat < 32 ∧ cs.toNat < 8 ∧ ck.toNat < 2 := by
  simp [bringupFits, and_assoc]

/-- The fields of the `DCR` word that `bus_bringup` writes: `FSIZE`, `CSHT`, `CKMODE` (10 R42). -/
theorem bringupDcr_fields (x : BitVec 3) (y : BitVec 1) :
    bringupDcr (x.setWidth 32) (y.setWidth 32) &&& dcrMask =
      (0 : BitVec 11) ++ (22 : BitVec 5) ++ (0 : BitVec 5) ++ x ++ (0 : BitVec 7) ++ y := by
  revert x y; decide

/-- The OR of two words with the fields of `CR` is taken field by field. -/
theorem or_crFields (x x' : BitVec 8) (z z' : BitVec 11) (y y' : BitVec 5) (e e' : BitVec 8) :
    (x ++ z ++ y ++ e : Word) ||| (x' ++ z' ++ y' ++ e' : Word) =
      (x ||| x') ++ (z ||| z') ++ (y ||| y') ++ (e ||| e') := by
  rw [← BitVec.or_append, ← BitVec.or_append, ← BitVec.or_append]

/-- The fields of the `CR` word that `bus_bringup` writes: `PRESCALER`, `FTHRES`, `EN` (10 R41). -/
theorem bringupCr_fields (x : BitVec 8) (y : BitVec 5) :
    bringupCr (x.setWidth 32) (y.setWidth 32) = x ++ (0 : BitVec 11) ++ y ++ (0x01 : BitVec 8) := by
  have prescaler : ∀ q : BitVec 8, q.setWidth 32 <<< 24 =
      q ++ (0 : BitVec 11) ++ (0 : BitVec 5) ++ (0 : BitVec 8) := by decide
  have threshold : ∀ q : BitVec 5, q.setWidth 32 <<< 8 =
      (0 : BitVec 8) ++ (0 : BitVec 11) ++ q ++ (0 : BitVec 8) := by decide
  have enable : (0x1 : Word) =
      (0 : BitVec 8) ++ (0 : BitVec 11) ++ (0 : BitVec 5) ++ (0x01 : BitVec 8) := by decide
  rw [bringupCr, prescaler, threshold, enable, or_crFields, or_crFields]
  simp

section
variable {p f cs ck : Word} (h : bringupFits p f cs ck = true)
include h

theorem bringupDcr_eq : bringupDcr cs ck &&& dcrMask =
    (0 : BitVec 11) ++ (22 : BitVec 5) ++ (0 : BitVec 5) ++ cs.setWidth 3 ++ (0 : BitVec 7) ++
      ck.setWidth 1 := by
  obtain ⟨-, -, hcs, hck⟩ := (bringupFits_iff p f cs ck).1 h
  rw [← bringupDcr_fields, setWidth_of_lt (by decide) hcs, setWidth_of_lt (by decide) hck]

theorem bringupCr_eq : bringupCr p f &&& crMask =
    p.setWidth 8 ++ (0 : BitVec 11) ++ f.setWidth 5 ++ (0x01 : BitVec 8) := by
  obtain ⟨hp, hf, -⟩ := (bringupFits_iff p f cs ck).1 h
  rw [crUsed_not_reserved (bringupCr_used h), ← bringupCr_fields, setWidth_of_lt (by decide) hp,
    setWidth_of_lt (by decide) hf]

end

/-- Settles O29: the two control registers by their fields, or the operand check. -/
theorem busBringup : Obligations.BusBringup := by
  intro p f cs ck s hs hl
  rw [exec, execBusBringup, request_admitted hs (by rw [hl]; rfl)]
  split
  · rename_i hfits
    rw [← bringupFits_iff] at hfits
    rw [if_neg (by simp [hfits]), ← bringupDcr_eq hfits, ← bringupCr_eq hfits]
    exact congrArg Host.Outcome.next (finish_of_idle (by exact hs) _)
  · rename_i hfits
    rw [← bringupFits_iff] at hfits
    rw [if_pos (by simpa using hfits)]
    rfl

end Sys2Proof.Machine
end

section
/-! PROOF. `init` (41_lifecycle.md rules R212, R214): what it leaves when the status write completes before
its first poll, its faults on a chip that a reset left busy or in continuous-read mode, and what holds
when a step ends in INDIRECT. -/

namespace Sys2Proof.Machine

/-! ### `init` to its end -/

/-- The state after the status read that ends the poll of `init`, its write completed before (41 R212). -/
theorem initSent_polled {s : State} (hp : s.chip.pending = .none) {rest : List Bool}
    (hsch : s.schedule = true :: rest) :
    statusRead (completed (initSent s)) = { s with
      regs := { afterTxn 0x05000105 s.regs with dlr := 0 }
      chip := { s.chip with pwr := .active, sr1 := s.chip.sr1 &&& 0xFE, sr2 := 0x02, vwe := false }
      rx := [s.chip.sr1 &&& 0xFE]
      trace := s.trace ++ [bareTxn 0xAB false, bareTxn 0x50 false, wrsr2Txn 0x02 false,
        statusTxn 0x05 [s.chip.sr1 &&& 0xFE] false]
      delays := s.delays ++ [s.cfg.tWakeUs]
      schedule := rest
      chances := s.chances + 1
      current := some .init } := by
  have hchip : (completed (initSent s)).chip =
      { s.chip with pwr := .active, sr1 := s.chip.sr1 &&& 0xFE, sr2 := 0x02, vwe := false } :=
    initPolled_complete hp
  have htrace : (completed (initSent s)).trace =
      s.trace ++ [bareTxn 0xAB false, bareTxn 0x50 false, wrsr2Txn 0x02 false] := by
    simp only [completed, initSent, qeWriteSent, vwrenSent, delayWake, rdpdSent, List.append_assoc]
    rfl
  have hrest : (completed (initSent s)).schedule = rest := congrArg List.tail hsch
  rw [statusRead, hchip, htrace, ← hrest, List.append_assoc]
  rfl

/-- Settles O30: the three transactions, the completion step, and the one status read of the poll. -/
theorem initCompletes : Obligations.InitCompletes := by
  intro s rest hs hl hbus hcfg hcrm hp hsch
  have hcomp : chipChance (initSent s) = completed (initSent s) := chipChance_completes nofun hsch
  have hrun : Running (completed (initSent s)) := hcomp ▸ (initSent_running hbus hcfg hcrm).chance
  have hidle : (completed (initSent s)).chip.pending = .none := chipComplete_pending _
  rw [exec, execInit_eq hbus hcfg hcrm hs hl hp, hcomp, pollThen_eq hrun, if_pos hidle,
    initSent_polled hp hsch, finishInit, finish_of_idle (by exact hs)]

/-! ### Faults that the chip raises at a transaction of `Txn` -/

/-- In continuous-read mode an instruction phase is F_CRM, before every other check (43 R295 step 1). -/
theorem chipTake_crm {c : BusCmd} {x : BusTxn} {n : Nat} {k : Chip} (hcrm : k.crm = true)
    (hi : x.instr.isSome = true) : chipTake c x n k = .fault .crm := by
  rw [chipTake, if_pos hcrm, if_pos hi]

/-- A busy chip takes no command of a right shape but the status reads (43 R295 step 6). -/
theorem chipTake_chipBusy {c : BusCmd} {x : BusTxn} {n : Nat} {k : Chip} (hcrm : k.crm = false)
    (hi : x.instr.isSome = true) (hsh : x.shape = cmdShape c true) (hop : operandsFit c x n = true)
    (hpwr : k.pwr = .active) (hp : k.pending ≠ .none) (hc : c ≠ .rdsr1 ∧ c ≠ .rdsr2) :
    chipTake c x n k = .fault .chipBusy := by
  have hinstr : ¬ (x.instr.isNone = true) := by simpa [Option.isSome_iff_ne_none] using hi
  have hfits : ¬ ((! (decide (x.shape = cmdShape c true) && operandsFit c x n)) = true) := by
    simp [hsh, hop]
  have hawake : ¬ (k.pwr = .deepPd ∧ c ≠ .rdpd) := by simp [hpwr]
  rw [chipTake, if_neg (by simp [hcrm]), if_neg hinstr, if_neg hfits, if_neg hawake, if_pos ⟨hp, hc⟩]

/-- The register writes of a transaction change the registers alone (40 R170). -/
theorem stageTxn_frame (c : BusCmd) (x : TxnArgs) (s : State) :
    stageTxn c x s = { s with regs := { s.regs with
      dlr := (stageTxn c x s).regs.dlr, abr := (stageTxn c x s).regs.abr
      ccr := (stageTxn c x s).regs.ccr, ar := (stageTxn c x s).regs.ar
      fifo := (stageTxn c x s).regs.fifo, siooSent := (stageTxn c x s).regs.siooSent } } := by
  cases c <;> rfl

/-- A fault of the chip at a transaction of `Txn` ends the operation; it records the transaction's index
and leaves the chip as it was (60 R321, R325). -/
theorem txn_chipFault {c : BusCmd} {x : TxnArgs} {s : State} {f : FaultCode} (hc : c ≠ .mmread)
    (hbus : BusIdle s) (hq : Queued c (stageTxn c x s))
    (hchip : chipTake c (rawTxn c (stageTxn c x s)) (dataLength c.descriptor (stageTxn c x s).regs.dlr)
      s.chip = .fault f) :
    ∃ t, txn c x s = raiseFault f (some s.trace.length) t ∧ t.current = s.current ∧ t.chip = s.chip := by
  obtain ⟨hup, hbusy, -⟩ := hbus
  have hframe := stageTxn_frame c x s
  have hup' : busUp (stageTxn c x s) = true := by rw [hframe]; exact hup
  have hbusy' : (stageTxn c x s).regs.sr.busy = false := by rw [hframe]; exact hbusy
  have hk : (stageTxn c x s).chip = s.chip := by rw [hframe]
  have hexec : execBus c (stageTxn c x s) = startIndirect c (stageTxn c x s) := by
    cases c <;> first | rfl | exact absurd rfl hc
  rw [txn, if_neg (by simp [hup]), if_neg (by simp [hbusy]), hexec, startIndirect_eq hup' hbusy' hq, hk,
    hchip]
  have htrace : (stageTxn c x s).trace = s.trace := by rw [hframe]
  have hcur : (stageTxn c x s).current = s.current := by rw [hframe]
  rw [htrace]
  exact ⟨_, rfl, hcur, hk⟩

/-- A fault that the chip raises at `RDPD`, the first transaction of `init`, is the fault of `init`. -/
theorem init_chipFault {s : State} {f : FaultCode} (hs : s.seq = .idle) (hl : s.life = .busReady)
    (hbus : BusIdle s)
    (hchip : ∀ x : BusTxn, x.instr.isSome = true → x.shape = cmdShape .rdpd true →
      chipTake .rdpd x 0 s.chip = .fault f) :
    ∃ t, exec .init s = .fault (faultOf f t) ∧ t.request = some (.op .init) ∧
      t.txn = some s.trace.length ∧ t.state.chip = s.chip := by
  obtain ⟨t, ht, hcur, hk⟩ := txn_chipFault (c := .rdpd) (x := {}) (s := { s with current := some .init })
    (by decide) hbus (fun _ => Nat.zero_le _) (hchip _ (rawTxn_instr ..) (rawTxn_shape ..))
  rw [exec, execInit, request_admitted hs (by rw [hl]; rfl), txnBare, ht]
  exact ⟨_, rfl, congrArg (Option.map Request.op) hcur, rfl, hk⟩

/-- Settles O31: `init_chipFault` for the first check of the chip and for its busy check. -/
theorem initFaultsAfterABadLaunch : Obligations.InitFaultsAfterABadLaunch := by
  intro s hs hl hbus
  refine ⟨fun hcrm => ?_, fun hcrm hp hpwr => ?_⟩
  · exact init_chipFault hs hl hbus fun x hi _ => chipTake_crm hcrm hi
  · exact init_chipFault hs hl hbus fun x hi hsh =>
      chipTake_chipBusy hcrm hi hsh rfl hpwr hp (by decide)

/-! ### What a step of `init` leaves -/

/-- What a step in BUS_READY leaves of the chip's two write latches: WEL stays, and VWE is clear once the
block is in INDIRECT (41 R214). -/
structure InitLeaves (s t : State) : Prop where
  wel : sr1Wel t.chip.sr1 = sr1Wel s.chip.sr1
  vwe : t.life = .indirect → t.chip.vwe = false

/-- A step that leaves the chip as it was, and the block in BUS_READY. -/
theorem InitLeaves.of_busReady {s t : State} (hk : t.chip = s.chip) (hl : t.life = .busReady) :
    InitLeaves s t :=
  ⟨by rw [hk], fun hi => by cases hl.symm.trans hi⟩

theorem Reaches.initLeaves_of_wel {s s' : State} {o : Result}
    (hwel : sr1Wel s'.chip.sr1 = sr1Wel s.chip.sr1) (ho : Reaches InitLeaves s' o) :
    Reaches InitLeaves s o := by
  cases o with
  | next t => exact ⟨ho.wel.trans hwel, ho.vwe⟩
  | fault f => trivial
  | refused r => exact fun c x hx => ⟨(ho c x hx).wel.trans hwel, (ho c x hx).vwe⟩

/-- The completion of a volatile status write leaves WEL (43 R307). -/
theorem chipComplete_wel_volatile {k : Chip} {v : Byte} (h : k.pending = .wrsr2 v true) :
    sr1Wel (chipComplete k).sr1 = sr1Wel k.sr1 := by
  rw [chipComplete, h]
  exact sr1Wel_withBusy _ _

/-- CHIP's opportunity in `init` leaves WEL: only the volatile write of QE can be pending (41 R212). -/
theorem InitPolls.chance_wel {s : State} (h : InitPolls s) :
    sr1Wel (chipChance s).chip.sr1 = sr1Wel s.chip.sr1 := by
  rcases chipChance_chip s with hk | hk <;> rw [hk]
  rcases h.qe with hp | ⟨hp, -⟩
  · exact chipComplete_wel_volatile hp
  · rw [chipComplete_none hp]

/-- A read of the poll of `init`: it goes on in BUS_READY, or its last read has cleared VWE (43 R309). -/
theorem InitPolls.poll_leaves {s : State} (h : InitPolls s) :
    Reaches InitLeaves s (pollThen .init finishInit s) := by
  have hread : InitPolls (statusRead s) := ⟨h.running, h.prot, h.life, h.window, h.current, h.qe⟩
  rw [pollThen_eq h.running]
  split
  · exact InitLeaves.mk rfl fun _ => rfl
  · exact InitLeaves.mk hread.chance_wel fun hi => by cases hread.chance.life.symm.trans hi

theorem rejectRequest_busReady_leaves {s : State} (hl : s.life = .busReady) (e : RequestError)
    (frame : List Byte) : Reaches InitLeaves s (rejectRequest e frame s) := by
  cases e <;> (intro c x hx; cases hx; exact .of_busReady rfl hl)

section
variable {s : State} (h : BlockInv s) (hl : s.life = .busReady)
include h hl

/-- `init` before its poll has set no latch but WEL as it stood (41 R214). -/
theorem init_leaves (hs : s.seq = .idle) : Reaches InitLeaves s (execInit s) := by
  obtain ⟨hbus, hcfg⟩ := h.bus (by rw [hl]; decide)
  obtain ⟨-, hp, -⟩ := h.quiet hs
  have hcrm := h.busReady_crm hl
  obtain ⟨-, -, -, hwin, hprot, -⟩ := h
  have hpolls : InitPolls (initSent s) :=
    ⟨initSent_running hbus hcfg hcrm, hprot, hl, hwin, rfl, .inl rfl⟩
  have hwel : sr1Wel (chipChance (initSent s)).chip.sr1 = sr1Wel s.chip.sr1 :=
    hpolls.chance_wel.trans (sr1Wel_withBusy _ _)
  rw [execInit_eq hbus hcfg hcrm hs hl hp]
  exact hpolls.chance.poll_leaves.initLeaves_of_wel hwel

/-- In BUS_READY a request is `init`, or it is refused and changes nothing (10 R32). -/
theorem exec_busReady_leaves (hs : s.seq = .idle) {i : Instr} (hi : ∀ c : BusCmd, i ≠ c.instr) :
    Reaches InitLeaves s (exec i s) := by
  cases ha : admitted i s.life with
  | false =>
    rw [exec_not_admitted hi hs ha]
    intro c x hx
    cases hx
    exact .of_busReady rfl hl
  | true =>
    rw [hl] at ha
    cases i with
    | init => exact init_leaves h hl hs
    | _ => cases ha

/-- A step of a run in BUS_READY reads in the poll of `init`, or serves at most one request. -/
theorem step_busReady_leaves {t : State} (ht : step s = .next t) : InitLeaves s t := by
  have settled {o : Result} (ho : Reaches InitLeaves s o) (ht : settle o = .next t) :
      InitLeaves s t := settle_reaches ho (fun _ _ ⟨hwel, hvwe⟩ => ⟨hwel, hvwe⟩) ht
  cases hs : s.seq with
  | polling w =>
    simp only [step, hs] at ht
    cases w with
    | init =>
      obtain ⟨-, hcur, hrun, hqe⟩ := h.initPoll hs
      obtain ⟨-, -, -, hwin, hprot, -⟩ := h
      exact settled (InitPolls.poll_leaves ⟨hrun, hprot, hl, hwin, hcur, hqe⟩) ht
    | program l => cases hl.symm.trans (h.programPoll hs).1
    | done => cases hl.symm.trans (h.donePoll hs)
  | launch =>
    obtain ⟨-, -, -, -, -, -, -, hseq, -⟩ := h
    simp [seqFits, hs] at hseq
  | idle =>
    obtain ⟨hbusy, hp, -⟩ := h.quiet hs
    simp only [step, hs, quiesce_idle hbusy hp] at ht
    split at ht
    · cases ht
      exact .of_busReady rfl hl
    · have taken {o : Result} (ho : Reaches InitLeaves (takeRequest s) o) : Reaches InitLeaves s o :=
        .initLeaves_of_wel (s' := takeRequest s) rfl ho
      split at ht
      · rename_i hd
        exact settled (taken (exec_busReady_leaves (s := takeRequest s) h hl hs
          (decode_request_not_bus hd))) ht
      · exact settled (taken (rejectRequest_busReady_leaves (s := takeRequest s) hl _ _)) ht
      · rename_i hd
        exact absurd hd decode_request_error

end

/-- Settles O32: the latches by `step_busReady_leaves`; the rest is the block invariant in INDIRECT, reached
by an operation's return, which is quiet (`step_advances`). -/
theorem afterInit : Obligations.AfterInit := by
  intro s t h hl ht
  obtain ⟨hwel, hvwe⟩ := step_busReady_leaves h hl ht
  refine ⟨hwel, fun hi => ?_⟩
  obtain ⟨⟨-, ⟨-, hsshift, -⟩, ⟨-, hpwr⟩, -⟩, hqe, -⟩ := (blockInvariantIsKept s t h ht).indirect hi
  cases step_advances h ht with
  | goesOn _ hlife => cases (hl.symm.trans hlife.symm).trans hi
  | returns hr _ =>
    obtain ⟨hbusy, -, hidle⟩ := hr.quiet
    exact ⟨hpwr, hqe, hidle, hvwe hi, hsshift, hbusy⟩

end Sys2Proof.Machine
end

section
/-! PROOF. The window read (41_lifecycle.md rules R217, R218; 20_memory.md rules R95, R99): what it does when
the chip answers it, as `MMREAD` beside a CPU access and as `mm_load`. -/

namespace Sys2Proof.Machine

/-! ### The read of a window access -/

/-- The record of a window read that starts: the offset whole, and the mode byte (30 R138, 41 R215). -/
theorem buildTxn_mmread {a : Word} (ha : a.toNat < Config.capacity) (first sshift : Bool) :
    buildTxn BusCmd.mmread.descriptor a (Config.mmAlt.setWidth 32) first sshift [] =
      mmreadTxn first a [] sshift := by
  have hl : lowBytes 3 a = a := lowBytes_three (by unfold Config.capacity at ha; omega)
  calc buildTxn BusCmd.mmread.descriptor a (Config.mmAlt.setWidth 32) first sshift []
    _ = mmreadTxn first (lowBytes 3 a) [] sshift := by cases first <;> rfl
    _ = mmreadTxn first a [] sshift := by rw [hl]

/-- The chip answers a window read, with its instruction phase or as a continuation, and is then in
continuous-read mode (43 R295, R306; log 20). -/
theorem chipTake_mmread {k : Chip} (hk : k.crm = false →
      k.pwr = .active ∧ k.pending = .none ∧ sr2Qe k.sr2 = true) {a : Word} {n : Nat}
    (hn : n = 1 ∨ n = 2 ∨ n = 4) (ha : a.toNat + n ≤ Config.capacity) (sshift : Bool) :
    chipTake .mmread (mmreadTxn (! k.crm) a [] sshift) n k =
      .answer { k with crm := true, vwe := false } (k.array.readRange a.toNat n) := by
  cases hcrm : k.crm with
  | true =>
    have hcont : (mmreadTxn false a [] sshift).shape = cmdShape .mmread false ∧
        (mmreadTxn false a [] sshift).alternate = some (Config.mmAlt.setWidth 32) := ⟨rfl, rfl⟩
    have hinstr : ¬ (mmreadTxn false a [] sshift).instr.isSome = true := nofun
    rw [chipTake, if_pos hcrm, Bool.not_true, if_neg hinstr, chipContinuation, if_pos hcont, ← hcrm]
    exact congrArg (ChipReply.answer _) (arrayBytes_within ha)
  | false =>
    obtain ⟨hpwr, hp, hqe⟩ := hk hcrm
    have hfit : operandsFit .mmread (mmreadTxn true a [] sshift) n = true := by
      rcases hn with rfl | rfl | rfl <;> rfl
    have hshape : (mmreadTxn true a [] sshift).shape = cmdShape .mmread true := rfl
    rw [Bool.not_false, chipTake_rule hcrm rfl hshape hfit (.inl hpwr) (.inl hp) (.inr hqe)]
    exact congrArg (ChipReply.answer _) (arrayBytes_within ha)

/-- The state after a window read that the chip has answered, before PERIPH's step (41 R217). -/
def windowSent (acc : WindowAccess) (s : State) : State :=
  let bytes := s.chip.array.readRange acc.offset.toNat acc.width
  { s with
    regs := { s.regs with siooSent := true, sr := { s.regs.sr with busy := true } }
    chip := { s.chip with crm := true, vwe := false }
    rx := bytes
    windowTrace := s.windowTrace ++ [mmreadTxn (! s.regs.siooSent) acc.offset bytes false] }

/-- An access past `CAPACITY` is F_MM_RANGE, before every other check (20 R99). -/
theorem startWindow_range {acc : WindowAccess} (h : Config.capacity < acc.offset.toNat + acc.width)
    (s : State) : startWindow acc s = raiseFault .mmRange none s := by
  rw [startWindow, if_pos h]

/-- A window access inside the array is read (41 R217). -/
theorem startWindow_eq {acc : WindowAccess} {s : State} (hw : WindowReady s) (hk : WindowChip s)
    (hsshift : crSshift s.regs.cr = false)
    (hn : acc.width = 1 ∨ acc.width = 2 ∨ acc.width = 4)
    (ha : acc.offset.toNat + acc.width ≤ Config.capacity) :
    startWindow acc s = .next (windowSent acc s) := by
  obtain ⟨hup, hbusy, hccr, habr⟩ := hw
  obtain ⟨hcrm, hready⟩ := hk
  have htxn : buildTxn BusCmd.mmread.descriptor acc.offset s.regs.abr (! s.regs.siooSent)
      (crSshift s.regs.cr) [] = mmreadTxn (! s.regs.siooSent) acc.offset [] false := by
    rw [habr, hsshift, buildTxn_mmread (by omega)]
  have hchip := chipTake_mmread hready hn ha false
  rw [hcrm] at hchip
  simp only [startWindow, if_neg (Nat.not_lt.2 ha), hccr, descriptorRefusal_mmread, hup, hbusy, htxn, hchip,
    windowSent, Bool.not_true, Bool.false_eq_true, if_false, ne_eq, not_true_eq_false]
  rfl

/-! ### `MMREAD` -/

/-- With no access at the window only `CCR` is written (41 R215). -/
theorem execMmread_none {s : State} (hwin : s.window = none) (hbusy : s.regs.sr.busy = false) :
    execMmread s = .next (writeCcr BusCmd.mmread.word s) := by
  simp [execMmread, hwin, hbusy]

/-- With one, it is read, after the word has been written if it did not yet stand in `CCR` (41 R217). -/
theorem execMmread_some {s : State} {acc : WindowAccess} (hwin : s.window = some acc)
    (hbusy : s.regs.sr.busy = false) :
    execMmread s = startWindow acc
      (if s.regs.ccr = BusCmd.mmread.word then s else writeCcr BusCmd.mmread.word s) := by
  unfold execMmread
  split <;> rename_i h <;> cases hwin.symm.trans h
  rw [hbusy]
  split <;> rfl

/-- Settles O20: the write of `CCR`, the read of the access (`startWindow_eq`), and its range check. -/
theorem memoryMappedReadCommand : Obligations.MemoryMappedReadCommand := by
  refine ⟨fun s hwin hbusy => ?_, fun s acc hwin hw hk hsshift hn ha => ?_,
    fun s acc hwin hbusy hrange => ?_⟩
  · rw [exec, execMmread_none hwin hbusy]
    rfl
  · obtain ⟨-, hbusy, hccr, -⟩ := id hw
    rw [exec, execMmread_some hwin hbusy, if_pos hccr, startWindow_eq hw hk hsshift hn ha]
    rfl
  · rw [exec, execMmread_some hwin hbusy, startWindow_range hrange]
    split <;> exact ⟨_, rfl, rfl, rfl⟩

/-! ### `mm_load` -/

/-- The byte at the lowest address is the least significant of the value (20 R95). -/
theorem leValue_byte : ∀ (bytes : List Byte) (i : Nat), i < 4 →
    (leValue bytes).extractLsb' (8 * i) 8 = bytes.getD i 0
  | [], i, _ => by simp [leValue]
  | b :: bs, 0, _ => by
    refine BitVec.eq_of_getLsbD_eq fun j hj => ?_
    simp [leValue, hj]
    omega
  | b :: bs, i + 1, hi => by
    rw [List.getD_cons_succ, ← leValue_byte bs i (by omega)]
    refine BitVec.eq_of_getLsbD_eq fun j hj => ?_
    have hb : b.getLsbD (8 * (i + 1) + j) = false := BitVec.getLsbD_of_ge _ _ (by omega)
    have hsub : 8 * (i + 1) + j - 8 = 8 * i + j := by omega
    simp [leValue, hj, hb, hsub]
    omega

/-- The value of a load of `n` bytes has the array's bytes, and zero above them (41 R218). -/
theorem leValue_readRange (m : Memory) (a n : Nat) {i : Nat} (hi : i < 4) :
    (leValue (m.readRange a n)).extractLsb' (8 * i) 8 = if i < n then m.read (a + i) else 0 := by
  rw [leValue_byte _ _ hi, Memory.readRange]
  split <;> rename_i hn <;> simp [List.getD_eq_getElem?_getD, hn]

/-- The widths that `mm_load` admits (41 R218). -/
theorem loadWidth_iff (w : Word) : (w == 1 || w == 2 || w == 4) = true ↔
    w.toNat = 1 ∨ w.toNat = 2 ∨ w.toNat = 4 := by
  have value (n : Nat) (hn : n < 2 ^ 32) : w = BitVec.ofNat 32 n ↔ w.toNat = n := by
    rw [← BitVec.toNat_inj, BitVec.toNat_ofNat, Nat.mod_eq_of_lt hn]
  simp only [Bool.or_eq_true, beq_iff_eq, or_assoc]
  exact or_congr (value 1 (by decide)) (or_congr (value 2 (by decide)) (value 4 (by decide)))

/-- PERIPH ends a window read: `SR` is as it stood before it, `TCF` too (40 R172; log 26). -/
theorem periphEnd_windowSent {acc : WindowAccess} {s : State} (hccr : s.regs.ccr = BusCmd.mmread.word)
    (hbusy : s.regs.sr.busy = false) :
    periphEnd (windowSent acc s) =
      { windowSent acc s with regs := { s.regs with siooSent := true } } := by
  have hmapped : decide ((Descriptor.ofWord s.regs.ccr).fmode ≠ .memoryMapped) = false := by
    rw [hccr]; decide
  have hsr : { s.regs.sr with
      busy := false
      tcf := s.regs.sr.tcf || decide ((Descriptor.ofWord s.regs.ccr).fmode ≠ .memoryMapped) } =
      s.regs.sr := by
    rw [hmapped, Bool.or_false, ← hbusy]
  have hsent : (windowSent acc s).regs.sr.busy = true := rfl
  rw [periphEnd, if_pos hsent]
  exact congrArg (fun sr => { windowSent acc s with
    regs := { s.regs with siooSent := true, sr := sr } }) hsr

/-- In MEMMAPPED a load makes its checks in the order width, alignment, range, and then its read
(41 R218). -/
theorem exec_mmLoad {s : State} (hs : s.seq = .idle) (hl : s.life = .memMapped) (a w : Word) :
    exec (.mmLoad a w) s =
      if ¬ (w.toNat = 1 ∨ w.toNat = 2 ∨ w.toNat = 4) then refuseRequest .operand (.mmLoad a w) s
      else if a.toNat % w.toNat ≠ 0 then refuseRequest .misaligned (.mmLoad a w) s
      else if Config.capacity < a.toNat + w.toNat then faultRequest .mmRange (.mmLoad a w) s
      else
        andThen (startWindow ⟨a, w.toNat⟩
            { s with current := some (.mmLoad a w), window := some ⟨a, w.toNat⟩ }) fun t =>
          .next (finish (.word (leValue t.rx)) { periphEnd t with window := none }) := by
  rw [exec, execMmLoad, request_admitted hs (by rw [hl]; rfl)]
  refine if_congr ?_ rfl rfl
  rw [← loadWidth_iff, Bool.not_eq_true, Bool.not_eq_true']

/-- Settles O34: the three checks in order, and then the read of the access (`startWindow_eq`), which PERIPH
ends and whose bytes are the value's (`leValue_readRange`). -/
theorem mmLoad : Obligations.MmLoad := by
  intro a w s hs hl hw hk hsshift
  rw [exec_mmLoad hs hl]
  split
  · rfl
  rename_i hwidth
  split
  · rfl
  unfold Config.capacity
  split
  · rfl
  rename_i hrange
  obtain ⟨-, hbusy, hccr, -⟩ := id hw
  have hread := startWindow_eq (acc := ⟨a, w.toNat⟩)
    (s := { s with current := some (.mmLoad a w), window := some ⟨a, w.toNat⟩ }) hw hk hsshift
    (not_not.1 hwidth) (Nat.not_lt.1 hrange)
  refine ⟨leValue (s.chip.array.readRange a.toNat w.toNat), fun i => leValue_readRange _ _ _, ?_⟩
  rw [hread, andThen_next, periphEnd_windowSent (by exact hccr) (by exact hbusy),
    finish_of_idle (by exact hs)]
  rfl

end Sys2Proof.Machine
end

section
/-! PROOF. The operations that read, program and erase the array: their range checks, `read_bytes`, and the
chunks of `program_page` (42_array_operations.md rules R240 to R249). -/

namespace Sys2Proof.Machine

/-! ### The length and range checks, and `read_bytes` -/

/-- The range check of an operation that takes a flash address (42 R241). -/
theorem outOfRange_iff (a : Word) (m : Nat) : outOfRange a m = true ↔ 8388608 < a.toNat + m :=
  decide_eq_true_iff

/-- Settles O37: each check is the first thing that the body of its request does. -/
theorem rangeChecks : Obligations.RangeChecks := by
  intro s hs hl
  refine ⟨fun a => ?_, fun a n hn hrange => ?_, fun a data hrange => ?_, fun a hrange => ?_⟩
  · rw [exec, execReadBytes, request_indirect hs hl rfl, if_pos rfl]
    rfl
  · rw [exec, execReadBytes, request_indirect hs hl rfl, if_neg (by omega),
      if_pos ((outOfRange_iff ..).2 hrange)]
    rfl
  · rw [exec, execProgramPage, request_indirect hs hl rfl, if_pos ((outOfRange_iff ..).2 hrange)]
    rfl
  · rw [exec, execBlockErase4k, request_indirect hs hl rfl, if_pos ((outOfRange_iff ..).2 hrange)]
    rfl

/-- Settles O36: the range check passes, and the one transaction is `txn_qread`. -/
theorem readBytes : Obligations.ReadBytes := by
  intro a n s ⟨hs, hl, hbus, hchip, hcfg⟩ hqe hn ha
  have hrange : ¬ outOfRange a n = true := by
    rw [outOfRange_iff]
    omega
  have hread := txn_qread (s := { s with current := some (.readBytes a n) }) hbus hcfg hchip hqe hn ha
  rw [exec, execReadBytes, request_indirect hs hl rfl, if_neg (by omega), if_neg hrange, hread,
    andThen_next, finish_of_idle (by exact hs)]
  rfl

/-! ### The chunk list -/

/-- A chunk list of the data from an address on, as the loop of `program_page` cuts it: no chunk is empty
or leaves its page, and each but the last ends its page (42 R245, R246). -/
inductive Chunked : Nat → List Byte → List (Nat × List Byte) → Prop
  | nil (a : Nat) : Chunked a [] []
  | cons {a : Nat} {d rest : List Byte} {cs : List (Nat × List Byte)} (pos : 1 ≤ d.length)
      (page : a % 256 + d.length ≤ 256) (full : 1 ≤ rest.length → (a + d.length) % 256 = 0)
      (tail : Chunked (a + d.length) rest cs) : Chunked a (d ++ rest) ((a, d) :: cs)

theorem chunkLoop_chunked :
    ∀ (fuel a : Nat) (data : List Byte) (chunk : Nat), data.length ≤ fuel →
      (data.length ≠ 0 → 1 ≤ chunk ∧ chunk ≤ data.length ∧ a % 256 + chunk ≤ 256 ∧
        (chunk < data.length → (a + chunk) % 256 = 0)) →
      Chunked a data (chunkLoop fuel a data chunk)
  | 0, a, data, _, hfuel, _ => by
    rw [List.eq_nil_of_length_eq_zero (Nat.le_zero.1 hfuel)]
    exact .nil a
  | fuel + 1, a, data, chunk, hfuel, hchunk => by
    unfold chunkLoop
    split
    · rename_i hd
      rw [List.eq_nil_of_length_eq_zero hd]
      exact .nil a
    · rename_i hd
      obtain ⟨hpos, hle, hpage, hfull⟩ := hchunk hd
      have htake : (data.take chunk).length = chunk := List.length_take_of_le hle
      have hdrop : (data.drop chunk).length = data.length - chunk := List.length_drop
      have htail : Chunked (a + chunk) (data.drop chunk)
          (chunkLoop fuel (a + chunk) (data.drop chunk) (min Config.pageSize (data.drop chunk).length)) :=
        chunkLoop_chunked fuel _ _ _ (by omega) (by unfold Config.pageSize; omega)
      have hcut := Chunked.cons (a := a) (d := data.take chunk) (rest := data.drop chunk) (by omega)
        (by omega) (by rw [htake]; omega) (by rwa [htake])
      rwa [List.take_append_drop] at hcut

theorem pageChunks_chunked (a : Nat) (data : List Byte) : Chunked a data (pageChunks a data) := by
  refine chunkLoop_chunked _ _ _ _ (Nat.le_refl _) fun hd => ?_
  unfold Config.pageSize
  omega

namespace Chunked

variable {a : Nat} {data : List Byte} {cs : List (Nat × List Byte)}

/-- The chunks are the data, cut (42 R246). -/
theorem flatMap (h : Chunked a data cs) : cs.flatMap (fun c => c.2) = data := by
  induction h with
  | nil => rfl
  | cons _ _ _ _ ih => rw [List.flatMap_cons, ih]

theorem head (h : Chunked a data cs) : ∀ c, cs.head? = some c → c.1 = a := by
  cases h <;> simp

/-- Each chunk begins where the one before it ends (42 R246). -/
theorem contiguous (h : Chunked a data cs) :
    ∀ (i : Nat) (c d : Nat × List Byte), cs[i]? = some c → cs[i + 1]? = some d →
      d.1 = c.1 + c.2.length := by
  induction h with
  | nil => nofun
  | cons _ _ _ tail ih =>
    rintro (_ | i) c d hc hd
    · cases hc
      exact tail.head d (List.head?_eq_getElem?.trans hd)
    · exact ih i c d hc hd

/-- A chunk is 1 to 256 bytes of the data, inside one page (42 R246). -/
theorem mem (h : Chunked a data cs) : ∀ c ∈ cs, 1 ≤ c.2.length ∧ c.2.length ≤ 256 ∧
    c.1 / 256 = (c.1 + c.2.length - 1) / 256 ∧ a ≤ c.1 ∧
    c.2 = (data.drop (c.1 - a)).take c.2.length := by
  induction h with
  | nil => nofun
  | @cons a d rest cs pos page _ _ ih =>
    rintro c (_ | ⟨_, hc⟩)
    · refine ⟨pos, by dsimp only; omega, by dsimp only; omega, Nat.le_refl a, ?_⟩
      simp
    · obtain ⟨hpos, hle, hpage, hge, hslice⟩ := ih c hc
      refine ⟨hpos, hle, hpage, by omega, ?_⟩
      have hskip : c.1 - a = d.length + (c.1 - (a + d.length)) := by omega
      rw [hskip, List.drop_length_add_append]
      exact hslice

/-- The number of chunks is the number of pages that the data touches (42 R246). -/
theorem length (h : Chunked a data cs) :
    cs.length = if data = [] then 0 else (a + data.length - 1) / 256 - a / 256 + 1 := by
  induction h with
  | nil => rfl
  | @cons a d rest cs pos page full _ ih =>
    have hne : d ++ rest ≠ [] := by
      rw [← List.length_pos_iff, List.length_append]
      omega
    rw [if_neg hne, List.length_cons, ih, List.length_append]
    split
    · rename_i hrest
      rw [hrest, List.length_nil]
      omega
    · rename_i hrest
      have hrest := List.length_pos_iff.2 hrest
      have hfull := full hrest
      omega

end Chunked

/-- Settles O38: the facts about `Chunked`, of which `pageChunks` is a case. -/
theorem pageChunksCoverTheData : Obligations.PageChunksCoverTheData := by
  intro a data cs
  have h : Chunked a data cs := pageChunks_chunked a data
  exact ⟨h.flatMap, h.head, h.contiguous, h.mem, h.length⟩

/-! ### Programs and erases that complete before their polls -/

/-- A program or an erase that has started and completed leaves BUSY and WEL clear (43 R307). -/
theorem sr1_completed (v : Byte) :
    sr1WithBusy (sr1WithWel (sr1WithBusy v true) false) false = v &&& 0xFC := by
  revert v; decide

theorem withWel_and_FC (v : Byte) (b : Bool) : sr1WithWel v b &&& 0xFC = v &&& 0xFC := by
  revert v b; decide

theorem and_FC_and_FC (v : Byte) : v &&& 0xFC &&& 0xFC = v &&& 0xFC := by
  revert v; decide

/-- The state once `n` programs or erases have each completed before their one status read: the array they
leave, the address of the last in `AR`, and their transactions in the trace. -/
def arrayOpsDone (ar : Word) (m : Memory) (xs : List BusTxn) (n : Nat) (s : State) : State :=
  { s with
    regs := { afterTxn 0x05000105 s.regs with dlr := 0, ar := ar }
    chip := { s.chip with array := m, sr1 := s.chip.sr1 &&& 0xFC, vwe := false }
    rx := [s.chip.sr1 &&& 0xFC]
    trace := s.trace ++ xs
    schedule := s.schedule.drop n
    chances := s.chances + n }

section
variable (ar : Word) (m : Memory) (xs : List BusTxn) (n : Nat) (s : State)

/-- Operations after others: the array is what the last ones leave. -/
theorem arrayOpsDone_arrayOpsDone (ar' : Word) (m' : Memory) (ys : List BusTxn) (k : Nat) :
    arrayOpsDone ar m xs n (arrayOpsDone ar' m' ys k s) = arrayOpsDone ar m (ys ++ xs) (k + n) s := by
  simp only [arrayOpsDone, and_FC_and_FC, List.append_assoc, List.drop_drop, Nat.add_assoc]
  rfl

/-- Operations after a write-enable, which leaves only its record: WEL is clear again (43 R298, R307). -/
theorem arrayOpsDone_wrenSent :
    arrayOpsDone ar m xs n (wrenSent s) = arrayOpsDone ar m (bareTxn 0x06 false :: xs) n s := by
  simp only [arrayOpsDone, wrenSent, withWel_and_FC, List.append_assoc]
  rfl

end

/-- One program or erase, completed before its status read (43 R307). -/
theorem opPolled_eq {ccr dlr ar : Word} {p : Pending} {x : BusTxn} {s : State}
    (hidle : s.chip.pending = .none) (hp : p ≠ .none) (hw : ∀ v b, p ≠ .wrsr2 v b) :
    opPolled ccr dlr ar p x s = arrayOpsDone ar (opPolled ccr dlr ar p x s).chip.array
      [x, statusTxn 0x05 [s.chip.sr1 &&& 0xFC] false] 1 s := by
  rw [arrayOpsDone, List.append_cons]
  simp only [hidle, ← sr1_completed, List.drop_one]
  cases p with
  | none => exact absurd rfl hp
  | wrsr2 v b => exact absurd rfl (hw v b)
  | program a d => rfl
  | erase a n => rfl

/-! ### `program_page` to its end -/

theorem chunkPolled_eq {s : State} (hidle : s.chip.pending = .none) (c : Nat × List Byte) :
    chunkPolled s c = arrayOpsDone (BitVec.ofNat 32 c.1) (s.chip.array.program c.1 c.2)
      (chunkTrace (s.chip.sr1 &&& 0xFC) [c]) 1 s := by
  have hsr1 : (wrenSent s).chip.sr1 &&& 0xFC = s.chip.sr1 &&& 0xFC := withWel_and_FC _ _
  rw [chunkPolled, opPolled_eq (p := .program c.1 c.2) (s := wrenSent s) hidle nofun nofun,
    arrayOpsDone_wrenSent, hsr1]
  rfl

/-- The chunks, one after another, each completed before its poll (42 R245). -/
theorem foldl_chunkPolled_eq (c : Nat × List Byte) (cs : List (Nat × List Byte)) {s : State}
    (hidle : s.chip.pending = .none) :
    ∃ ar, (c :: cs).foldl chunkPolled s =
      arrayOpsDone ar ((c :: cs).foldl (fun m c => m.program c.1 c.2) s.chip.array)
        (chunkTrace (s.chip.sr1 &&& 0xFC) (c :: cs)) (c :: cs).length s := by
  induction cs generalizing c s with
  | nil => exact ⟨_, chunkPolled_eq hidle c⟩
  | cons d cs ih =>
    have hfirst := chunkPolled_eq hidle c
    have hsr1 : (chunkPolled s c).chip.sr1 &&& 0xFC = s.chip.sr1 &&& 0xFC := by
      rw [hfirst]
      exact and_FC_and_FC _
    obtain ⟨ar, har⟩ := ih d (s := chunkPolled s c) (chipComplete_pending _)
    rw [hsr1, chunkPolled_array, hfirst, arrayOpsDone_arrayOpsDone, Nat.add_comm 1] at har
    refine ⟨ar, ?_⟩
    rw [List.foldl_cons, hfirst, har]
    rfl

/-- The range of `program_page` reads ANDed with the data, as the statements write it (42 R249). -/
theorem read_program_getD {m : Memory} (hm : m.wf = true) {a : Nat} {data : List Byte}
    (ha : a + data.length ≤ Config.capacity) (x : Nat) :
    (m.program a data).read x =
      if a ≤ x ∧ x < a + data.length then m.read x &&& data.getD (x - a) 0 else m.read x := by
  rw [Memory.read_program data x hm ha]
  split
  · rename_i hx
    have hlt : x - a < data.length := by omega
    simp [List.getD_eq_getElem?_getD, hlt]
  · rfl

/-- Settles O39: with data, the chunks of `programChunks_eq` and what they leave together
(`foldl_chunkPolled_eq`); without, no chunk. -/
theorem programPageCompletes : Obligations.ProgramPageCompletes := by
  intro a data s rest ⟨hs, hl, hbus, hchip, hcfg⟩ hqe hprot hwf ha hsch
  have hready : ArrayReady { s with current := some (.programPage a data) } :=
    ⟨hbus, hcfg, hchip, hqe, hprot⟩
  obtain ⟨-, -, hpend⟩ := hchip
  have hflat := (pageChunks_chunked a.toNat data).flatMap
  have harray := pageChunks_program a.toNat data s.chip.array
  have hread := read_program_getD hwf ha
  have hexec := (exec_programPage_eq hs hl ha).trans
    (programChunks_eq _ (pageChunks_fits ha) hready hsch)
  cases hcs : pageChunks a.toNat data with
  | nil =>
    rw [hcs] at hflat harray hexec hsch
    have hdata : data = [] := hflat.symm
    rw [← harray] at hread
    refine ⟨_, hexec, hread, (List.append_nil _).symm, fun hne => absurd hdata hne,
      fun _ => ⟨rfl, rfl⟩, ?_⟩
    rw [finish_of_idle (by exact hs), ← show s.schedule = rest from hsch]
    rfl
  | cons c l =>
    rw [hcs] at hflat harray hexec hsch
    have hdata : data ≠ [] := by
      rintro rfl
      cases hcs
    have hdrop : s.schedule.drop (c :: l).length = rest := by
      rw [hsch, List.drop_left' List.length_replicate]
    obtain ⟨ar, har⟩ := foldl_chunkPolled_eq c l (s := { s with current := some (.programPage a data) })
      hpend
    rw [har] at hexec
    rw [← harray] at hread
    refine ⟨_, hexec, hread, rfl, fun _ => ⟨rfl, rfl, rfl, rfl, rfl⟩,
      fun hnil => absurd hnil hdata, ?_⟩
    rw [finish_of_idle (by exact hs), ← hdrop]
    rfl

end Sys2Proof.Machine
end

section
/-! PROOF. The erases of the array: to their end, at a chip that stays busy, and without a write-enable
(42_array_operations.md rules R250 to R255). -/

namespace Sys2Proof.Machine

/-! ### The parts of an erase -/

/-- An erase can issue its commands: the bus is idle, and the chip is ready and unprotected (43 R295). -/
abbrev EraseReady (s : State) : Prop :=
  BusIdle s ∧ Configured s ∧ ChipReady s.chip ∧ s.chip.prot = []

/-- An erase operation after its range check: its write-enable, its command and its poll (42 R250, R253). -/
def eraseThenPoll (erase : State → Result) (s : State) : Result :=
  andThen (eraseWren s) fun t => andThen (erase t) pollDone

/-- The state after an erase's own write-enable, if it has one (42 R255). -/
def eraseEnabled (s : State) : State := if s.cfg.eraseWren then wrenSent s else s

theorem eraseThenPoll_eq {erase : State → Result} {s : State} (h : EraseReady s) :
    eraseThenPoll erase s = andThen (erase (eraseEnabled s)) pollDone := by
  obtain ⟨hbus, hcfg, hchip, -⟩ := h
  rw [eraseThenPoll, eraseWren, eraseEnabled]
  split
  · rw [txnBare_wren hbus hcfg hchip]
    rfl
  · rfl

theorem eraseEnabled_ready {s : State} (h : EraseReady s) : EraseReady (eraseEnabled s) := by
  unfold eraseEnabled
  split <;> exact h

/-- An erase that sends a write-enable, or finds WEL set, sends its command with WEL set (43 R302, R303). -/
theorem eraseEnabled_wel {s : State} (h : s.cfg.eraseWren = true ∨ sr1Wel s.chip.sr1 = true) :
    sr1Wel (eraseEnabled s).chip.sr1 = true := by
  unfold eraseEnabled
  split
  · exact wrenSent_wel s
  · rename_i hw
    exact h.resolve_left hw

theorem exec_blockErase4k_eq {s : State} (hs : s.seq = .idle) (hl : s.life = .indirect) {a : Word}
    (ha : a.toNat < 8388608) :
    exec (.blockErase4k a) s =
      eraseThenPoll (txn .se4k { addr := a.setWidth 24 })
        { s with current := some (.blockErase4k a) } := by
  have hrange : ¬ outOfRange a 1 = true := by
    rw [outOfRange_iff]
    omega
  rw [exec, execBlockErase4k, request_indirect hs hl rfl, if_neg hrange]
  rfl

theorem exec_chipErase_eq {s : State} (hs : s.seq = .idle) (hl : s.life = .indirect) :
    exec .chipErase s = eraseThenPoll (txnBare .ce) { s with current := some .chipErase } := by
  rw [exec, execChipErase, request_indirect hs hl rfl]
  rfl

/-- A command with WEL set has started the erase of `n` bytes from `b`, with CHIP's opportunity next: what
`SE4K` and `CE` have in common (43 R302, R303). -/
def Erases (erase : State → Result) (ccr dlr ar : Word) (b n : Nat) (x : BusTxn) (s : State) : Prop :=
  erase s = .next (chipChance (opStarted ccr dlr ar (.erase b n) x s))

theorem erases_se4k {s : State} (h : EraseReady s) (hw : sr1Wel s.chip.sr1 = true) {a : Word}
    (ha : a.toNat < 8388608) :
    Erases (txn .se4k { addr := a.setWidth 24 }) 0x00002520 s.regs.dlr a (blockBase a.toNat) 4096
      (se4kTxn a false) s := by
  obtain ⟨hbus, hcfg, hchip, hprot⟩ := h
  exact txn_se4k hbus hcfg hchip hw hprot ha

theorem erases_ce {s : State} (h : EraseReady s) (hw : sr1Wel s.chip.sr1 = true) :
    Erases (txnBare .ce) 0x000001C7 s.regs.dlr s.regs.ar 0 8388608 (bareTxn 0xC7 false) s := by
  obtain ⟨hbus, hcfg, hchip, hprot⟩ := h
  exact txnBare_ce hbus hcfg hchip hw hprot

theorem EraseReady.started_running {s : State} (h : EraseReady s) (ccr dlr ar : Word) (b n : Nat)
    (x : BusTxn) : Running (opStarted ccr dlr ar (.erase b n) x s) := by
  obtain ⟨hbus, hcfg, ⟨hcrm, hpwr, -⟩, -⟩ := h
  exact ⟨hbus, hcfg, ⟨hcrm, hpwr⟩, sr1Busy_withBusy _ _⟩

/-! ### An erase that completes before its poll -/

/-- The record of an erase's write-enable stands before that of its command (42 R255). -/
theorem arrayOpsDone_eraseEnabled (ar : Word) (m : Memory) (xs : List BusTxn) (n : Nat) (s : State) :
    arrayOpsDone ar m xs n (eraseEnabled s) =
      arrayOpsDone ar m (eraseWrenTrace s.cfg ++ xs) n s := by
  unfold eraseEnabled eraseWrenTrace
  split
  · exact arrayOpsDone_wrenSent ..
  · rfl

theorem eraseEnabled_sr1 (s : State) : (eraseEnabled s).chip.sr1 &&& 0xFC = s.chip.sr1 &&& 0xFC := by
  unfold eraseEnabled
  split
  · exact withWel_and_FC _ _
  · rfl

/-- An erase's write-enable leaves the array, `AR` and the schedule (42 R255). -/
theorem eraseEnabled_keeps (s : State) :
    (eraseEnabled s).chip.array = s.chip.array ∧ (eraseEnabled s).regs.ar = s.regs.ar ∧
      (eraseEnabled s).schedule = s.schedule := by
  unfold eraseEnabled
  split <;> exact ⟨rfl, rfl, rfl⟩

theorem pollDone_completed {ccr dlr ar : Word} {b n : Nat} {x : BusTxn} {s : State}
    {rest : List Bool} (h : EraseReady s) (hs : s.schedule = true :: rest) :
    pollDone (chipChance (opStarted ccr dlr ar (.erase b n) x s)) =
      .next (finish .unit (opPolled ccr dlr ar (.erase b n) x s)) := by
  have hdone : chipChance (opStarted ccr dlr ar (.erase b n) x s) =
      completed (opStarted ccr dlr ar (.erase b n) x s) := chipChance_completes nofun hs
  have hrun := (h.started_running ccr dlr ar b n x).chance
  rw [hdone] at hrun
  rw [hdone, pollDone, pollThen_eq hrun]
  exact if_pos (chipComplete_pending _)

/-- The erase returns after its one status read, with its range erased (42 R250, R251, R253). -/
theorem eraseThenPoll_completes {erase : State → Result} {ccr dlr ar : Word} {b n : Nat} {x : BusTxn}
    {s : State} {rest : List Bool} (h : EraseReady s) (hs : s.schedule = true :: rest)
    (he : Erases erase ccr dlr ar b n x (eraseEnabled s)) :
    eraseThenPoll erase s = .next (finish .unit (arrayOpsDone ar (s.chip.array.erase b n)
      (eraseWrenTrace s.cfg ++ [x, statusTxn 0x05 [s.chip.sr1 &&& 0xFC] false]) 1 s)) := by
  have hready := eraseEnabled_ready h
  obtain ⟨-, -, ⟨-, -, hidle⟩, -⟩ := id hready
  obtain ⟨harray, -, hsch⟩ := eraseEnabled_keeps s
  rw [eraseThenPoll_eq h, he, andThen_next, pollDone_completed hready (hsch.trans hs),
    opPolled_eq (p := .erase b n) hidle nofun nofun, opPolled_erase, harray,
    arrayOpsDone_eraseEnabled, eraseEnabled_sr1]

/-- Settles O40: the write-enable, `txn_se4k` and the completed poll, and the erased block of the array. -/
theorem blockErase4kCompletes : Obligations.BlockErase4kCompletes := by
  intro a s rest ⟨hs, hl, hbus, hchip, hcfg⟩ hprot hw ha hsch
  have h : EraseReady { s with current := some (.blockErase4k a) } := ⟨hbus, hcfg, hchip, hprot⟩
  have he := erases_se4k (eraseEnabled_ready h) (eraseEnabled_wel hw) ha
  refine ⟨s.chip.array.erase (blockBase a.toNat) 4096, fun x => ?_, ?_⟩
  · rw [Memory.read_erase]
    refine if_congr ?_ rfl rfl
    unfold blockBase Config.eraseBlock
    omega
  · rw [exec_blockErase4k_eq hs hl ha, eraseThenPoll_completes h hsch he, finish_of_idle (by exact hs),
      ← show s.schedule.drop 1 = rest by rw [hsch]; rfl, List.append_assoc]
    rfl

/-- Settles O41: the same with `txnBare_ce`, and the whole array erased. -/
theorem chipEraseCompletes : Obligations.ChipEraseCompletes := by
  intro s rest ⟨hs, hl, hbus, hchip, hcfg⟩ hprot hw hsch
  have h : EraseReady { s with current := some .chipErase } := ⟨hbus, hcfg, hchip, hprot⟩
  have he := erases_ce (eraseEnabled_ready h) (eraseEnabled_wel hw)
  obtain ⟨-, har, -⟩ := eraseEnabled_keeps { s with current := some .chipErase }
  rw [har] at he
  refine ⟨s.chip.array.erase 0 8388608, fun x hx => ?_, fun x hx => ?_, ?_⟩
  · rw [Memory.read_erase, if_pos (by omega)]
    rfl
  · rw [Memory.read_erase, if_neg (by omega)]
  · rw [exec_chipErase_eq hs hl, eraseThenPoll_completes h hsch he, finish_of_idle (by exact hs),
      ← show s.schedule.drop 1 = rest by rw [hsch]; rfl, List.append_assoc]
    rfl

/-! ### An erase at a chip that stays busy -/

/-- The erase's command has ended at the peripheral while the chip is still busy, and SEQ polls
(42 R252, 10 R72, 40 R182). -/
def PollsBusy (s t : State) (b n : Nat) (x : BusTxn) : Prop :=
  t.seq = .polling .done ∧ t.regs.sr.busy = false ∧ sr1Busy t.chip.sr1 = true ∧
    t.chip.array = s.chip.array ∧ t.chip.pending = .erase b n ∧ t.results = s.results ∧
    t.trace = s.trace ++ [bareTxn 0x06 false, x, statusTxn 0x05 [s.chip.sr1 ||| 0x03] false]

theorem eraseThenPoll_busy {erase : State → Result} {ccr dlr ar : Word} {b n : Nat} {x : BusTxn}
    {s : State} {rest : List Bool} (h : EraseReady s) (hw : s.cfg.eraseWren = true)
    (hs : s.schedule = false :: false :: rest)
    (he : Erases erase ccr dlr ar b n x (eraseEnabled s)) :
    ∃ t, eraseThenPoll erase s = .next t ∧ PollsBusy s t b n x := by
  have henabled : eraseEnabled s = wrenSent s := if_pos hw
  rw [henabled] at he
  have hrun := EraseReady.started_running (s := wrenSent s) h ccr dlr ar b n x
  have hsr1 : (opStarted ccr dlr ar (.erase b n) x (wrenSent s)).chip.sr1 = s.chip.sr1 ||| 0x03 :=
    sr1WithBusy_withWel_true _
  obtain ⟨⟨-, hbusy, -⟩, -⟩ := id h
  rw [eraseThenPoll_eq h, henabled, he, andThen_next, pollDone, pollThen_busy hrun nofun hs]
  refine ⟨_, rfl, rfl, hbusy, sr1Busy_withBusy _ _, rfl, rfl, rfl, ?_⟩
  rw [polledBusy_trace, hsr1]
  exact (List.append_assoc ..).trans (List.append_assoc ..)

/-- Settles O42: `eraseThenPoll_busy` for `SE4K` and for `CE`. -/
theorem erasePollsWhileTheChipIsBusy : Obligations.ErasePollsWhileTheChipIsBusy := by
  intro s rest ⟨hs, hl, hbus, hchip, hcfg⟩ hprot hw hsch
  have ready (i : Instr) : EraseReady (eraseEnabled { s with current := some i }) :=
    eraseEnabled_ready ⟨hbus, hcfg, hchip, hprot⟩
  have wel (i : Instr) : sr1Wel (eraseEnabled { s with current := some i }).chip.sr1 = true :=
    eraseEnabled_wel (.inl hw)
  refine ⟨fun a ha => ?_, ?_⟩
  · rw [exec_blockErase4k_eq hs hl ha]
    exact eraseThenPoll_busy ⟨hbus, hcfg, hchip, hprot⟩ hw hsch (erases_se4k (ready _) (wel _) ha)
  · rw [exec_chipErase_eq hs hl]
    exact eraseThenPoll_busy ⟨hbus, hcfg, hchip, hprot⟩ hw hsch (erases_ce (ready _) (wel _))

/-! ### An erase that the chip ignores -/

/-- The state after a command that the chip ignores for want of WEL: only `VWE` is cleared (43 R309). -/
def opIgnored (ccr ar : Word) (x : BusTxn) (s : State) : State :=
  { s with
    regs := { afterTxn ccr s.regs with ar := ar }
    chip := { s.chip with vwe := false }
    rx := []
    trace := s.trace ++ [x] }

section
variable {s : State} (h : EraseReady s) (hw : sr1Wel s.chip.sr1 = false)
include h hw

theorem txn_se4k_ignored {a : Word} (ha : a.toNat < 8388608) :
    txn .se4k { addr := a.setWidth 24 } s =
      .next (opIgnored 0x00002520 a (se4kTxn a false) s) := by
  obtain ⟨hbus, ⟨hfsize, hsshift, -⟩, hchip, hprot⟩ := h
  obtain ⟨-, -, hidle⟩ := id hchip
  have h24 : (a.setWidth 24).toNat = a.toNat := by
    simp
    omega
  have h32 := addr24_roundtrip ha
  have hl : lowBytes 3 a = a := lowBytes_three (by omega)
  have hrule : chipRule .se4k (txnRecord .se4k { addr := a.setWidth 24 } false []) 0 s.chip =
      .answer s.chip [] := by
    simp [chipRule, chipSe4k, protects_nil hprot, hw]
  have ht := txn_spec .se4k { addr := a.setWidth 24 } s _ _ (by decide) hbus hsshift hfsize
    ⟨fun _ => rfl, fun h => absurd rfl h, Nat.zero_le _, fun _ => rfl, fun _ => by rw [h24]; exact ha⟩
    (chipTake_unlatched hchip (by decide) rfl rfl hrule) nofun
  rw [chipChance_idle (by exact hidle)] at ht
  have hrecord : txnRecord .se4k { addr := a.setWidth 24 } false [] = se4kTxn a false := by
    calc txnRecord .se4k { addr := a.setWidth 24 } false []
      _ = se4kTxn (lowBytes 3 ((a.setWidth 24).setWidth 32)) false := rfl
      _ = _ := by rw [h32, hl]
  have hregs : txnRegs .se4k { addr := a.setWidth 24 } s.regs =
      { afterTxn 0x00002520 s.regs with ar := a } := by
    calc txnRegs .se4k { addr := a.setWidth 24 } s.regs
      _ = { afterTxn 0x00002520 s.regs with ar := (a.setWidth 24).setWidth 32 } := rfl
      _ = _ := by rw [h32]
  rw [opIgnored, ← hregs, ← hrecord]
  exact ht

theorem txnBare_ce_ignored :
    txnBare .ce s = .next (opIgnored 0x000001C7 s.regs.ar (bareTxn 0xC7 false) s) := by
  obtain ⟨hbus, ⟨hfsize, hsshift, -⟩, hchip, hprot⟩ := h
  obtain ⟨-, -, hidle⟩ := id hchip
  have hrule : chipRule .ce (txnRecord .ce {} false []) 0 s.chip = .answer s.chip [] := by
    simp [chipRule, chipCe, protects_nil hprot, hw]
  have ht := txn_spec .ce {} s _ _ (by decide) hbus hsshift hfsize
    ⟨fun _ => rfl, fun h => absurd rfl h, Nat.zero_le _, fun _ => rfl, fun h => absurd rfl h⟩
    (chipTake_unlatched hchip (by decide) rfl rfl hrule) nofun
  rw [chipChance_idle (by exact hidle)] at ht
  exact ht

end

/-- Without a write-enable and without WEL the erase returns after one status read (42 R255). -/
theorem eraseThenPoll_ignored {erase : State → Result} {ccr ar : Word} {x : BusTxn} {s : State}
    (h : EraseReady s) (hw : s.cfg.eraseWren = false) (hb : sr1Busy s.chip.sr1 = false)
    (he : erase s = .next (opIgnored ccr ar x s)) :
    eraseThenPoll erase s = .next (finish .unit (statusRead (opIgnored ccr ar x s))) := by
  have henabled : eraseEnabled s = s := if_neg (by rw [hw]; exact Bool.false_ne_true)
  rw [eraseThenPoll_eq h, henabled, he, andThen_next, pollDone]
  obtain ⟨hbus, hcfg, ⟨hcrm, hpwr, hidle⟩, -⟩ := h
  have hrun : Running (opIgnored ccr ar x s) := ⟨hbus, hcfg, ⟨hcrm, hpwr⟩, by
    show sr1Busy s.chip.sr1 = decide (s.chip.pending ≠ .none)
    simp [hb, hidle]⟩
  rw [pollThen_eq hrun, if_pos (show (opIgnored ccr ar x s).chip.pending = .none from hidle)]

/-- Settles O43: `eraseThenPoll_ignored` for `SE4K` and for `CE`. -/
theorem eraseWithoutWriteEnableDoesNothing : Obligations.EraseWithoutWriteEnableDoesNothing := by
  intro s ⟨hs, hl, hbus, hchip, hcfg⟩ hprot hw hwel hbusy
  have ready (i : Instr) : EraseReady { s with current := some i } := ⟨hbus, hcfg, hchip, hprot⟩
  have htrace (x y : BusTxn) : s.trace ++ [x, y] = s.trace ++ [x] ++ [y] := List.append_cons ..
  refine ⟨fun a ha => ?_, ?_⟩
  · have he := txn_se4k_ignored (ready (.blockErase4k a)) hwel ha
    rw [exec_blockErase4k_eq hs hl ha, eraseThenPoll_ignored (ready _) hw hbusy he,
      finish_of_idle (by exact hs), htrace]
    rfl
  · have he := txnBare_ce_ignored (ready .chipErase) hwel
    rw [exec_chipErase_eq hs hl, eraseThenPoll_ignored (ready _) hw hbusy he,
      finish_of_idle (by exact hs), htrace]
    rfl

end Sys2Proof.Machine
end

section
/-! PROOF. A bus command run from the peripheral registers: what it does when every check of the chip passes
and its rule answers, reads or stops, and when the chip stops or ignores it before its rule
(40_encoder_and_pollers.md rule R171, 43_register_operations.md rule R295). -/

namespace Sys2Proof.Machine

/-- The bytes that an outward data phase needs are queued in `DR` (10 R50). -/
theorem CanStart.queued {c : BusCmd} {s : State} (h : CanStart c s) : Queued c s := by
  obtain ⟨-, -, hdata⟩ := h
  intro hwrite
  unfold dataLength
  split
  · exact Nat.zero_le _
  · exact hdata hwrite ‹_›

/-- A read sends no byte, so that a bus that is idle can start it. -/
theorem BusIdle.canStart_read {c : BusCmd} {s : State} (h : BusIdle s)
    (hc : c.descriptor.fmode = .indirectRead) : CanStart c s := by
  obtain ⟨hup, hbusy, -⟩ := h
  exact ⟨hup, hbusy, fun hwrite => by cases hc.symm.trans hwrite⟩

section
variable {c : BusCmd} {s : State} (hm : c ≠ .mmread) (h : CanStart c s)
include hm h

/-! ### A command whose rule does not run -/

/-- A fault of the chip ends the command, which is recorded and leaves the chip (60 R321, R325). -/
theorem exec_chipFault {f : FaultCode} (hchip : chipTake c (rawTxn c s)
      (dataLength c.descriptor s.regs.dlr) s.chip = .fault f) :
    ∃ t, exec c.instr s = .fault (faultOf f t) ∧ StopRecord s t := by
  obtain ⟨hup, hbusy, -⟩ := id h
  rw [exec_indirect hm, startIndirect_eq hup hbusy h.queued, hchip]
  exact ⟨_, rfl, rfl, rfl, rfl⟩

/-- So does a refusal of the chip (60 R321, R325; log 4). -/
theorem exec_chipRefuse {r : RefCode} (hchip : chipTake c (rawTxn c s)
      (dataLength c.descriptor s.regs.dlr) s.chip = .refuse r) :
    ∃ t, exec c.instr s = .refused (refusalOf r t) ∧ StopRecord s t := by
  obtain ⟨hup, hbusy, -⟩ := id h
  rw [exec_indirect hm, startIndirect_eq hup hbusy h.queued, hchip]
  exact ⟨_, rfl, rfl, rfl, rfl⟩

/-- A command that the chip ignores leaves the chip, and each byte it reads is a draw (43 R295 step 5). -/
theorem exec_chipIgnored (hchip : chipTake c (rawTxn c s) (dataLength c.descriptor s.regs.dlr) s.chip =
      .ignored) :
    ∃ t, exec c.instr s = .next t ∧ t.chip = s.chip ∧ (c.descriptor.fmode = .indirectRead →
      t.regs.fifo = s.regs.fifo ++ drawBytes s.draws (dataLength c.descriptor s.regs.dlr)) := by
  obtain ⟨hup, hbusy, -⟩ := id h
  rw [exec_indirect hm, startIndirect_eq hup hbusy h.queued, hchip]
  refine ⟨_, rfl, ?_, fun hread => ?_⟩
  · unfold receiveIgnored
    split <;> rfl
  · rw [receiveIgnored, if_pos hread]
    exact congrArg (· ++ _) (beginTxn_read_fifo hread _ _)

end

/-! ### A command whose rule runs -/

/-- An indirect command starts, and each check of the chip before its rule passes (43 R295). -/
structure RuleRuns (c : BusCmd) (s : State) : Prop where
  indirect : c ≠ .mmread
  canStart : CanStart c s
  row : rowOperands c s.regs = true
  crm : s.chip.crm = false
  awake : s.chip.pwr = .active ∨ c = .rdpd
  idle : s.chip.pending = .none ∨ c = .rdsr1 ∨ c = .rdsr2
  quad : (c == .qread || c == .qpp || c == .mmread) = false ∨ sr2Qe s.chip.sr2 = true

/-- The chip after a command's rule: `VWE` is cleared by any command but `VWREN` (43 R309). -/
def ruleDone (c : BusCmd) (k : Chip) : Chip := if c = .vwren then k else { k with vwe := false }

/-- `SR.TEF` once a command has started: set by an address out of the range of `FSIZE` (10 R43; log 21). -/
def tefStarted (c : BusCmd) (r : Regs) : Bool :=
  r.sr.tef || (decide (c.descriptor.admode ≠ .none) && outOfFsize r.dcr r.ar)

/-- The state once a command has started and the chip, now `k`, has answered it: the bytes that stand in
the FIFO, and the record in the trace (40 R171). -/
def commandSent (c : BusCmd) (s : State) (k : Chip) (fifo : List Byte) (x : BusTxn) : State :=
  { s with
    regs := { inFlight c.word s.regs with
      fifo := fifo, sr := { s.regs.sr with busy := true, tef := tefStarted c s.regs } }
    chip := k
    trace := s.trace ++ [x] }

/-- A command without an address phase leaves `SR.TEF`. -/
theorem commandSent_bare {c : BusCmd} (hc : c.descriptor.admode = .none) (s : State) (k : Chip)
    (fifo : List Byte) (x : BusTxn) : commandSent c s k fifo x = { s with
      regs := { inFlight c.word s.regs with fifo := fifo }
      chip := k
      trace := s.trace ++ [x] } := by
  have htef : tefStarted c s.regs = s.regs.sr.tef := by simp [tefStarted, hc]
  rw [commandSent, htef]
  rfl

/-- A command with an address phase sets `SR.TEF` for an address past the chip's 8 MiB (10 R42, R43). -/
theorem tefStarted_address {c : BusCmd} (hc : c.descriptor.admode ≠ .none) {r : Regs}
    (hsize : dcrFsize r.dcr = BitVec.ofNat 5 Config.fsize) :
    tefStarted c r = (r.sr.tef || decide (8388608 ≤ r.ar.toNat)) := by
  simp [tefStarted, hc, outOfFsize, hsize, Config.fsize]

/-- The start of a command takes the bytes it sends from the FIFO (40 R171). -/
theorem beginTxn_write_fifo {d : Descriptor} (hd : d.fmode = .indirectWrite) (n : Nat) (s : State) :
    (beginTxn d n s).regs.fifo = s.regs.fifo.drop n := by
  simp [beginTxn, hd]

/-- A command whose data bytes are all that stand in the FIFO sends them. -/
theorem queuedBytes_all {c : BusCmd} {s : State} (hc : c.descriptor.fmode = .indirectWrite)
    (hn : dataLength c.descriptor s.regs.dlr = s.regs.fifo.length) : queuedBytes c s = s.regs.fifo := by
  rw [queuedBytes, if_pos hc, hn, List.take_length]

/-- A command with the toggle it asks for samples what the chip drove (40 R177). -/
theorem sampleIn_asked {c : BusCmd} {toggle : Bool} (h : toggle = lateSampled c) (d : Nat)
    (bytes : List Byte) : sampleIn c toggle d bytes = (bytes, false) := by
  rw [h]
  cases hl : lateSampled c <;> simp [sampleIn, hl]

namespace RuleRuns
variable {c : BusCmd} {s : State} (h : RuleRuns c s)
include h

theorem chipTake : chipTake c (rawTxn c s) (dataLength c.descriptor s.regs.dlr) s.chip =
    afterRule c (chipRule c (rawTxn c s) (dataLength c.descriptor s.regs.dlr) s.chip) :=
  chipTake_rule h.crm (rawTxn_instr ..) (rawTxn_shape ..) ((rowOperands_fit c h.indirect s).trans h.row)
    h.awake h.idle (h.quad.imp_left (rawTxn_hasQuad c s).trans)

/-- The rule faults. -/
theorem fault {f : FaultCode} (hrule : chipRule c (rawTxn c s) (dataLength c.descriptor s.regs.dlr)
      s.chip = .fault f) :
    ∃ t, exec c.instr s = .fault (faultOf f t) ∧ StopRecord s t :=
  exec_chipFault h.indirect h.canStart (by rw [h.chipTake, hrule]; rfl)

/-- The rule refuses. -/
theorem refuse {r : RefCode} (hrule : chipRule c (rawTxn c s) (dataLength c.descriptor s.regs.dlr)
      s.chip = .refuse r) :
    ∃ t, exec c.instr s = .refused (refusalOf r t) ∧ StopRecord s t :=
  exec_chipRefuse h.indirect h.canStart (by rw [h.chipTake, hrule]; rfl)

variable {k : Chip} {bytes : List Byte}
  (hrule : chipRule c (rawTxn c s) (dataLength c.descriptor s.regs.dlr) s.chip = .answer k bytes)
include hrule

/-- The rule answers: the peripheral receives what the chip drives (40 R171). -/
theorem answer : exec c.instr s = .next (receiveIndirect c (rawTxn c s)
    (dataLength c.descriptor s.regs.dlr) (ruleDone c k) bytes
    (beginTxn c.descriptor (dataLength c.descriptor s.regs.dlr) (writeCcr c.word s))) := by
  obtain ⟨hup, hbusy, -⟩ := id h.canStart
  rw [exec_indirect h.indirect, startIndirect_eq hup hbusy h.canStart.queued, h.chipTake, hrule]
  rfl

/-- A command that sends its bytes: they leave the FIFO. -/
theorem write (hc : c.descriptor.fmode = .indirectWrite) :
    exec c.instr s = .next (commandSent c s (ruleDone c k)
      (s.regs.fifo.drop (dataLength c.descriptor s.regs.dlr)) (rawTxn c s)) := by
  have hread : ¬ c.descriptor.fmode = .indirectRead := by rw [hc]; nofun
  rw [h.answer hrule, receiveIndirect, if_neg hread, commandSent,
    ← beginTxn_write_fifo hc (dataLength c.descriptor s.regs.dlr) s]
  rfl

variable (hc : c.descriptor.fmode = .indirectRead) (hfifo : s.regs.fifo = [])
  (hsshift : crSshift s.regs.cr = lateSampled c)
include hc hfifo hsshift

/-- A read with the toggle its command asks for: the bytes that the chip drives stand first in the FIFO, and
draws follow for the others (40 R174, R177; log 14). -/
theorem read_fifo : ∃ t, exec c.instr s = .next t ∧ t.chip = ruleDone c k ∧
    t.regs.fifo = bytes ++ openBytes s.draws (dataLength c.descriptor s.regs.dlr) bytes := by
  obtain ⟨hk, hgot⟩ := receiveIndirect_read hc (rawTxn c s) (dataLength c.descriptor s.regs.dlr)
    (ruleDone c k) bytes
    (beginTxn c.descriptor (dataLength c.descriptor s.regs.dlr) (writeCcr c.word s))
  rw [beginTxn_read_fifo hc, writeCcr_regs, hfifo, List.nil_append] at hgot
  exact ⟨_, h.answer hrule, hk, hgot.trans (congrArg Prod.fst (sampleIn_asked hsshift _ _))⟩

/-- A read that the chip answers in full: its bytes stand alone in the FIFO, and in the record. -/
theorem read (hlen : bytes.length = dataLength c.descriptor s.regs.dlr) :
    exec c.instr s = .next (commandSent c s (ruleDone c k) bytes ((rawTxn c s).withBytes bytes)) := by
  have hsample (d : Nat) : sampleIn c (rawTxn c s).sshift d bytes = (bytes, false) :=
    sampleIn_asked hsshift d bytes
  rw [h.answer hrule, receiveIndirect, if_pos hc]
  simp only [openBytes_full (Nat.le_of_eq hlen.symm), List.append_nil, hsample, beginTxn_read_fifo hc,
    writeCcr_regs, hfifo, List.nil_append]
  rfl

end RuleRuns

end Sys2Proof.Machine
end

section
/-! PROOF. The bus commands that write a latch, read a register or read the array
(43_register_operations.md rules R296 to R300, R305, R306). -/

namespace Sys2Proof.Machine

/-! ### Latches and waking -/

/-- A command without a data phase needs neither queued bytes nor an operand (30 R145). -/
theorem ruleRuns_noData {c : BusCmd} {s : State} (hc : c.descriptor.dmode = .none) (hup : busUp s = true)
    (hbusy : s.regs.sr.busy = false) (hcrm : s.chip.crm = false)
    (hawake : s.chip.pwr = .active ∨ c = .rdpd) (hidle : s.chip.pending = .none) : RuleRuns c s where
  indirect := by rintro rfl; cases hc
  canStart := ⟨hup, hbusy, fun _ h => absurd hc h⟩
  row := by cases c <;> first | rfl | cases hc
  crm := hcrm
  awake := hawake
  idle := .inl hidle
  quad := .inl (by cases c <;> first | rfl | cases hc)

/-- A command of its instruction byte alone, `WREN`, `VWREN`, `RDPD` or `CE`, that the chip answers. -/
theorem exec_bare {c : BusCmd} {s : State} (h : RuleRuns c s) (hc : c.descriptor = .bare c.opcode)
    {k : Chip} {bytes : List Byte} (hrule : chipRule c (rawTxn c s) 0 s.chip = .answer k bytes) :
    exec c.instr s = .next { s with
      regs := inFlight c.word s.regs
      chip := ruleDone c k
      trace := s.trace ++ [bareTxn c.opcode (crSshift s.regs.cr)] } := by
  have hlength : dataLength c.descriptor s.regs.dlr = 0 := by rw [hc]; rfl
  have hrecord : rawTxn c s = bareTxn c.opcode (crSshift s.regs.cr) := by rw [rawTxn, hc]; rfl
  have hsent := h.write (by rw [hlength]; exact hrule) (by rw [hc]; rfl)
  rw [commandSent_bare (by rw [hc]; rfl), hlength, hrecord] at hsent
  exact hsent

/-- Settles O13: each rule answers, and its command is its instruction byte alone. -/
theorem latchAndWakeCommands : Obligations.LatchAndWakeCommands := by
  intro s hup hbusy hcrm hidle
  have runs (c : BusCmd) (hc : c.descriptor.dmode = .none) (hawake : s.chip.pwr = .active ∨ c = .rdpd) :
      RuleRuns c s := ruleRuns_noData hc hup hbusy hcrm hawake hidle
  refine ⟨fun hpwr => ?_, fun hpwr => ?_, ?_⟩
  · rw [← sr1WithWel_true]
    exact exec_bare (runs .wren rfl (.inl hpwr)) rfl rfl
  · exact exec_bare (runs .vwren rfl (.inl hpwr)) rfl rfl
  · exact exec_bare (runs .rdpd rfl (.inr rfl)) rfl rfl

/-! ### Status and ID reads -/

/-- A status read of any length, pending operation or not: every byte clocked is the register's value `v`
(43 R296, R297; log 13). -/
theorem exec_statusRead {c : BusCmd} (hc : c = .rdsr1 ∨ c = .rdsr2) {s : State} (hbus : BusIdle s)
    (hawake : ChipAwake s.chip) (hsshift : crSshift s.regs.cr = false) {v : Byte}
    (hrule : chipRule c (rawTxn c s) (s.regs.dlr.toNat + 1) s.chip =
      .answer s.chip (List.replicate (s.regs.dlr.toNat + 1) v)) :
    exec c.instr s = .next { s with
      regs := { inFlight c.word s.regs with fifo := List.replicate (s.regs.dlr.toNat + 1) v }
      chip := { s.chip with vwe := false }
      trace := s.trace ++
        [statusTxn c.opcode (List.replicate (s.regs.dlr.toNat + 1) v) false] } := by
  obtain ⟨hcrm, hpwr⟩ := hawake
  obtain ⟨-, -, hfifo⟩ := id hbus
  have hread : c.descriptor.fmode = .indirectRead := by rcases hc with rfl | rfl <;> rfl
  have hlength : dataLength c.descriptor s.regs.dlr = s.regs.dlr.toNat + 1 := by
    rcases hc with rfl | rfl <;> rfl
  have hrecord (bytes : List Byte) :
      (rawTxn c s).withBytes bytes = statusTxn c.opcode bytes (crSshift s.regs.cr) := by
    rcases hc with rfl | rfl <;> rfl
  have hdone : ruleDone c s.chip = { s.chip with vwe := false } := by rcases hc with rfl | rfl <;> rfl
  have runs : RuleRuns c s :=
    ⟨by rcases hc with rfl | rfl <;> decide, hbus.canStart_read hread,
      by rcases hc with rfl | rfl <;> rfl, hcrm, .inl hpwr, .inr hc,
      .inl (by rcases hc with rfl | rfl <;> rfl)⟩
  have hlate : lateSampled c = false := by rcases hc with rfl | rfl <;> rfl
  have hsent := runs.read (by rw [hlength]; exact hrule) hread hfifo (hsshift.trans hlate.symm)
    (by rw [hlength, List.length_replicate])
  rw [commandSent_bare (by rcases hc with rfl | rfl <;> rfl), hrecord, hdone, hsshift] at hsent
  exact hsent

/-- Settles O14: `exec_statusRead` for each of the two registers. -/
theorem statusReadCommands : Obligations.StatusReadCommands := by
  intro s hbus hcrm hpwr hsshift
  exact ⟨exec_statusRead (c := .rdsr1) (.inl rfl) hbus ⟨hcrm, hpwr⟩ hsshift rfl,
    exec_statusRead (c := .rdsr2) (.inr rfl) hbus ⟨hcrm, hpwr⟩ hsshift rfl⟩

/-- Operands that are not the row's are F_SHAPE (43 R295 step 4). -/
theorem chipTake_shape {c : BusCmd} {x : BusTxn} {n : Nat} {k : Chip} (hcrm : k.crm = false)
    (hi : x.instr.isSome = true) (hop : operandsFit c x n = false) :
    chipTake c x n k = .fault .shape := by
  have hinstr : ¬ (x.instr.isNone = true) := by simpa [Option.isSome_iff_ne_none] using hi
  rw [chipTake, if_neg (by simp [hcrm]), if_neg hinstr, if_pos (by simp [hop])]

/-- An indirect command whose registers do not hold its row's operands is F_SHAPE. -/
theorem exec_shape {c : BusCmd} {s : State} (hm : c ≠ .mmread) (h : CanStart c s)
    (hcrm : s.chip.crm = false) (hrow : rowOperands c s.regs = false) :
    ∃ t, exec c.instr s = .fault (.shape t) ∧ StopRecord s t :=
  exec_chipFault hm h (chipTake_shape hcrm (rawTxn_instr ..) ((rowOperands_fit c hm s).trans hrow))

/-- Settles O15: at address 0 the rule answers and the toggle is the one `RDID` asks for; another address
is not the row's. -/
theorem readIdCommand : Obligations.ReadIdCommand := by
  intro s hbus ⟨hcrm, hpwr, hidle⟩ hsize hsshift hlen
  obtain ⟨-, -, hfifo⟩ := id hbus
  refine ⟨fun haddr => ?_, fun haddr => ?_⟩
  · intro bytes
    have runs : RuleRuns .rdid s :=
      ⟨by decide, hbus.canStart_read rfl, by rw [rowOperands, decide_eq_true hlen, haddr]; rfl, hcrm,
        .inl hpwr, .inl hidle, .inl rfl⟩
    have hrecord : (rawTxn .rdid s).withBytes bytes = rdidTxn bytes true := by
      calc (rawTxn .rdid s).withBytes bytes
        _ = { rdidTxn bytes (crSshift s.regs.cr) with
              addr := some ⟨s.regs.ar &&& 0x00FFFFFF, 3, .single⟩ } := rfl
        _ = rdidTxn bytes true := by rw [haddr, hsshift]; rfl
    have hsent := runs.read (bytes := bytes) rfl rfl hfifo hsshift
      ((List.length_map _).trans List.length_range)
    rw [commandSent, tefStarted_address (by decide) hsize, hrecord] at hsent
    exact hsent
  · exact exec_shape (c := .rdid) (by decide) (hbus.canStart_read rfl) hcrm 
      (by rw [rowOperands, beq_eq_false_iff_ne.2 haddr, Bool.and_false])

/-! ### `QREAD` -/

theorem arrayBytes_length (k : Chip) (a n : Nat) :
    (arrayBytes k a n).length = min n (Config.capacity - a) :=
  Memory.readRange_length ..

/-- A byte of a read below `CAPACITY` is the array's (43 R306; log 14). -/
theorem arrayBytes_getElem? (k : Chip) {a n i : Nat} (hi : i < n) (ha : a + i < Config.capacity) :
    (arrayBytes k a n)[i]? = some (k.array.read (a + i)) := by
  have hlt : i < (arrayBytes k a n).length := by rw [arrayBytes_length]; omega
  rw [List.getElem?_eq_getElem hlt]
  exact congrArg some (Memory.readRange_getElem _ _ _ _ hlt)

/-- With the draws for those that the chip does not drive, a read has all its bytes (log 14). -/
theorem append_openBytes_length {d n : Nat} {bytes : List Byte} (h : bytes.length ≤ n) :
    (bytes ++ openBytes d n bytes).length = n := by
  unfold openBytes
  split
  · simp [drawBytes]
    omega
  · simp
    omega

/-- Settles O16: inside the array the chip drives every byte; a read past `CAPACITY` goes on with draws
after the bytes that the chip drives. -/
theorem quadReadCommand : Obligations.QuadReadCommand := by
  intro s hbus ⟨hcrm, hpwr, hidle⟩ ⟨hsize, hsshift, _⟩ hqe
  obtain ⟨-, -, hfifo⟩ := id hbus
  have runs : RuleRuns .qread s :=
    ⟨by decide, hbus.canStart_read rfl, rfl, hcrm, .inl hpwr, .inl hidle, .inr hqe⟩
  refine ⟨fun hrange => ?_, ?_⟩
  · intro bytes
    have hin : s.regs.ar.toNat < 8388608 := by unfold Config.capacity at hrange; omega
    have h24 : s.regs.ar &&& 0x00FFFFFF = s.regs.ar := lowBytes_three (by omega)
    have hrule : chipRule .qread (rawTxn .qread s) (s.regs.dlr.toNat + 1) s.chip =
        .answer s.chip bytes := by
      rw [chipRule, chipQread, rawTxn_address (by decide), h24, arrayBytes_within hrange]
      rfl
    have hrecord : (rawTxn .qread s).withBytes bytes = qreadTxn s.regs.ar bytes false := by
      calc (rawTxn .qread s).withBytes bytes
        _ = qreadTxn (s.regs.ar &&& 0x00FFFFFF) bytes (crSshift s.regs.cr) := rfl
        _ = _ := by rw [h24, hsshift]
    have htef : tefStarted .qread s.regs = s.regs.sr.tef := by
      rw [tefStarted_address (by decide) hsize, decide_eq_false (by omega), Bool.or_false]
    have hsent := runs.read hrule rfl hfifo hsshift ((List.length_map _).trans List.length_range)
    rw [commandSent, htef, hrecord] at hsent
    exact hsent
  · intro a
    have hrule : chipRule .qread (rawTxn .qread s) (s.regs.dlr.toNat + 1) s.chip =
        .answer s.chip (arrayBytes s.chip a (s.regs.dlr.toNat + 1)) := by
      rw [chipRule, chipQread, rawTxn_address (by decide)]
    obtain ⟨t, ht, hk, hgot⟩ := runs.read_fifo hrule rfl hfifo hsshift
    have hlength := arrayBytes_length s.chip a (s.regs.dlr.toNat + 1)
    refine ⟨t, ht, hk, ?_, fun i hi ha => ?_⟩
    · rw [hgot]
      exact append_openBytes_length (hlength.trans_le (Nat.min_le_left ..))
    · rw [hgot, List.getElem?_append_left (by omega)]
      exact arrayBytes_getElem? _ hi ha

end Sys2Proof.Machine
end

section
/-! PROOF. The bus commands that start an internal operation: the status write, the program and the erases
(43_register_operations.md rules R301 to R304; 10_state.md rule R67). -/

namespace Sys2Proof.Machine

/-- An internal operation starts: BUSY shows it, as the mask of the statements writes it (10 R67). -/
theorem chipStart_eq (p : Pending) (k : Chip) :
    chipStart p k = { k with pending := p, sr1 := k.sr1 ||| 0x01 } := by
  rw [chipStart, sr1WithBusy_true]

/-! ### `WRSR2` -/

section
variable {x : BusTxn} {k : Chip}

/-- Right after `VWREN` the write is volatile, whatever WEL is (43 R304). -/
theorem chipWrsr2_volatile (h : k.vwe = true) :
    chipWrsr2 x k = .answer (chipStart (.wrsr2 (x.bytes.headD 0) true) k) [] := by
  rw [chipWrsr2, if_pos h]

theorem chipWrsr2_nonVolatile (h : ¬ k.vwe = true) (hw : sr1Wel k.sr1 = true) :
    chipWrsr2 x k = .answer (chipStart (.wrsr2 (x.bytes.headD 0) false) k) [] := by
  rw [chipWrsr2, if_neg h, if_pos hw]

theorem chipWrsr2_unlatched (h : ¬ k.vwe = true) (hw : ¬ sr1Wel k.sr1 = true) :
    chipWrsr2 x k = .answer k [] := by
  rw [chipWrsr2, if_neg h, if_neg hw]

end

/-- Settles O17: the three branches of the rule. -/
theorem writeStatus2Command : Obligations.WriteStatus2Command := by
  intro s v hup hbusy ⟨hcrm, hpwr, hidle⟩ hdlr hfifo
  have hqueued : s.regs.dlr.toNat + 1 = s.regs.fifo.length := by rw [hdlr, hfifo]; rfl
  have hsend : queuedBytes .wrsr2 s = [v] := (queuedBytes_all (c := .wrsr2) rfl hqueued).trans hfifo
  have hrecord : rawTxn .wrsr2 s = wrsr2Txn v (crSshift s.regs.cr) := by rw [rawTxn, hsend]; rfl
  have runs : RuleRuns .wrsr2 s :=
    ⟨by decide, ⟨hup, hbusy, fun _ _ => hqueued.le⟩, by rw [rowOperands, hdlr]; rfl, hcrm, .inl hpwr,
      .inl hidle, .inl rfl⟩
  have sent {k : Chip} (hrule : chipWrsr2 (wrsr2Txn v (crSshift s.regs.cr)) s.chip = .answer k []) :
      exec .wrsr2 s = .next { s with
        regs := { inFlight 0x01000131 s.regs with fifo := [] }
        chip := { k with vwe := false }
        trace := s.trace ++ [wrsr2Txn v (crSshift s.regs.cr)] } := by
    have h := runs.write (by rw [hrecord]; exact hrule) rfl
    rw [commandSent_bare rfl, hrecord, hfifo, hdlr] at h
    exact h
  split
  case isTrue hvwe =>
    rw [sent (chipWrsr2_volatile hvwe), chipStart_eq]
    rfl
  case isFalse hvwe =>
    split
    case isTrue hwel =>
      rw [sent (chipWrsr2_nonVolatile hvwe hwel), chipStart_eq]
      rfl
    case isFalse hwel =>
      have hkeep : { s.chip with vwe := false } = s.chip := by
        rw [← Bool.eq_false_of_not_eq_true hvwe]
      rw [sent (chipWrsr2_unlatched hvwe hwel), hkeep]

/-! ### `QPP` -/

section
variable {x : BusTxn} {k : Chip} {a : Nat} {d : List Byte} (ha : x.address = a) (hd : x.bytes = d)
include ha hd

theorem chipQpp_protected (hp : protects k a d.length = true) : chipQpp x k = .refuse .protection := by
  subst ha hd
  exact if_pos hp

variable (hp : ¬ protects k a d.length = true)
include hp

theorem chipQpp_unlatched (hw : sr1Wel k.sr1 = false) : chipQpp x k = .answer k [] := by
  subst ha hd
  simp [chipQpp, hp, hw]

variable (hw : sr1Wel k.sr1 = true)
include hw

theorem chipQpp_pageCross (hpage : 256 < a % 256 + d.length) : chipQpp x k = .fault .pageCross := by
  subst ha hd
  simp [chipQpp, hp, hw, Config.pageSize, hpage]

variable (hpage : a % 256 + d.length ≤ 256)
include hpage

theorem chipQpp_range (hr : 8388608 ≤ a) : chipQpp x k = .refuse .range := by
  subst ha hd
  simp [chipQpp, hp, hw, Config.pageSize, Nat.not_lt.2 hpage, Config.capacity, hr]

theorem chipQpp_accepted (hr : a < 8388608) : chipQpp x k = .answer (chipStart (.program a d) k) [] := by
  subst ha hd
  simp [chipQpp, hp, hw, Config.pageSize, Nat.not_lt.2 hpage, Config.capacity, Nat.not_le.2 hr]

end

/-- Settles O18: the five branches of the rule, the protection one being `protects_iff`. -/
theorem quadPageProgramCommand : Obligations.QuadPageProgramCommand := by
  intro s d hup hbusy ⟨hcrm, hpwr, hidle⟩ hsize hqe hd1 hd256 hdlr hfifo a answered covered
  have hprotects : protects s.chip a d.length = true ↔ covered := protects_iff ..
  have hlength : s.regs.dlr.toNat + 1 = d.length := by
    rw [hdlr]
    simp
    omega
  have hqueued : s.regs.dlr.toNat + 1 = s.regs.fifo.length := by rw [hlength, hfifo]
  have hsend : queuedBytes .qpp s = d := (queuedBytes_all (c := .qpp) rfl hqueued).trans hfifo
  have haddr : (rawTxn .qpp s).address = a := rawTxn_address (by decide) s
  have hbytes : (rawTxn .qpp s).bytes = d := (rawTxn_bytes (by decide) s).trans hsend
  have hrecord : rawTxn .qpp s = qppTxn (s.regs.ar &&& 0x00FFFFFF) d (crSshift s.regs.cr) := by
    rw [rawTxn, hsend]
    rfl
  have runs : RuleRuns .qpp s :=
    ⟨by decide, ⟨hup, hbusy, fun _ _ => hqueued.le⟩,
      by rw [rowOperands]; exact decide_eq_true (by omega), hcrm, .inl hpwr, .inl hidle, .inr hqe⟩
  have sent {k : Chip} (hrule : chipQpp (rawTxn .qpp s) s.chip = .answer k []) :
      answered { k with vwe := false } := by
    have h := runs.write hrule rfl
    have hdrop : s.regs.fifo.drop (dataLength BusCmd.qpp.descriptor s.regs.dlr) = [] :=
      List.drop_of_length_le hqueued.ge
    rw [commandSent, tefStarted_address (by decide) hsize, hrecord, hdrop] at h
    exact h
  refine ⟨fun hc => ?_, fun hc hw => ?_, fun hc hw hpage => ?_, fun hc hw hpage hr => ?_,
    fun hc hw hpage hr => ?_⟩
  · exact runs.refuse (chipQpp_protected haddr hbytes (hprotects.2 hc))
  all_goals rw [← hprotects] at hc
  · exact sent (chipQpp_unlatched haddr hbytes hc hw)
  · exact runs.fault (chipQpp_pageCross haddr hbytes hc hw hpage)
  · exact runs.refuse (chipQpp_range haddr hbytes hc hw hpage hr)
  · have h := sent (chipQpp_accepted haddr hbytes hc hw hpage hr)
    rw [chipStart_eq] at h
    exact h

/-! ### `SE4K` and `CE` -/

section
variable {x : BusTxn} {k : Chip} {a : Nat} (ha : x.address = a)
include ha

theorem chipSe4k_protected (hp : protects k (blockBase a) 4096 = true) :
    chipSe4k x k = .refuse .protection := by
  subst ha
  exact if_pos hp

variable (hp : ¬ protects k (blockBase a) 4096 = true)
include hp

theorem chipSe4k_unlatched (hw : sr1Wel k.sr1 = false) : chipSe4k x k = .answer k [] := by
  subst ha
  simp [chipSe4k, Config.eraseBlock, hp, hw]

variable (hw : sr1Wel k.sr1 = true)
include hw

theorem chipSe4k_range (hr : 8388608 ≤ a) : chipSe4k x k = .refuse .range := by
  subst ha
  simp [chipSe4k, Config.eraseBlock, hp, hw, Config.capacity, hr]

theorem chipSe4k_accepted (hr : a < 8388608) :
    chipSe4k x k = .answer (chipStart (.erase (blockBase a) 4096) k) [] := by
  subst ha
  simp [chipSe4k, Config.eraseBlock, hp, hw, Config.capacity, Nat.not_le.2 hr]

end

section
variable {k : Chip}

theorem chipCe_protected (hp : protects k 0 8388608 = true) : chipCe k = .refuse .protection :=
  if_pos hp

variable (hp : ¬ protects k 0 8388608 = true)
include hp

theorem chipCe_unlatched (hw : sr1Wel k.sr1 = false) : chipCe k = .answer k [] := by
  simp [chipCe, Config.capacity, hp, hw]

theorem chipCe_accepted (hw : sr1Wel k.sr1 = true) :
    chipCe k = .answer (chipStart (.erase 0 8388608) k) [] := by
  simp [chipCe, Config.capacity, hp, hw]

end

/-- Settles O19: the branches of the two rules, the protection ones being `protects_iff`. -/
theorem eraseCommands : Obligations.EraseCommands := by
  intro s hup hbusy ⟨hcrm, hpwr, hidle⟩
  refine ⟨fun hsize => ?_, ?_⟩
  · intro a b answered covered
    have hprotects : protects s.chip b 4096 = true ↔ covered := protects_iff ..
    have haddr : (rawTxn .se4k s).address = a := rawTxn_address (by decide) s
    have runs : RuleRuns .se4k s := ruleRuns_noData rfl hup hbusy hcrm (.inl hpwr) hidle
    have sent {k : Chip} (hrule : chipSe4k (rawTxn .se4k s) s.chip = .answer k []) :
        answered { k with vwe := false } := by
      have h := runs.write hrule rfl
      rw [commandSent, tefStarted_address (by decide) hsize] at h
      exact h
    refine ⟨fun hc => ?_, fun hc hw => ?_, fun hc hw hr => ?_, fun hc hw hr => ?_⟩
    · exact runs.refuse (chipSe4k_protected haddr (hprotects.2 hc))
    all_goals rw [← hprotects] at hc
    · exact sent (chipSe4k_unlatched haddr hc hw)
    · exact runs.refuse (chipSe4k_range haddr hc hw hr)
    · have h := sent (chipSe4k_accepted haddr hc hw hr)
      rw [chipStart_eq] at h
      exact h
  · intro answered covered
    have hprotects : protects s.chip 0 8388608 = true ↔ covered := by
      rw [protects_iff, Nat.zero_add]
      simp only [Nat.zero_le, true_and]
      exact Iff.rfl
    have runs : RuleRuns .ce s := ruleRuns_noData rfl hup hbusy hcrm (.inl hpwr) hidle
    refine ⟨fun hc => ?_, fun hc hw => ?_, fun hc hw => ?_⟩
    · exact runs.refuse (chipCe_protected (hprotects.2 hc))
    all_goals rw [← hprotects] at hc
    · exact exec_bare runs rfl (chipCe_unlatched hc hw)
    · have h := exec_bare runs rfl (chipCe_accepted hc hw)
      rw [chipStart_eq] at h
      exact h

end Sys2Proof.Machine
end

section
/-! PROOF. What the chip does with any command: its checks in their order, the clearing of VWE, and the
completion step (43_register_operations.md rules R295, R307, R309; 60_exceptions.md rule R345). -/

namespace Sys2Proof.Machine

/-! ### The checks in their order -/

section
variable {c : BusCmd} {x : BusTxn} {n : Nat} {k : Chip} (hcrm : k.crm = false)
  (hi : x.instr.isSome = true) (hsh : x.shape = cmdShape c true) (hop : operandsFit c x n = true)
include hcrm hi hsh hop

/-- A sleeping chip ignores every command of a right shape but `RDPD` (43 R295 step 5). -/
theorem chipTake_asleep (hpwr : k.pwr = .deepPd) (hc : c ≠ .rdpd) : chipTake c x n k = .ignored := by
  have hinstr : ¬ (x.instr.isNone = true) := by simpa [Option.isSome_iff_ne_none] using hi
  rw [chipTake, if_neg (by simp [hcrm]), if_neg hinstr, if_neg (by simp [hsh, hop]), if_pos ⟨hpwr, hc⟩]

/-- A quad phase while QE = 0 is the last check to fail (43 R295 step 7). -/
theorem chipTake_quadDisabled (hpwr : k.pwr = .active) (hidle : k.pending = .none)
    (hquad : x.hasQuad = true) (hqe : sr2Qe k.sr2 = false) :
    chipTake c x n k = .fault .quadDisabled := by
  have hinstr : ¬ (x.instr.isNone = true) := by simpa [Option.isSome_iff_ne_none] using hi
  rw [chipTake, if_neg (by simp [hcrm]), if_neg hinstr, if_neg (by simp [hsh, hop]),
    if_neg (by simp [hpwr]), if_neg (by simp [hidle]), if_pos (by simp [hquad, hqe])]

end

/-- Settles O22: each check's lemma about `chipTake`, at the transaction the command starts. -/
theorem chipChecksInOrder : Obligations.ChipChecksInOrder := by
  intro c s hm h
  have hi := rawTxn_instr c s
  have hsh := rawTxn_shape c s
  have hfit := rowOperands_fit c hm s
  refine ⟨fun hcrm => ?_, fun hcrm hrow => ?_, fun hcrm hrow hpwr hc => ?_,
    fun hcrm hrow hpwr hp hc1 hc2 => ?_, fun hcrm hrow hpwr hp hqe hc => ?_⟩
  · exact exec_chipFault hm h (chipTake_crm hcrm hi)
  · exact exec_shape hm h hcrm hrow
  · obtain ⟨t, ht, hk, hread⟩ :=
      exec_chipIgnored hm h (chipTake_asleep hcrm hi hsh (hfit.trans hrow) hpwr hc)
    refine ⟨t, ht, hk, fun hmode => ?_⟩
    have hlength : dataLength c.descriptor s.regs.dlr = s.regs.dlr.toNat + 1 := by
      cases c <;> first | rfl | cases hmode
    rw [← hlength]
    exact hread hmode
  · exact exec_chipFault hm h
      (chipTake_chipBusy hcrm hi hsh (hfit.trans hrow) hpwr hp ⟨hc1, hc2⟩)
  · have hquad : (rawTxn c s).hasQuad = true := by
      rw [rawTxn_hasQuad]
      rcases hc with rfl | rfl <;> rfl
    exact exec_chipFault hm h (chipTake_quadDisabled hcrm hi hsh (hfit.trans hrow) hpwr hp hquad hqe)

/-! ### VWE -/

/-- An answered command other than `VWREN` has cleared `VWE`, a continuation read too (43 R309; log 20). -/
theorem chipTake_answer_vwe {c : BusCmd} {x : BusTxn} {n : Nat} {k k' : Chip} {b : List Byte}
    (hc : c ≠ .vwren) (h : chipTake c x n k = .answer k' b) : k'.vwe = false := by
  unfold chipTake chipContinuation at h
  (repeat' split at h) <;> first | (cases h; done) | skip
  case isTrue => cases h; rfl
  case isFalse =>
    cases hr : chipRule c x n k with
    | answer k1 b1 =>
      rw [hr, afterRule, if_neg hc] at h
      cases h
      rfl
    | _ => rw [hr] at h; cases h

/-- The chip has taken a transaction of the command, and is now `k'`: it answered or ignored it. -/
def Took (c : BusCmd) (k k' : Chip) : Prop :=
  ∃ x n, (∃ b, chipTake c x n k = .answer k' b) ∨ chipTake c x n k = .ignored

theorem Took.vwe {c : BusCmd} {k k' : Chip} (h : Took c k k') (hc : c ≠ .vwren)
    (hawake : k.pwr = .active ∨ c = .rdpd) : k'.vwe = false := by
  obtain ⟨x, n, ⟨b, hanswer⟩ | hignored⟩ := h
  · exact chipTake_answer_vwe hc hanswer
  · obtain ⟨hpwr, hnot⟩ := chipTake_ignored hignored
    rcases hawake with hactive | hrdpd
    · cases hpwr.symm.trans hactive
    · exact absurd hrdpd hnot

/-- An indirect command that goes on has been taken by the chip (40 R171). -/
theorem startIndirect_took {c : BusCmd} {s t : State} (h : startIndirect c s = .next t) :
    Took c s.chip t.chip := by
  unfold startIndirect at h
  extract_lets idx d s1 n out x s2 at h
  (repeat' split at h) <;> cases h
  case h_1 k b hk =>
    refine ⟨x, n, .inl ⟨b, ?_⟩⟩
    unfold receiveIndirect
    split <;> exact hk
  case h_2 hk => exact ⟨x, n, .inr hk⟩

/-- So has a window read (41 R217). -/
theorem startWindow_took {a : WindowAccess} {s t : State} (h : startWindow a s = .next t) :
    Took .mmread s.chip t.chip := by
  unfold startWindow at h
  split at h
  · cases h
  · split at h
    · cases h
    · extract_lets x s1 at h
      (repeat' split at h) <;> cases h
      case h_1 k b hk => exact ⟨x, _, .inl ⟨b, hk⟩⟩
      case h_2 hk => exact ⟨x, _, .inr hk⟩

/-- `MMREAD` with an access at the window is that access's read, once the word stands in `CCR`. -/
theorem execMmread_took {s t : State} (hw : s.window ≠ none) (h : execMmread s = .next t) :
    Took .mmread s.chip t.chip := by
  unfold execMmread at h
  split at h
  · exact absurd ‹_› hw
  · split at h
    · exact startWindow_took h
    · split at h
      · cases h
      · exact startWindow_took (s := writeCcr BusCmd.mmread.word s) h

/-- Settles O23: whatever starts the command, the chip has taken it, awake. -/
theorem nextCommandConsumesVwe : Obligations.NextCommandConsumesVwe := by
  intro c s t hc hawake hwindow h
  by_cases hm : c = .mmread
  · subst hm
    exact (execMmread_took (hwindow rfl) h).vwe hc hawake
  · rw [exec_indirect hm] at h
    exact (startIndirect_took h).vwe hc hawake

/-! ### The completion step -/

/-- The end of an operation clears BUSY, as the mask of the statements writes it (43 R307). -/
theorem sr1WithBusy_false (v : Byte) : sr1WithBusy v false = v &&& 0xFE := by
  revert v; decide

/-- And BUSY with WEL. -/
theorem sr1WithBusy_withWel_clear (v : Byte) :
    sr1WithBusy (sr1WithWel v false) false = v &&& 0xFC := by
  revert v; decide

/-- Settles O25: the chip's completion step at the opportunity that the schedule grants, by the kind of
operation that is pending. -/
theorem completionStep : Obligations.CompletionStep := by
  intro s rest hsch hp
  rw [chipChance_cons hp hsch, if_pos rfl]
  cases hk : s.chip.pending with
  | none => exact absurd hk hp
  | program a d => rw [chipComplete, hk, ← sr1WithBusy_withWel_clear]; rfl
  | erase a n => rw [chipComplete, hk, ← sr1WithBusy_withWel_clear]; rfl
  | wrsr2 v isVolatile =>
    cases isVolatile with
    | true => rw [chipComplete, hk, ← sr1WithBusy_false]; rfl
    | false => rw [chipComplete, hk, ← sr1WithBusy_withWel_clear]; rfl

end Sys2Proof.Machine
end

section
/-! PROOF. The register operations of HOST (43_register_operations.md rules R280 to R288): each is one
transaction and the return. -/

namespace Sys2Proof.Machine

/-- A request in INDIRECT that is one transaction returns from the state the transaction leaves, with the
result `r` of it (10 R37). -/
theorem request_oneTxn {i : Instr} {s t : State} (hs : s.seq = .idle) (hl : s.life = .indirect)
    (ha : admitted i .indirect = true) {f : State → Result} (r : State → OpResult)
    (hf : f { s with current := some i } = .next t) (ht : t.seq = .idle) :
    request i (fun u => andThen (f u) fun v => .next (finish (r v) v)) s =
      .next { t with results := t.results ++ [⟨t.current, r t⟩], current := none } := by
  rw [request_indirect hs hl ha, hf, andThen_next, finish_of_idle ht]

/-- Settles O47: one status read of one byte; the idle chip's opportunity after it does nothing. -/
theorem statusRegisterReads : Obligations.StatusRegisterReads := by
  intro s ⟨hs, hl, hbus, ⟨hcrm, hpwr, hidle⟩, hcfg⟩
  refine ⟨?_, ?_⟩
  · have ht := txnRead1_rdsr1 (s := { s with current := some .readStatusRegister1 }) hbus hcfg ⟨hcrm, hpwr⟩
    rw [chipChance_idle (by exact hidle)] at ht
    exact request_oneTxn hs hl rfl (fun v => .bytes v.rx) ht hs
  · have ht := txnRead1_rdsr2 (s := { s with current := some .readStatusRegister2 }) hbus hcfg ⟨hcrm, hpwr⟩
    rw [chipChance_idle (by exact hidle)] at ht
    exact request_oneTxn hs hl rfl (fun v => .bytes v.rx) ht hs

/-- The state after an operation `i` that is one `WREN` (43 R286, R288). -/
def wrenReturned (i : Instr) (s : State) : State :=
  { s with
    regs := afterTxn 0x00000106 s.regs
    chip := { s.chip with sr1 := s.chip.sr1 ||| 0x02, vwe := false }
    rx := []
    trace := s.trace ++ [bareTxn 0x06 false]
    results := s.results ++ [⟨some i, .unit⟩]
    current := none }

theorem request_wren {i : Instr} {s : State} (h : IndirectReady s) (ha : admitted i .indirect = true) :
    request i (fun u => andThen (txnBare .wren u) fun v => .next (finish .unit v)) s =
      .next (wrenReturned i s) := by
  obtain ⟨hs, hl, hbus, hchip, hcfg⟩ := h
  have ht := txnBare_wren (s := { s with current := some i }) hbus hcfg hchip
  rw [request_oneTxn hs hl ha (fun _ => .unit) ht hs, sr1WithWel_true]
  rfl

/-- Settles O48: both operations are `request_wren`, and WEL is set in what it leaves. -/
theorem writeEnableAndDisable : Obligations.WriteEnableAndDisable := by
  intro s h after
  refine ⟨request_wren h rfl, request_wren h rfl, fun i => ?_⟩
  show sr1Wel (s.chip.sr1 ||| 0x02) = true
  rw [← sr1WithWel_true]
  exact sr1Wel_withWel _ _

/-- The toggle written on and then off again gives back `CR` (10 R46). -/
theorem crWithSshift_restored {w : Word} (hoff : crSshift w = false) (hmask : w &&& crMask = w) :
    crWithSshift (crWithSshift w true &&& crMask) false &&& crMask = w := by
  ext i hi
  have hbit : (w[i] && crMask[i]) = w[i] := by rw [← BitVec.getElem_and]; simp only [hmask]
  by_cases h4 : i = 4
  · subst h4
    have hoff : w[4] = false := hoff
    simp [crWithSshift, withBit, hoff]
  · cases hw : w[i] <;> simp_all [crWithSshift, withBit]

/-- Settles O46: `RDID` runs between the two writes of the toggle, which restore `CR`. -/
theorem readIds : Obligations.ReadIds := by
  intro s ⟨hs, hl, hbus, hchip, ⟨hsize, hoff, hmask⟩⟩
  have ht := txn_rdid (s := writeSshift true { s with current := some .readIds }) hbus hsize
    (crSshift_withSshift _ _) hchip
  have hcr : crWithSshift (crWithSshift s.regs.cr true &&& crMask) false &&& crMask = s.regs.cr :=
    crWithSshift_restored hoff hmask
  rw [exec, execReadIds, request_indirect hs hl rfl, ht, andThen_next, finish_of_idle (by exact hs)]
  simp only [writeSshift, writeCr_regs, afterTxn, hcr]
  rfl

end Sys2Proof.Machine
end

section
/-! PROOF. How a step of a run can end: it goes on, at once or with a refusal's mark, or HOST has brought
about one of its two faults in MEMMAPPED (60_exceptions.md rule R321, last column; log 4). -/

namespace Sys2Proof.Machine

/-! ### Outcomes with which a step goes on -/

/-- A step with this outcome reaches a next state (log 4). -/
def StepGoesOn (o : Result) : Prop := ∃ t, settle o = .next t

theorem StepGoesOn.next (s : State) : StepGoesOn (.next s) := ⟨s, rfl⟩

theorem StepGoesOn.refused (c : RefCode) (x : Stopped) : StepGoesOn (.refused (refusalOf c x)) :=
  ⟨_, settle_refused c x⟩

theorem StepGoesOn.refuseRequest (c : RefCode) (i : Instr) (s : State) :
    StepGoesOn (refuseRequest c i s) := .refused c _

theorem StepGoesOn.rejectRequest (e : RequestError) (frame : List Byte) (s : State) :
    StepGoesOn (rejectRequest e frame s) := by
  cases e with
  | unknownOp => exact .refused .unknownOp _
  | malformed => exact .refused .malformed _

/-- A request that is not served is refused, so that only its body could stop the run (10 R32, R33). -/
theorem StepGoesOn.request {i : Instr} {s : State} {body : State → Result}
    (hb : StepGoesOn (body { s with current := some i })) : StepGoesOn (request i body s) := by
  unfold Machine.request
  split
  · exact .refuseRequest _ _ _
  · split
    · exact .refuseRequest _ _ _
    · exact hb

/-- A transaction that is answered, and then the return. -/
theorem StepGoesOn.returns {o : Result} {t : State} (ho : o = .next t) (f : State → State) :
    StepGoesOn (andThen o fun u => .next (f u)) := by
  rw [ho, andThen_next]
  exact .next _

/-! ### Polls -/

/-- A poll whose status read is answered goes on polling, or goes on to what follows it (40 R183). -/
theorem StepGoesOn.poll {s : State} (h : Running s) (w : PollCont) {k : State → Result}
    (hk : s.chip.pending = .none → StepGoesOn (k (statusRead s))) : StepGoesOn (pollThen w k s) := by
  rw [pollThen_eq h]
  split
  · rename_i hp
    exact hk hp
  · exact .next _

theorem StepGoesOn.pollDone {s : State} (h : Running s) : StepGoesOn (pollDone s) :=
  .poll h .done fun _ => .next _

theorem StepGoesOn.initPoll {s : State} (h : Running s) : StepGoesOn (pollThen .init finishInit s) :=
  .poll h .init fun _ => .next _

/-- Chunks that stay in their pages raise no fault: the chip is idle, awake and unprotected at each
(42 R245, 43 R301). -/
theorem StepGoesOn.programChunks :
    ∀ (l : List (Nat × List Byte)) {s : State}, (∀ c ∈ l, ChunkFits c) → ArrayReady s →
      StepGoesOn (programChunks l s)
  | [], _, _, _ => .next _
  | c :: l, s, hl, h => by
    rw [programChunks_cons h (hl c (List.mem_cons_self ..))]
    have hrun : Running (chipChance (chunkSent s c)) := (chunkSent_running h c).chance
    refine .poll hrun _ fun hp => .programChunks l (fun c hc => hl c (List.mem_cons_of_mem _ hc)) ?_
    exact hrun.arrayReady hp (chunkSent_programReady h c).chance

/-- The next read of a running poll (40 R183, R188). -/
theorem pollStep_goesOn {s : State} (h : BlockInv s) {w : PollCont} (hs : s.seq = .polling w) :
    StepGoesOn (pollStep w s) := by
  cases w with
  | init =>
    obtain ⟨-, -, hrun, -⟩ := h.initPoll hs
    exact .initPoll hrun
  | program l =>
    obtain ⟨hl, hfits⟩ := h.programPoll hs
    obtain ⟨hrun, hready⟩ := h.indirect hl
    exact .poll hrun _ fun hp => .programChunks l hfits (hrun.arrayReady hp hready)
  | done => exact .pollDone (h.indirect (h.donePoll hs)).1

/-! ### The operations outside MEMMAPPED -/

theorem busBringup_goesOn (p f cs ck : Word) (s : State) : StepGoesOn (execBusBringup p f cs ck s) := by
  refine .request ?_
  split
  · exact .refuseRequest _ _ _
  · exact .next _

/-- `init` finds the chip idle and outside continuous-read mode (41 R212, 70 R363). -/
theorem init_goesOn {s : State} (h : BlockInv s) (hs : s.seq = .idle) (hl : s.life = .busReady) :
    StepGoesOn (execInit s) := by
  obtain ⟨hbus, hcfg⟩ := h.bus (by rw [hl]; decide)
  obtain ⟨-, hp, -⟩ := h.quiet hs
  have hcrm := h.busReady_crm hl
  rw [execInit_eq hbus hcfg hcrm hs hl hp]
  exact .initPoll (initSent_running hbus hcfg hcrm).chance

section
variable {s : State} (h : Working s) (hp : s.chip.pending = .none)
include h hp

/-- `SE4K` on an idle chip, write-enabled or not (43 R302). -/
theorem Working.se4k {a : Word} (ha : a.toNat < Config.capacity) :
    ∃ t, Machine.txn .se4k { addr := a.setWidth 24 } s = .next t ∧ Working t := by
  have h24 : (a.setWidth 24).toNat < Config.capacity := by
    unfold Config.capacity at ha ⊢
    rw [BitVec.toNat_setWidth]
    omega
  obtain ⟨⟨-, -, -, hexact⟩, ⟨-, hprot, -⟩, -⟩ := id h
  obtain ⟨k, hk, -⟩ := chipTake_se4k_answer { addr := a.setWidth 24 } (h.running.chipReady hp) hexact
    hprot h24
  exact h.txn (by decide) (by decide) rfl
    ⟨fun _ => rfl, fun h => absurd rfl h, by simp, by simp, fun _ => h24⟩ hk nofun

/-- `CE` on an idle chip, write-enabled or not (43 R303). -/
theorem Working.ce : ∃ t, txnBare .ce s = .next t ∧ Working t := by
  obtain ⟨⟨-, -, -, hexact⟩, ⟨-, hprot, -⟩, -⟩ := id h
  obtain ⟨k, hk, -⟩ := chipTake_ce_answer {} (h.running.chipReady hp) hexact hprot
  exact h.txn (by decide) (by decide) rfl (by simp [argsFit, BusCmd.descriptor, Descriptor.bare]) hk
    nofun

/-- An erase operation after its range check (42 R250, R253). -/
theorem Working.erase_goesOn {erase : State → Result}
    (he : ∀ t, Working t → t.chip.pending = .none → ∃ u, erase t = .next u ∧ Working u) :
    StepGoesOn (eraseThenPoll erase s) := by
  obtain ⟨t, ht, hwork, hpend⟩ := h.eraseWren hp
  obtain ⟨u, hu, hwork'⟩ := he t hwork hpend
  rw [eraseThenPoll, ht, andThen_next, hu, andThen_next]
  exact .pollDone hwork'.running

theorem readBytes_goesOn (a : Word) (n : Nat) : StepGoesOn (execReadBytes a n s) := by
  refine .request ?_
  split
  · exact .refuseRequest _ _ _
  · split
    · exact .refuseRequest _ _ _
    · rename_i hn hr
      obtain ⟨hbus, hcfg, hchip, hqe, -⟩ := h.arrayReady hp
      exact .returns (txn_qread (s := { s with current := some (.readBytes a n) }) hbus hcfg hchip hqe
        (Nat.one_le_iff_ne_zero.2 hn) (by simpa [outOfRange] using hr)) _

theorem programPage_goesOn (a : Word) (d : List Byte) : StepGoesOn (execProgramPage a d s) := by
  refine .request ?_
  split
  · exact .refuseRequest _ _ _
  · rename_i hr
    have hr' : a.toNat + d.length ≤ Config.capacity := by simpa [outOfRange] using hr
    exact .programChunks _ (pageChunks_fits hr') (h.arrayReady hp)

theorem blockErase4k_goesOn (a : Word) : StepGoesOn (execBlockErase4k a s) := by
  refine .request ?_
  split
  · exact .refuseRequest _ _ _
  · rename_i hr
    have ha : a.toNat < Config.capacity := by simpa [outOfRange] using hr
    exact Working.erase_goesOn (s := { s with current := some (.blockErase4k a) }) h hp
      fun t ht hpt => ht.se4k hpt ha

theorem chipErase_goesOn : StepGoesOn (execChipErase s) :=
  .request (Working.erase_goesOn (s := { s with current := some .chipErase }) h hp
    fun _ ht hpt => ht.ce hpt)

theorem readIds_goesOn : StepGoesOn (execReadIds s) := by
  obtain ⟨hbus, ⟨hsize, -⟩, -⟩ := h.running
  exact .request (.returns (txn_rdid (s := writeSshift true { s with current := some .readIds }) hbus
    hsize (crSshift_withSshift _ _) (h.running.chipReady hp)) _)

end

/-- No transaction is in flight when `into_memory_mapped` writes the descriptor registers (10 R52). -/
theorem intoMemoryMapped_goesOn {s : State} (hbusy : s.regs.sr.busy = false) :
    StepGoesOn (execIntoMemoryMapped s) := by
  refine .request ?_
  dsimp only
  rw [hbusy, if_neg Bool.false_ne_true]
  exact .next _

/-- A request of INDIRECT that is one transaction (43 R282 to R288). -/
theorem oneTxn_goesOn {s : State} {i : Instr} {f : State → Result} (r : State → OpResult)
    (hf : ∃ t, f { s with current := some i } = .next t ∧ Working t ∧ t.chip.pending = .none) :
    StepGoesOn (request i (fun t => andThen (f t) fun u => .next (finish (r u) u)) s) := by
  obtain ⟨t, ht, -⟩ := hf
  exact .request (.returns ht _)

/-- Outside MEMMAPPED no request of a run faults (60 R321, last column). -/
theorem exec_goesOn {s : State} (h : BlockInv s) (hs : s.seq = .idle) (hl : s.life ≠ .memMapped)
    {i : Instr} (hi : ∀ c : BusCmd, i ≠ c.instr) : StepGoesOn (exec i s) := by
  obtain ⟨hbusy, hp, -⟩ := h.quiet hs
  cases ha : admitted i s.life with
  | false =>
    rw [exec_not_admitted hi hs ha]
    exact .refused .lifecycle _
  | true =>
    cases hlife : s.life with
    | memMapped => exact absurd hlife hl
    | uninit =>
      rw [hlife] at ha
      cases i with
      | busBringup p f cs ck => exact busBringup_goesOn p f cs ck s
      | _ => cases ha
    | busReady =>
      rw [hlife] at ha
      cases i with
      | init => exact init_goesOn h hs hlife
      | _ => cases ha
    | indirect =>
      have hwork := h.working hlife
      rw [hlife] at ha
      cases i with
      | intoMemoryMapped => exact intoMemoryMapped_goesOn hbusy
      | readBytes a n => exact readBytes_goesOn hwork hp a n
      | programPage a d => exact programPage_goesOn hwork hp a d
      | blockErase4k a => exact blockErase4k_goesOn hwork hp a
      | chipErase => exact chipErase_goesOn hwork hp
      | readIds => exact readIds_goesOn hwork hp
      | readStatusRegister1 =>
        exact oneTxn_goesOn _
          (Working.rdsr1 (s := { s with current := some .readStatusRegister1 }) hwork hp)
      | readStatusRegister2 =>
        exact oneTxn_goesOn _
          (Working.rdsr2 (s := { s with current := some .readStatusRegister2 }) hwork hp)
      | writeEnable =>
        exact oneTxn_goesOn _ (Working.wren (s := { s with current := some .writeEnable }) hwork hp)
      | writeDisable =>
        exact oneTxn_goesOn _ (Working.wren (s := { s with current := some .writeDisable }) hwork hp)
      | waitBusy => exact .request (.pollDone (s := { s with current := some .waitBusy }) hwork.running)
      | _ => cases ha

/-! ### MEMMAPPED -/

/-- A step from `s` with this outcome goes on, or HOST has brought about its fault in MEMMAPPED (60 R321). -/
def HostEnds (s : State) (o : Result) : Prop :=
  StepGoesOn o ∨ ∃ f, o = .fault f ∧ hostFault f = true ∧ s.life = .memMapped

/-- In MEMMAPPED a window access of a run finds the peripheral and the chip ready (41 R215, 10 R65). -/
theorem BlockInv.window {s : State} (h : BlockInv s) (hs : s.seq = .idle) (hl : s.life = .memMapped) :
    WindowReady s ∧ WindowChip s ∧ crSshift s.regs.cr = false := by
  obtain ⟨⟨hup, hbusy, -⟩, -, hsshift, -⟩ := h.bus (by rw [hl]; decide)
  obtain ⟨hcrm, hpwr, hqe, hccr, habr⟩ := h.windowFits hl
  obtain ⟨-, hp, -⟩ := h.quiet hs
  exact ⟨⟨hup, hbusy, hccr, habr⟩, ⟨hcrm, fun _ => ⟨hpwr, hp, hqe⟩⟩, hsshift⟩

/-- A load that passes its three checks is answered; past `CAPACITY` it is F_MM_RANGE (41 R218). -/
theorem mmLoad_hostEnds {s : State} (h : BlockInv s) (hs : s.seq = .idle) (hl : s.life = .memMapped)
    (a w : Word) : HostEnds s (exec (.mmLoad a w) s) := by
  rw [exec_mmLoad hs hl]
  split
  · exact .inl (.refuseRequest _ _ _)
  · split
    · exact .inl (.refuseRequest _ _ _)
    · split
      · exact .inr ⟨_, rfl, rfl, hl⟩
      · rename_i hwidth _ hrange
        obtain ⟨hw, hk, hsshift⟩ := h.window hs hl
        exact .inl (.returns (startWindow_eq (acc := ⟨a, w.toNat⟩)
          (s := { s with current := some (.mmLoad a w), window := some ⟨a, w.toNat⟩ }) hw hk hsshift
          (not_not.1 hwidth) (Nat.not_lt.1 hrange)) _)

/-- In MEMMAPPED only the two accesses of the CPU are admitted, and a store is F_MM_STORE (41 R219). -/
theorem exec_memMapped_hostEnds {s : State} (h : BlockInv s) (hs : s.seq = .idle)
    (hl : s.life = .memMapped) {i : Instr} (hi : ∀ c : BusCmd, i ≠ c.instr) : HostEnds s (exec i s) := by
  cases ha : admitted i s.life with
  | false =>
    rw [exec_not_admitted hi hs ha]
    exact .inl (.refused .lifecycle _)
  | true =>
    rw [hl] at ha
    cases i with
    | mmLoad a w => exact mmLoad_hostEnds h hs hl a w
    | mmStore a w v =>
      rw [exec, execMmStore, request_admitted hs (by rw [hl]; rfl)]
      exact .inr ⟨_, rfl, rfl, hl⟩
    | _ => cases ha

/-! ### The step -/

/-- A request of a run goes on, or faults in MEMMAPPED with one of HOST's faults (60 R321). -/
theorem exec_hostEnds {s : State} (h : BlockInv s) (hs : s.seq = .idle) {i : Instr}
    (hi : ∀ c : BusCmd, i ≠ c.instr) : HostEnds s (exec i s) := by
  by_cases hl : s.life = .memMapped
  · exact exec_memMapped_hostEnds h hs hl hi
  · exact .inl (exec_goesOn h hs hl hi)

/-- Settles O53: a running poll goes on (`pollStep_goesOn`), and a request goes on or faults as
`exec_hostEnds` says. -/
theorem onlyHostBringsAboutFaults : Obligations.OnlyHostBringsAboutFaults := by
  intro s h
  cases hs : s.seq with
  | polling w =>
    simp only [step, hs]
    exact .inl (pollStep_goesOn h hs)
  | launch =>
    obtain ⟨-, -, -, -, -, -, -, hseq, -⟩ := h
    simp [seqFits, hs] at hseq
  | idle =>
    obtain ⟨hbusy, hp, -⟩ := h.quiet hs
    have taken : BlockInv (takeRequest s) := h
    simp only [step, hs, quiesce_idle hbusy hp]
    split
    · exact .inl ⟨s, rfl⟩
    · split
      · rename_i hd
        obtain hgo | ⟨f, hf, hhost⟩ := exec_hostEnds taken hs (decode_request_not_bus hd)
        · exact .inl hgo
        · rw [hf]
          exact .inr ⟨f, rfl, hhost⟩
      · exact .inl (StepGoesOn.rejectRequest _ _ _)
      · rename_i hd
        exact absurd hd decode_request_error

end Sys2Proof.Machine
end
